-- ==== Sys2Proof/Word.lean ====
section
/-! DEFINITION. The word types of the MLC engine (00_scope.md R12, R13, R14). -/

namespace Sys2Proof

/-- A register of the window: "Every register is 32 bits" (R12). -/
abbrev Word := BitVec 32

/-- A data-memory byte: "A data-memory byte is 8 bits" (R12). -/
abbrev Byte := BitVec 8

/-- A bit string of R14, first bit first; `true` is the bit `1`. -/
abbrev BitString := List Bool

end Sys2Proof
end

