-- ==== Sys2Proof/Config.lean ====
section
/-! DEFINITION. The implementation parameters MEM_BYTES and SEQ_MAX (00_scope.md R10, R11), which are arguments of
the model (93_implementation_defined.md, Open parameters), and the free values: what the spec leaves unspecified
(93_implementation_defined.md U2, U5). REG_BASE, MEM_BASE and IRQ_LINE do not enter the model (same file). -/

namespace Sys2Proof

/-- The open parameters of one instance of the block. -/
structure Config where
  /-- MEM_BYTES, the size of the data memory in bytes (R10). -/
  memBytes : Nat
  /-- SEQ_MAX, the longest byte sequence a command handles (R11). -/
  seqMax : Nat
  deriving DecidableEq, Repr

/-- The range of the parameters: `1 ≤ MEM_BYTES ≤ 2^24` (R10) and `1 ≤ SEQ_MAX ≤ 2^24` (R11). -/
def Config.wf (c : Config) : Bool :=
  decide (1 ≤ c.memBytes) && decide (c.memBytes ≤ 2 ^ 24) && decide (1 ≤ c.seqMax) && decide (c.seqMax ≤ 2 ^ 24)

/-- The suggested parameters of R10 and R11. DESIGN CHOICE (log entry 1): `State.reset` is the reset state of an
instance with these parameters. No claim about every state rests on them. -/
def Config.suggested : Config := { memBytes := 65536, seqMax := 65536 }

/-- FREE VALUE (U5, R390; log entry 3): how many host events the engine lets go by before it completes the command
whose START was draw number `n`. Any finite number; it has no body, so nothing can be proved about its value. -/
opaque Config.latency : Nat → Nat

/-- FREE VALUE (U2, R370; log entry 4): the byte found at an address of the abandoned command's destination region
after a hardware reset that arrived while BUSY; the first argument is the draw number, the second the address. -/
opaque Config.resetByte : Nat → Nat → Byte

end Sys2Proof
end

