-- ==== Sys2Proof/Syntax.lean ====
section
/-! DEFINITION. The command set: one constructor per row of spec/opcode_table.json (30_encoding.md R112). "No command
has an immediate operand" (R111), so no constructor has a field. -/

namespace Sys2Proof

/-- The thirteen commands of R112. -/
inductive Instr where
  | nop         -- 0x00 NOP, R160
  | bwtEnc      -- 0x01 BWT_ENC, R180
  | bwtDec      -- 0x02 BWT_DEC, R181
  | mtfEnc      -- 0x03 MTF_ENC, R205
  | mtfDec      -- 0x04 MTF_DEC, R206
  | rleEnc      -- 0x05 RLE_ENC, R225
  | rleDec      -- 0x06 RLE_DEC, R226
  | hufBuild    -- 0x07 HUF_BUILD, R260
  | hufLoad     -- 0x08 HUF_LOAD, R261
  | hufEnc      -- 0x09 HUF_ENC, R290
  | hufDec      -- 0x0A HUF_DEC, R291
  | compress    -- 0x0B COMPRESS, R311
  | decompress  -- 0x0C DECOMPRESS, R316
  deriving DecidableEq, Repr

/-- Why a command word is illegal (R113): its two causes, in the order `decode` of R114 tests them. -/
inductive Illegal where
  | mbzNotZero       -- bits 31:8 are not zero
  | reservedOpcode   -- OPCODE is in 0x0D–0xFF
  deriving DecidableEq, Repr

end Sys2Proof
end

