-- ==== Sys2Proof/WellFormed.lean ====
section
/-! DEFINITION. Well-formedness: of an instruction as syntax, of a raw command word, of the parameters
(`Config.wf`, in Config.lean). -/

namespace Sys2Proof

/-- An instruction is well formed when its operand fields fit its encoding. "The command word has no register,
immediate or mode field" (R110), so no constructor has anything to check. -/
def Instr.wellFormed : Instr → Bool
  | .nop => true
  | .bwtEnc => true
  | .bwtDec => true
  | .mtfEnc => true
  | .mtfDec => true
  | .rleEnc => true
  | .rleDec => true
  | .hufBuild => true
  | .hufLoad => true
  | .hufEnc => true
  | .hufDec => true
  | .compress => true
  | .decompress => true

/-- The MBZ field is zero (R110: bits 31:8 "must be zero"). -/
def mbzClear (w : Word) : Bool := w.extractLsb' 8 24 == 0#24

/-- The OPCODE is one of the thirteen of R112 (0x0D–0xFF are reserved). -/
def opcodeDefined (w : Word) : Bool := decide ((w.extractLsb' 0 8).toNat ≤ 0x0C)

/-- A legal command word: the negation of "illegal" in R113. -/
def legalWord (w : Word) : Bool := mbzClear w && opcodeDefined w

end Sys2Proof
end

