-- ==== Sys2Proof/Decode.lean ====
section
/-! DEFINITION. The decoder of 30_encoding.md R114, total over all 2^32 words and rejecting by name, and after it
the encoder, written from the opcode map of R112. -/

namespace Sys2Proof

/-- OPCODE, bits 7:0 of the command word (R110). -/
def opcodeField (w : Word) : Byte := w.extractLsb' 0 8

/-- MBZ, bits 31:8 of the command word (R110). -/
def mbzField (w : Word) : BitVec 24 := w.extractLsb' 8 24

/-- The opcode map of R112, one row per command. -/
def opcodeMap : List (Byte × Instr) :=
  [(0x00, .nop), (0x01, .bwtEnc), (0x02, .bwtDec), (0x03, .mtfEnc), (0x04, .mtfDec), (0x05, .rleEnc),
   (0x06, .rleDec), (0x07, .hufBuild), (0x08, .hufLoad), (0x09, .hufEnc), (0x0A, .hufDec), (0x0B, .compress),
   (0x0C, .decompress)]

/-- The command of an opcode, none for the reserved ones (R112, R113). -/
def instrOfOpcode (op : Byte) : Option Instr := (opcodeMap.find? (fun row => row.1 == op)).map Prod.snd

/-- `decode(w)` of R114: the MBZ test comes first, then the opcode. -/
def decode (w : Word) : Except Illegal Instr :=
  if mbzField w ≠ 0#24 then .error .mbzNotZero
  else
    match instrOfOpcode (opcodeField w) with
    | some i => .ok i
    | none => .error .reservedOpcode

/-- The OPCODE of each command (R112). -/
def opcodeOf : Instr → Byte
  | .nop => 0x00
  | .bwtEnc => 0x01
  | .bwtDec => 0x02
  | .mtfEnc => 0x03
  | .mtfDec => 0x04
  | .rleEnc => 0x05
  | .rleDec => 0x06
  | .hufBuild => 0x07
  | .hufLoad => 0x08
  | .hufEnc => 0x09
  | .hufDec => 0x0A
  | .compress => 0x0B
  | .decompress => 0x0C

/-- The command word of a command: its OPCODE with MBZ = 0 (R114: "Each legal command has exactly one encoding"). -/
def encode (i : Instr) : Word := 0#24 ++ opcodeOf i

/-- The instruction read from a table word. A command word is one 32-bit register value (R110, R115), so the word
needs no layout in bytes, and a number of more than 32 bits is no command word. -/
def decodeTableWord (_nbits w : Nat) : Option Instr :=
  if w < 2 ^ 32 then
    match decode (BitVec.ofNat 32 w) with
    | .ok i => some i
    | .error _ => none
  else none

end Sys2Proof
end

