-- ==== Sys2Proof/Machine/State.lean ====
section
/-! DEFINITION. The state of the MLC engine (10_state.md), as plain data, the host's pending accesses, and the
reset state (R64). -/

namespace Sys2Proof.Machine

/-- The controller state `ctl` (R57). -/
inductive Ctl where
  | idle
  | busy
  deriving DecidableEq, Repr

/-- The error kinds of R341. Codes 11–15 are reserved and never reported, so there is no constructor for them. -/
inductive ErrKind where
  | none
  | invalidIndex
  | malformedRunList
  | malformedBitStream
  | missingMetadata
  | malformedCodeTable
  | symbolNotInTable
  | capacity
  | badRegion
  | illegalCommand
  | lengthLimit
  deriving DecidableEq, Repr

/-- The stages of R342: the values of STATUS.ERR_STAGE and of the stage pointer. Codes 7–15 are reserved and never
reported, so there is no constructor for them. -/
inductive Stage where
  | none
  | ctrl
  | bwt
  | mtf
  | rle
  | hufTree
  | hufBits
  deriving DecidableEq, Repr

/-- The data memory: (address, byte) pairs in canonical form (`Memory.wf` of Ops.lean). -/
abbrev Memory := List Host.Cell

/-- The code table CT: a bit string per byte value, empty for a byte with no code (R59). -/
abbrev CodeTable := Vector BitString 256

/-- One event of the world outside the block: a host access (20_memory.md R82, R84), a host wait (30_encoding.md
R116, R117), or the assertion of the hardware reset (70_reset_and_hazards.md R370). Widths, offsets and addresses
are naturals, so that the accesses that R83 and R84 answer with a bus error can be written down. -/
inductive HostEvent where
  /-- A write of `v` to the register window at offset `off`, `width` bytes wide. -/
  | regWrite (width off : Nat) (v : Word)
  /-- A read of the register window. -/
  | regRead (width off : Nat)
  /-- A data-port write of the low `8·width` bits of `v` at byte address `addr`. -/
  | memWrite (width addr : Nat) (v : Word)
  /-- A data-port read. -/
  | memRead (width addr : Nat)
  /-- `WAIT` of R116: read STATUS until BUSY reads 0. -/
  | waitIdle
  /-- The wait for IRQ in `RUNI` of R117. -/
  | waitIrq
  /-- The hardware reset (R370). -/
  | hardReset
  deriving DecidableEq, Repr

/-- What the block answers to the host's last completed access. A bus error is an answer of its own: "It is not a
value" (R83). -/
inductive Response where
  /-- No access has completed yet. -/
  | none
  /-- A write was taken (or, by R42 and R56, ignored). -/
  | ok
  /-- A read returned this value, zero-extended to 32 bits. -/
  | data (v : Word)
  /-- The access got a bus error (R83, R84). -/
  | busError
  deriving DecidableEq, Repr

/-- The faults of a host access. No command of the engine faults: each of its failures is an error record in STATUS
(R340). -/
inductive Fault where
  /-- Raised by the host ports (`regPort`, `dataPort` of Window.lean) for an access that R83 or R84 answers with a bus
  error. `hostStep` delivers it to the host as `Response.busError` and the block goes on unchanged (R83, R345), so it
  never stops the machine. Safe: no state of the block changes. -/
  | busError
  deriving DecidableEq, Repr

/-- The refusals. -/
inductive Refusal where
  /-- Raised by an arm of `exec` whose instruction has no meaning yet, with the instruction's mnemonic. No arm of
  this model raises it. Safe: the machine stops. -/
  | notModelled (mnemonic : String)
  deriving DecidableEq, Repr

/-- The state of one instance of the block, with the parameters it was built with, and what is pending outside it.
Views that are no storage of their own (ID, CAP_MEM, CAP_SEQ, STATUS.BUSY, STATUS.ERR, CODE_LEN, IRQ) are computed in
Flags.lean and Window.lean. -/
structure State where
  /-- The parameters MEM_BYTES and SEQ_MAX (R10, R11); no step changes them. -/
  cfg : Config
  /-- CTRL.IRQ_EN (R35). -/
  irqEn : Bool
  /-- STATUS.DONE (R38). -/
  done : Bool
  /-- STATUS.EMPTY (R40). -/
  empty : Bool
  /-- STATUS.CT_VALID (R41, R59). -/
  ctValid : Bool
  /-- STATUS.WBUSY (R42). -/
  wbusy : Bool
  /-- STATUS.ERR_KIND (R43). -/
  errKind : ErrKind
  /-- STATUS.ERR_STAGE (R44). -/
  errStage : Stage
  /-- CMD (R45). -/
  cmd : Word
  /-- SRC_ADDR (R46). -/
  srcAddr : Word
  /-- SRC_LEN (R47). -/
  srcLen : Word
  /-- DST_ADDR (R48). -/
  dstAddr : Word
  /-- DST_CAP (R49). -/
  dstCap : Word
  /-- DST_LEN (R50). -/
  dstLen : Word
  /-- ROT_IDX (R51). -/
  rotIdx : Word
  /-- META.ROT_VALID (R52). -/
  rotValid : Bool
  /-- PAYLOAD_BITS (R53). -/
  payloadBits : Word
  /-- FREQ[0..255] (R54). -/
  freq : Vector Word 256
  /-- The internal code table CT (R59); CODE_LEN (R55) is the view of its lengths. -/
  ct : CodeTable
  /-- The controller state (R57); STATUS.BUSY is the view of it (R37). -/
  ctl : Ctl
  /-- The stage pointer (R58). -/
  stage : Stage
  /-- The data memory DM (R61, R80). -/
  dm : Memory
  /-- The model's own: the host's events still to come, the next one first. -/
  host : List HostEvent
  /-- The model's own: the answer to the host's last completed access. -/
  resp : Response
  /-- The model's own: how many host events the running command still lets go by before it completes (U5). -/
  delay : Nat
  /-- The model's own: how many free values have been drawn. -/
  draws : Nat
  deriving DecidableEq, Repr

/-- The state right after the hardware reset at power-on, by the table of R64, with the suggested parameters (log
entry 1), nothing listed in data memory (log entry 2), and nothing pending outside. -/
def State.reset : State where
  cfg := Config.suggested
  irqEn := false
  done := false
  empty := false
  ctValid := false
  wbusy := false
  errKind := .none
  errStage := .none
  cmd := 0
  srcAddr := 0
  srcLen := 0
  dstAddr := 0
  dstCap := 0
  dstLen := 0
  rotIdx := 0
  rotValid := false
  payloadBits := 0
  freq := Vector.replicate 256 0
  ct := Vector.replicate 256 []
  ctl := .idle
  stage := .none
  dm := []
  host := []
  resp := .none
  delay := 0
  draws := 0

/-- Every power-on state: any parameters, and any content of the data memory ("each byte is an arbitrary 8-bit
value, chosen once at power-on", U1). -/
def State.powerOn (cfg : Config) (dm : Memory) : State := { State.reset with cfg := cfg, dm := dm }

end Sys2Proof.Machine
end

