-- ==== Sys2Proof/Machine/Ops.lean ====
section
/-! DEFINITION. The shared operations over the data memory, the byte-indexed tables and the registers: what every
command's meaning is written with. -/

namespace Sys2Proof.Machine

/-! ## The data memory (20_memory.md) -/

/-- What an address that no cell lists reads as. DESIGN CHOICE (log entry 2): the spec leaves the power-on content
unspecified (U1), which the model covers by every initial list of cells. -/
def Memory.unlisted : Byte := 0

/-- The canonical form: addresses strictly rising, no cell equal to what an unlisted address reads as. -/
def Memory.wf : Memory → Bool
  | [] => true
  | (a, b) :: m => b != Memory.unlisted && m.all (fun c => decide (a < c.1)) && Memory.wf m

/-- `DM[a]`: one byte (R80). -/
def Memory.read : Memory → Nat → Byte
  | [], _ => Memory.unlisted
  | (k, b) :: m, a => if k = a then b else Memory.read m a

/-- `DM[a] <- b`, keeping the canonical form. -/
def Memory.write : Memory → Nat → Byte → Memory
  | [], a, b => if b = Memory.unlisted then [] else [(a, b)]
  | (k, c) :: m, a, b =>
    if a < k then (if b = Memory.unlisted then (k, c) :: m else (a, b) :: (k, c) :: m)
    else if a = k then (if b = Memory.unlisted then m else (a, b) :: m)
    else (k, c) :: Memory.write m a b

/-- `MemRead(a, n)` of R15. -/
def Memory.readBytes (m : Memory) (a : Nat) : Nat → List Byte
  | 0 => []
  | n + 1 => m.read a :: Memory.readBytes m (a + 1) n

/-- `MemWrite(a, |v|, v)` of R15. -/
def Memory.writeBytes (m : Memory) (a : Nat) : List Byte → Memory
  | [] => m
  | b :: v => Memory.writeBytes (m.write a b) (a + 1) v

/-- A region is in bounds when `base + length ≤ MEM_BYTES`, "computed on unbounded naturals" (R87). -/
def inBounds (cfg : Config) (base len : Word) : Bool := decide (base.toNat + len.toNat ≤ cfg.memBytes)

/-- The number read from bytes in little-endian order (R85). -/
def littleEndian : List Byte → Nat
  | [] => 0
  | b :: v => b.toNat + 256 * littleEndian v

/-- The `n` low bytes of a number, the lowest first (R85). -/
def bytesOf : Nat → Nat → List Byte
  | 0, _ => []
  | n + 1, v => BitVec.ofNat 8 v :: bytesOf n (v / 256)

/-! ## Tables indexed by a byte value -/

/-- The 256 byte values in ascending order. -/
def allBytes : List Byte := (List.range 256).map (BitVec.ofNat 8)

/-- The array of 256 entries whose entry `b` is `f b`. -/
def tabulate {α : Type} (f : Byte → α) : Vector α 256 := ⟨(allBytes.map f).toArray, by simp [allBytes]⟩

/-- Entry `b` of an array of 256 entries. -/
def entry {α : Type} (v : Vector α 256) (b : Byte) : α := v[b.toNat]'b.isLt

/-- The bytes that have a code, in ascending order, each with its code (`E` of R250). -/
def codeEntries (ct : CodeTable) : List (Byte × BitString) :=
  (allBytes.map (fun b => (b, entry ct b))).filter (fun e => e.2 != [])

/-! ## The outcome of a command (40_command_common.md R143, R144) -/

/-- `Err(kind, stage)` of R143. -/
structure CmdError where
  kind : ErrKind
  stage : Stage
  deriving DecidableEq, Repr

/-- The result record `res` of R144. Numbers are exact here and are narrowed to 32 bits once, at the commit. -/
structure Result where
  /-- The byte sequence for the destination region. -/
  out : List Byte
  /-- The pair (ROT_IDX value, ROT_VALID value) to write, when present. -/
  rot : Option (Nat × Bool)
  /-- The PAYLOAD_BITS value to write, when present. -/
  bits : Option Nat
  /-- The new CT and the new FREQ, when present. -/
  huf : Option (CodeTable × Vector Nat 256)
  /-- The EMPTY value. -/
  empty : Bool
  deriving DecidableEq, Repr

/-- A result that writes only the destination region. -/
def Result.plain (out : List Byte) (empty : Bool) : Result :=
  { out := out, rot := none, bits := none, huf := none, empty := empty }

/-- `raise ERROR(kind, stage)` of R15. -/
def raise {α : Type} (kind : ErrKind) (stage : Stage) : Except CmdError α := .error { kind := kind, stage := stage }

/-- `lim(s, S)` of R150: the check a body applies to a sequence it has produced. -/
def lim (seqMax : Nat) (s : List Byte) (stage : Stage) : Except CmdError (List Byte) :=
  if s.length > seqMax then raise .lengthLimit stage else .ok s

/-- `writes_dst(cmd)` of R143: "every command except NOP and HUF_LOAD". -/
def writesDst : Instr → Bool
  | .nop => false
  | .hufLoad => false
  | .bwtEnc | .bwtDec | .mtfEnc | .mtfDec | .rleEnc | .rleDec => true
  | .hufBuild | .hufEnc | .hufDec | .compress | .decompress => true

/-- `reads_src(cmd)` of R143: "every command except NOP". -/
def readsSrc : Instr → Bool
  | .nop => false
  | .bwtEnc | .bwtDec | .mtfEnc | .mtfDec | .rleEnc | .rleDec => true
  | .hufBuild | .hufLoad | .hufEnc | .hufDec | .compress | .decompress => true

/-! ## Taking an error, and the return from it (60_exceptions.md §4) -/

/-- Taking an error: the abort of R154. "Completion plays the part of trap entry" (R351): the kind and the stage go
into STATUS, EMPTY is cleared, DONE is set and the controller is IDLE; nothing else changes (R152). The stage pointer
stays where the raise found it (R58, R318). -/
def raiseError (e : CmdError) (s : State) : State :=
  { s with errKind := e.kind, errStage := e.stage, empty := false, done := true, ctl := .idle, stage := e.stage }

/-- The return: the host acknowledges a completion by writing 1 to STATUS.DONE (R352, R36). The error record stays. -/
def acknowledge (s : State) : State := { s with done := false }

/-- The result registers of R153 that a present field of `res` writes. -/
def writeResults (r : Result) (s : State) : State :=
  { s with
    dstLen := BitVec.ofNat 32 r.out.length
    rotIdx := match r.rot with | some p => BitVec.ofNat 32 p.1 | none => s.rotIdx
    rotValid := match r.rot with | some p => p.2 | none => s.rotValid
    payloadBits := match r.bits with | some k => BitVec.ofNat 32 k | none => s.payloadBits
    ct := match r.huf with | some h => h.1 | none => s.ct
    freq := match r.huf with | some h => h.2.map (BitVec.ofNat 32) | none => s.freq
    ctValid := match r.huf with | some _ => true | none => s.ctValid }

/-- The commit of R153: the output to the destination region, the result registers, the cleared error record, EMPTY,
DONE, and the controller back to IDLE. The last stage of a success is CTRL (R318). -/
def commit (i : Instr) (r : Result) (s : State) : State :=
  { writeResults r s with
    dm := if writesDst i then s.dm.writeBytes s.dstAddr.toNat r.out else s.dm
    errKind := .none, errStage := .none, empty := r.empty, done := true, ctl := .idle, stage := .ctrl }

/-! ## START and the resets -/

/-- START (R141), after CTRL.IRQ_EN was stored: the record is cleared and the controller is BUSY. The descriptor needs
no copy: "A model may read the registers in place of the copy" (R57). How many host events go by before the
completion is a fresh free value (U5). -/
def startCommand (s : State) : State :=
  { s with done := false, errKind := .none, errStage := .none, empty := false, ctl := .busy, stage := .ctrl,
           delay := Config.latency s.draws, draws := s.draws + 1 }

/-- Every register, field and internal state item at its value in R64. The parameters, the data memory and what is
the model's own stay. -/
def resetRegisters (s : State) : State :=
  { State.reset with cfg := s.cfg, dm := s.dm, host := s.host, resp := s.resp, delay := s.delay, draws := s.draws }

/-- The soft reset of R372: "in one step. It leaves the data memory unchanged." -/
def softReset (s : State) : State := resetRegisters s

/-- Free values at the addresses `a, …, a + n - 1` (U2): draw number `d`. -/
def scramble (m : Memory) (d a : Nat) : Nat → Memory
  | 0 => m
  | n + 1 => scramble (m.write a (Config.resetByte d a)) d (a + 1) n

/-- How many bytes of the destination region `[DST_ADDR, DST_ADDR + DST_CAP)` exist in the data memory. -/
def dstBytes (s : State) : Nat := min s.dstCap.toNat (s.cfg.memBytes - s.dstAddr.toNat)

/-- The hardware reset of R370. While IDLE the data memory is unchanged; while BUSY the command is abandoned and the
bytes of its destination region become free values (U2). -/
def hardReset (s : State) : State :=
  match s.ctl with
  | .idle => resetRegisters s
  | .busy => { resetRegisters s with dm := scramble s.dm s.draws s.dstAddr.toNat (dstBytes s), draws := s.draws + 1 }

end Sys2Proof.Machine
end

