-- ==== Sys2Proof/Machine/Flags.lean ====
section
/-! DEFINITION. The flags: the STATUS fields and their computation (10_state.md R36 to R44; 40_command_common.md R146,
R155), the codes of error kinds and stages (60_exceptions.md R341, R342), and the interrupt output (R350). "The block
has no condition codes" (R146). -/

namespace Sys2Proof.Machine

/-- The code of an error kind (R341). -/
def ErrKind.code : ErrKind → Nat
  | .none => 0
  | .invalidIndex => 1
  | .malformedRunList => 2
  | .malformedBitStream => 3
  | .missingMetadata => 4
  | .malformedCodeTable => 5
  | .symbolNotInTable => 6
  | .capacity => 7
  | .badRegion => 8
  | .illegalCommand => 9
  | .lengthLimit => 10

/-- The code of a stage (R342). -/
def Stage.code : Stage → Nat
  | .none => 0
  | .ctrl => 1
  | .bwt => 2
  | .mtf => 3
  | .rle => 4
  | .hufTree => 5
  | .hufBits => 6

/-- STATUS.BUSY: "1 exactly while the controller is in state BUSY" (R37). -/
def busy (s : State) : Bool := s.ctl == .busy

/-- STATUS.ERR: "1 exactly when STATUS.ERR_KIND ≠ 0" (R39). -/
def err (s : State) : Bool := s.errKind != .none

/-- The value of STATUS by the layout of R36; bits 7:6 and 31:16 read 0. -/
def statusWord (s : State) : Word :=
  BitVec.ofNat 32
    ((busy s).toNat + 2 * s.done.toNat + 4 * (err s).toNat + 8 * s.empty.toNat + 16 * s.ctValid.toNat
      + 32 * s.wbusy.toNat + 256 * s.errKind.code + 4096 * s.errStage.code)

/-- EMPTY of a successful command with raw side `raw` (R155): the source for commands that encode or build, the
output for commands that decode. -/
def emptyFlag (raw : List Byte) : Bool := raw.isEmpty

/-- The interrupt output: `IRQ = CTRL.IRQ_EN AND STATUS.DONE` (R350, R62). -/
def irq (s : State) : Bool := s.irqEn && s.done

end Sys2Proof.Machine
end

