-- ==== Sys2Proof/Machine/Operands.lean ====
section
/-! DEFINITION. The operand forms of 30_encoding.md R111 and the frame every command runs in (40_command_common.md
R143). Every register value is used zero-extended and unsigned. -/

namespace Sys2Proof.Machine

/-- The operands a body reads beside its source sequence: "a function of the latched descriptor, the data memory DM,
CT with CT_VALID, and the parameters" (R143). -/
structure Operands where
  /-- x[ROT_IDX] -/
  rotIdx : Word
  /-- x[META].ROT_VALID -/
  rotValid : Bool
  /-- x[PAYLOAD_BITS] -/
  payloadBits : Word
  /-- CT -/
  ct : CodeTable
  /-- CT_VALID -/
  ctValid : Bool
  /-- SEQ_MAX -/
  seqMax : Nat
  deriving DecidableEq, Repr

/-- The operands of the command in progress, read from the registers (R57, R63). -/
def operandsOf (s : State) : Operands :=
  { rotIdx := s.rotIdx, rotValid := s.rotValid, payloadBits := s.payloadBits, ct := s.ct, ctValid := s.ctValid,
    seqMax := s.cfg.seqMax }

/-- The source region `src = MemRead(x[SRC_ADDR], x[SRC_LEN])` (R111, R47). -/
def sourceSeq (s : State) : List Byte := s.dm.readBytes s.srcAddr.toNat s.srcLen.toNat

/-- What a command's source operand is: `[]` for the command that reads none (R143). -/
def sourceOf (i : Instr) (s : State) : List Byte := if readsSrc i then sourceSeq s else []

/-- The source region check of R148. -/
def srcInBounds (s : State) : Bool := inBounds s.cfg s.srcAddr s.srcLen

/-- The destination region check of R148: "at its full capacity DST_CAP, not at the output length". -/
def dstInBounds (s : State) : Bool := inBounds s.cfg s.dstAddr s.dstCap

/-- A command's body: files 41 to 46 of the spec. -/
abbrev Body := Operands → List Byte → Except CmdError Result

/-- The capacity check of R151, after the body has returned. -/
def capacityCheck (i : Instr) (s : State) (r : Result) : Except CmdError Result :=
  if writesDst i && decide (r.out.length > s.dstCap.toNat) then raise .capacity .ctrl else .ok r

/-- `exec()` of R143 after decoding, with the checks in the order of R145. -/
def frame (i : Instr) (body : Body) (s : State) : Except CmdError Result :=
  if readsSrc i && !srcInBounds s then raise .badRegion .ctrl
  else if writesDst i && !dstInBounds s then raise .badRegion .ctrl
  else if readsSrc i && decide (s.srcLen.toNat > s.cfg.seqMax) then raise .lengthLimit .ctrl
  else
    match body (operandsOf s) (sourceOf i s) with
    | .error e => .error e
    | .ok r => capacityCheck i s r

/-- Completion of a command (R142): commit (R153) or record the error (R154). -/
def runCommand (i : Instr) (body : Body) (s : State) : Host.Outcome State Fault Refusal :=
  match frame i body s with
  | .ok r => .next (commit i r s)
  | .error e => .next (raiseError e s)

end Sys2Proof.Machine
end

