-- ==== Sys2Proof/Machine/Controller.lean ====
section
/-! DEFINITION. The controller's own command, NOP (40_command_common.md R160), and the completion of an illegal
command word (R147). -/

namespace Sys2Proof.Machine

/-- `BODY_NOP(src) = { out: [], empty: 0 }` (R160). -/
def nopBody : Body := fun _ _ => .ok (Result.plain [] false)

/-- NOP (R160): the frame skips the region and length checks. -/
def execNop (s : State) : Host.Outcome State Fault Refusal := runCommand .nop nopBody s

/-- An illegal command word "completes at once with error ILLEGAL_COMMAND at stage CTRL" (R113, R147). -/
def completeIllegal (s : State) : Host.Outcome State Fault Refusal :=
  .next (raiseError { kind := .illegalCommand, stage := .ctrl } s)

end Sys2Proof.Machine
end

