-- ==== Sys2Proof/Machine/Bwt.lean ====
section
/-! DEFINITION. The BWT engine (41_bwt.md): the sort of the cyclic rotations with rank tracking, and the LF walk. -/

namespace Sys2Proof.Machine

/-! ## Forward transform -/

/-- The comparison of R172 on two rotations of length `n`, each given as a list that begins with its bytes, with the
tie-break on the start positions `i` and `j` (equal rotations rank by ascending start). On equal starts it answers
true, so that it is the reflexive closure of the strict order of R172. -/
def rotationLe (i j : Nat) : Nat → List Byte → List Byte → Bool
  | n + 1, a :: x, b :: y => if a = b then rotationLe i j n x y else decide (a.toNat < b.toNat)
  | _, _, _ => decide (i ≤ j)

/-- The start positions 0..n-1, each with the list whose first `n` bytes are its rotation: `rot(T, i)` of R171 is a
run of `n` bytes of `T ++ T`. -/
def rotations (t : List Byte) : List (Nat × List Byte) :=
  (List.range t.length).map (fun i => (i, (t ++ t).drop i))

/-- The sorted order SA of R173. -/
def sortedOrder (t : List Byte) : List Nat :=
  ((rotations t).insertionSort (fun x y => rotationLe x.1 y.1 t.length x.2 y.2 = true)).map Prod.fst

/-- L of R174: "for each rotation in sorted order the byte immediately preceding its start". -/
def bwtLast (t : List Byte) : List Byte :=
  (sortedOrder t).map (fun i => t.getD ((i + t.length - 1) % t.length) 0)

/-- `I = rank(0)` of R174. -/
def bwtIndex (t : List Byte) : Nat := (sortedOrder t).idxOf 0

/-! ## Inverse transform -/

/-- `C[c]` of R176: how many bytes of L are strictly smaller than `c`. -/
def smallerCount (l : List Byte) (c : Byte) : Nat := l.countP (fun b => decide (b.toNat < c.toNat))

/-- `Occ(p)` of R176: how many of `L[0..p]` equal `L[p]`. -/
def occurrence (l : List Byte) (p : Nat) : Nat := (l.take (p + 1)).count (l.getD p 0)

/-- `LF(p) = C[L[p]] + Occ(p) - 1` (R176). -/
def lastToFirst (l : List Byte) (p : Nat) : Nat := smallerCount l (l.getD p 0) + occurrence l p - 1

/-- The walk of R177 for `n` more steps from `p`; the bytes already emitted, later positions first found, are `out`. -/
def lfWalk (l : List Byte) : Nat → Nat → List Byte → List Byte
  | 0, _, out => out
  | n + 1, p, out => lfWalk l n (lastToFirst l p) (l.getD p 0 :: out)

/-- The inverse walk of R177 from I. -/
def bwtInverse (l : List Byte) (i : Nat) : List Byte := lfWalk l l.length i []

/-- The BWT stage of decompression with its three checks, in the order of R181. -/
def bwtDecode (rotIdx : Word) (rotValid : Bool) (l : List Byte) : Except CmdError (List Byte) :=
  if l.length = 0 then (if rotValid then raise .invalidIndex .bwt else .ok [])
  else if !rotValid then raise .missingMetadata .bwt
  else if rotIdx.toNat ≥ l.length then raise .invalidIndex .bwt
  else .ok (bwtInverse l rotIdx.toNat)

/-! ## Commands -/

/-- The pair (ROT_IDX, ROT_VALID) the forward transform gives: (0, 0) for empty input, "index marked unused" (R180). -/
def bwtRot (t : List Byte) : Nat × Bool := if t.length = 0 then (0, false) else (bwtIndex t, true)

/-- BODY_BWT_ENC (R180). -/
def bwtEncBody : Body := fun _ src =>
  .ok { Result.plain (bwtLast src) (emptyFlag src) with rot := some (bwtRot src) }

/-- BODY_BWT_DEC (R181). -/
def bwtDecBody : Body := fun o src =>
  match bwtDecode o.rotIdx o.rotValid src with
  | .error e => .error e
  | .ok out => .ok (Result.plain out (emptyFlag out))

/-- BWT_ENC (R180). -/
def execBwtEnc (s : State) : Host.Outcome State Fault Refusal := runCommand .bwtEnc bwtEncBody s

/-- BWT_DEC (R181). -/
def execBwtDec (s : State) : Host.Outcome State Fault Refusal := runCommand .bwtDec bwtDecBody s

end Sys2Proof.Machine
end

