-- ==== Sys2Proof/Machine/Bits.lean ====
section
/-! DEFINITION. The packing of bit strings, most significant bit first (45_huffman_bits.md R281, R282), which both
Huffman units use. -/

namespace Sys2Proof.Machine

/-- The rounded-up quotient by eight (R14). -/
def ceil8 (n : Nat) : Nat := (n + 7) / 8

/-- The byte of the first eight bits of `w`, the first bit in bit 7, padded with zero bits (R281). -/
def packByte (w : BitString) : Byte :=
  BitVec.ofNat 8 ((List.range 8).foldl (fun acc i => 2 * acc + (w.getD i false).toNat) 0)

/-- The first `n` bytes of the packing of `w`. -/
def packBytes : Nat → BitString → List Byte
  | 0, _ => []
  | n + 1, w => packByte w :: packBytes n (w.drop 8)

/-- `pack(w)` (R281). -/
def pack (w : BitString) : List Byte := packBytes (ceil8 w.length) w

/-- The eight bits of a byte, from bit 7 down to bit 0 (R282). -/
def byteBits (b : Byte) : BitString := (List.range 8).map (fun i => b.getLsbD (7 - i))

/-- `unpack(p)` (R282). -/
def unpack (p : List Byte) : BitString := p.flatMap byteBits

end Sys2Proof.Machine
end

