-- ==== Sys2Proof/Machine/HufBits.lean ====
section
/-! DEFINITION. The Huffman bitstream packer/unpacker (45_huffman_bits.md). -/

namespace Sys2Proof.Machine

/-- `encode(s, ct)` (R283): the codes of the bytes in input order. -/
def hufEncode (ct : CodeTable) (s : List Byte) : BitString := s.flatMap (fun b => entry ct b)

/-- `u` is a node of the trie of the table (R285): a beginning of some code, or the root. -/
def trieNode (es : List (Byte × BitString)) (u : BitString) : Bool := u.isEmpty || es.any (fun e => u.isPrefixOf e.2)

/-- The byte whose code is `u`, if `u` is a leaf (R285). -/
def trieLeaf (es : List (Byte × BitString)) (u : BitString) : Option Byte := (es.find? (fun e => e.2 == u)).map Prod.fst

/-- The bit loop of `huf_dec` (R286): at node `u` of the trie of the table with entries `es`, with `len` bytes already
put out. -/
def hufWalk (es : List (Byte × BitString)) (seqMax : Nat) : BitString → Nat → BitString → Except CmdError (List Byte)
  | u, _, [] => if u = [] then .ok [] else raise .malformedBitStream .hufBits
  | u, len, x :: w =>
    if !trieNode es (u ++ [x]) then raise .malformedBitStream .hufBits
    else
      match trieLeaf es (u ++ [x]) with
      | some b =>
        if len + 1 > seqMax then raise .lengthLimit .hufBits
        else
          match hufWalk es seqMax [] (len + 1) w with
          | .error e => .error e
          | .ok out => .ok (b :: out)
      | none => hufWalk es seqMax (u ++ [x]) len w

/-- `huf_dec(payload, N, ct)` (R286), with the strict framing of R287. -/
def hufDecode (ct : CodeTable) (seqMax : Nat) (n : Nat) (payload : List Byte) : Except CmdError (List Byte) :=
  if payload.length ≠ ceil8 n then raise .malformedBitStream .hufBits
  else if ((unpack payload).drop n).any id then raise .malformedBitStream .hufBits
  else hufWalk (codeEntries ct) seqMax [] 0 ((unpack payload).take n)

/-- BODY_HUF_ENC (R290). -/
def hufEncBody : Body := fun o src =>
  if !o.ctValid then raise .missingMetadata .hufBits
  else if src.any (fun b => (entry o.ct b).isEmpty) then raise .symbolNotInTable .hufBits
  else
    match lim o.seqMax (pack (hufEncode o.ct src)) .hufBits with
    | .error e => .error e
    | .ok out => .ok { Result.plain out (emptyFlag src) with bits := some (hufEncode o.ct src).length }

/-- BODY_HUF_DEC (R291). -/
def hufDecBody : Body := fun o src =>
  if !o.ctValid then raise .missingMetadata .hufBits
  else
    match hufDecode o.ct o.seqMax o.payloadBits.toNat src with
    | .error e => .error e
    | .ok out => .ok (Result.plain out (emptyFlag out))

/-- HUF_ENC (R290). -/
def execHufEnc (s : State) : Host.Outcome State Fault Refusal := runCommand .hufEnc hufEncBody s

/-- HUF_DEC (R291). -/
def execHufDec (s : State) : Host.Outcome State Fault Refusal := runCommand .hufDec hufDecBody s

end Sys2Proof.Machine
end

