-- ==== Sys2Proof/Machine/HufTree.lean ====
section
/-! DEFINITION. The Huffman tree builder with deterministic merge, and the serialised code table
(44_huffman_tree.md). -/

namespace Sys2Proof.Machine

/-- `freq(s)[b] = #{ i : s[i] = b }` (R241). -/
def freqOf (s : List Byte) : Vector Nat 256 := tabulate (fun b => s.count b)

/-- The code tree: leaves are byte values (R242, R245). -/
inductive HufTree where
  | leaf (b : Byte)
  | node (left right : HufTree)
  deriving DecidableEq, Repr

/-- A node of the pool with its weight and its key (R242). -/
structure PoolNode where
  weight : Nat
  key : Nat
  tree : HufTree
  deriving DecidableEq, Repr

/-- The order of R243: "lower weight first, and for equal weight, lower key first" (keys are unique, so on two nodes
of one pool the closure under equality is strict). -/
def poolLe (x y : PoolNode) : Bool :=
  decide (x.weight < y.weight) || (decide (x.weight = y.weight) && decide (x.key ≤ y.key))

/-- The leaves in ascending byte value: "one for each byte value b with freq[b] > 0" (R242). -/
def leafBytes (f : Vector Nat 256) : List Byte := allBytes.filter (fun b => decide (entry f b > 0))

/-- The pool at the start, in the order of R243. -/
def leafPool (f : Vector Nat 256) : List PoolNode :=
  ((leafBytes f).map (fun b => { weight := entry f b, key := b.toNat, tree := .leaf b })).insertionSort
    (fun x y => poolLe x y = true)

/-- At most `n` merges of R243, the next one number `k`, over a pool kept in order: the first node extracted becomes
the left child, the second the right child, and the new node has key `256 + k`. -/
def mergePool : Nat → Nat → List PoolNode → List PoolNode
  | n + 1, k, a :: c :: pool =>
    mergePool n (k + 1)
      (pool.orderedInsert (fun x y => poolLe x y = true)
        { weight := a.weight + c.weight, key := 256 + k, tree := .node a.tree c.tree })
  | _, _, pool => pool

/-- The codes below a node whose own code is `u`: "0" goes left, "1" goes right (R245). -/
def treeCodes : HufTree → BitString → List (Byte × BitString)
  | .leaf b, u => [(b, u)]
  | .node l r, u => treeCodes l (u ++ [false]) ++ treeCodes r (u ++ [true])

/-- The code table of a list of (byte, code) pairs; a byte not listed has no code. -/
def tableOf (es : List (Byte × BitString)) : CodeTable := tabulate (fun b => (es.lookup b).getD [])

/-- `build_codes(f)` (R248), with the degenerate code "0" of R244. -/
def buildCodes (f : Vector Nat 256) : CodeTable :=
  match leafPool f with
  | [] => tableOf []
  | [leaf] => tableOf (treeCodes leaf.tree [false])
  | pool =>
    match mergePool pool.length 0 pool with
    | root :: _ => tableOf (treeCodes root.tree [])
    | [] => tableOf []

/-! ## The serialised code table -/

/-- The entry of a byte and its code: `[b, L] ++ pack(code)` (R250). -/
def serializeEntry (e : Byte × BitString) : List Byte := e.1 :: BitVec.ofNat 8 e.2.length :: pack e.2

/-- `serialize(ct)` (R250): the 16-bit little-endian count, then the entries in ascending byte value. -/
def serialize (ct : CodeTable) : List Byte :=
  bytesOf 2 (codeEntries ct).length ++ (codeEntries ct).flatMap serializeEntry

/-- The entry loop of `parse_table` (R252): `n` entries, byte values at least `lo` (that is, above `prev`), from the
front of `t`; it returns the entries and the rest of `t`. -/
def parseEntries : Nat → Nat → List Byte → Except CmdError (List (Byte × BitString) × List Byte)
  | 0, _, t => .ok ([], t)
  | n + 1, lo, b :: len :: t =>
    if b.toNat < lo ∨ len = 0 then raise .malformedCodeTable .hufTree
    else if t.length < ceil8 len.toNat then raise .malformedCodeTable .hufTree
    else if ((unpack (t.take (ceil8 len.toNat))).drop len.toNat).any id then raise .malformedCodeTable .hufTree
    else
      match parseEntries n (b.toNat + 1) (t.drop (ceil8 len.toNat)) with
      | .error e => .error e
      | .ok (es, rest) => .ok ((b, (unpack (t.take (ceil8 len.toNat))).take len.toNat) :: es, rest)
  | _ + 1, _, _ => raise .malformedCodeTable .hufTree

/-- No code of the list is a beginning of another one (R252, R246). -/
def codesPrefixFree : List BitString → Bool
  | [] => true
  | c :: cs => cs.all (fun d => !c.isPrefixOf d && !d.isPrefixOf c) && codesPrefixFree cs

/-- A parsed table: CT, the bytes after the table (`src[p .. |src|)`), and the entry count. -/
structure ParsedTable where
  ct : CodeTable
  rest : List Byte
  count : Nat
  deriving DecidableEq, Repr

/-- `parse_table(t, exact)` (R252), with its checks in order. -/
def parseTable (exact : Bool) (t : List Byte) : Except CmdError ParsedTable :=
  if t.length < 2 then raise .missingMetadata .hufTree
  else if littleEndian (t.take 2) > 256 then raise .malformedCodeTable .hufTree
  else
    match parseEntries (littleEndian (t.take 2)) 0 (t.drop 2) with
    | .error e => .error e
    | .ok (es, rest) =>
      if !codesPrefixFree (es.map Prod.snd) then raise .malformedCodeTable .hufTree
      else if exact && !rest.isEmpty then raise .malformedCodeTable .hufTree
      else .ok { ct := tableOf es, rest := rest, count := littleEndian (t.take 2) }

/-- The frequencies of a loaded table: `[0] * 256` (R261, R316). -/
def noFreq : Vector Nat 256 := tabulate (fun _ => 0)

/-! ## Commands -/

/-- BODY_HUF_BUILD (R260). -/
def hufBuildBody : Body := fun _ src =>
  .ok { Result.plain (serialize (buildCodes (freqOf src))) (emptyFlag src) with
        huf := some (buildCodes (freqOf src), freqOf src) }

/-- BODY_HUF_LOAD (R261). -/
def hufLoadBody : Body := fun _ src =>
  match parseTable true src with
  | .error e => .error e
  | .ok p => .ok { Result.plain [] (p.count == 0) with huf := some (p.ct, noFreq) }

/-- HUF_BUILD (R260). -/
def execHufBuild (s : State) : Host.Outcome State Fault Refusal := runCommand .hufBuild hufBuildBody s

/-- HUF_LOAD (R261). -/
def execHufLoad (s : State) : Host.Outcome State Fault Refusal := runCommand .hufLoad hufLoadBody s

end Sys2Proof.Machine
end

