-- ==== Sys2Proof/Machine/Mtf.lean ====
section
/-! DEFINITION. The MTF recency-list transducer (42_mtf.md). -/

namespace Sys2Proof.Machine

/-- The RecencyList at the start of every MTF operation: `[0, 1, …, 255]` (R201). -/
def recencyInit : List Byte := allBytes

/-- `front(R, j) = [R[j]] ++ R[0..j) ++ R[j+1..256)` (R202). -/
def front (r : List Byte) (j : Nat) : List Byte := r.getD j 0 :: (r.take j ++ r.drop (j + 1))

/-- The encode steps of R203 from the RecencyList `r`. -/
def mtfEncodeFrom (r : List Byte) : List Byte → List Byte
  | [] => []
  | c :: t => BitVec.ofNat 8 (r.idxOf c) :: mtfEncodeFrom (front r (r.idxOf c)) t

/-- The decode steps of R204 from the RecencyList `r`. -/
def mtfDecodeFrom (r : List Byte) : List Byte → List Byte
  | [] => []
  | j :: t => r.getD j.toNat 0 :: mtfDecodeFrom (front r j.toNat) t

/-- MTF encoding from a fresh RecencyList (R205). -/
def mtfEncode (t : List Byte) : List Byte := mtfEncodeFrom recencyInit t

/-- MTF decoding from a fresh RecencyList (R206). -/
def mtfDecode (t : List Byte) : List Byte := mtfDecodeFrom recencyInit t

/-- BODY_MTF_ENC (R205). -/
def mtfEncBody : Body := fun _ src => .ok (Result.plain (mtfEncode src) (emptyFlag src))

/-- BODY_MTF_DEC (R206). -/
def mtfDecBody : Body := fun _ src => .ok (Result.plain (mtfDecode src) (emptyFlag (mtfDecode src)))

/-- MTF_ENC (R205). -/
def execMtfEnc (s : State) : Host.Outcome State Fault Refusal := runCommand .mtfEnc mtfEncBody s

/-- MTF_DEC (R206). -/
def execMtfDec (s : State) : Host.Outcome State Fault Refusal := runCommand .mtfDec mtfDecBody s

end Sys2Proof.Machine
end

