-- ==== Sys2Proof/Machine/Rle.lean ====
section
/-! DEFINITION. The RLE pair encoder/decoder (43_rle.md). -/

namespace Sys2Proof.Machine

/-- The inner loop of `rle_enc` (R221): a run of `c` of length `k` has been read; it goes on while the next byte is
`c` and `k < 255`, and else the pair is emitted, the count byte followed by the value byte (R222). -/
def rleRun (c : Byte) (k : Nat) : List Byte → List Byte
  | [] => [BitVec.ofNat 8 k, c]
  | x :: t => if x = c ∧ k < 255 then rleRun c (k + 1) t else BitVec.ofNat 8 k :: c :: rleRun x 1 t

/-- `rle_enc(t)` (R221). -/
def rleEncode : List Byte → List Byte
  | [] => []
  | c :: t => rleRun c 1 t

/-- The loop of `rle_dec` (R223) with `len` bytes already put out. -/
def rleExpand (seqMax : Nat) (len : Nat) : List Byte → Except CmdError (List Byte)
  | k :: c :: t =>
    if k = 0 then raise .malformedRunList .rle
    else if len + k.toNat > seqMax then raise .lengthLimit .rle
    else
      match rleExpand seqMax (len + k.toNat) t with
      | .error e => .error e
      | .ok out => .ok (List.replicate k.toNat c ++ out)
  | _ => .ok []

/-- `rle_dec(t)` (R223): "The odd-length check comes before any pair is read." -/
def rleDecode (seqMax : Nat) (t : List Byte) : Except CmdError (List Byte) :=
  if t.length % 2 = 1 then raise .malformedRunList .rle else rleExpand seqMax 0 t

/-- BODY_RLE_ENC (R225). -/
def rleEncBody : Body := fun o src =>
  match lim o.seqMax (rleEncode src) .rle with
  | .error e => .error e
  | .ok out => .ok (Result.plain out (emptyFlag src))

/-- BODY_RLE_DEC (R226). -/
def rleDecBody : Body := fun o src =>
  match rleDecode o.seqMax src with
  | .error e => .error e
  | .ok out => .ok (Result.plain out (emptyFlag out))

/-- RLE_ENC (R225). -/
def execRleEnc (s : State) : Host.Outcome State Fault Refusal := runCommand .rleEnc rleEncBody s

/-- RLE_DEC (R226). -/
def execRleDec (s : State) : Host.Outcome State Fault Refusal := runCommand .rleDec rleDecBody s

end Sys2Proof.Machine
end

