-- ==== Sys2Proof/Machine/Orchestrator.lean ====
section
/-! DEFINITION. The orchestration controller's two pipelines (46_orchestrator.md) and the stage sequences of R318. -/

namespace Sys2Proof.Machine

/-- BODY_COMPRESS (R311): BWT, MTF, RLE, tree build, packing. `I` and `v` are (0, 0) for empty input. -/
def compressBody : Body := fun o src =>
  let m := mtfEncode (bwtLast src)
  match lim o.seqMax (rleEncode m) .rle with
  | .error e => .error e
  | .ok r =>
    let f := freqOf r
    let ct := buildCodes f
    let w := hufEncode ct r
    match lim o.seqMax (pack w) .hufBits with
    | .error e => .error e
    | .ok pay =>
      .ok { out := serialize ct ++ pay, rot := some (bwtRot src), bits := some w.length, huf := some (ct, f),
            empty := emptyFlag src }

/-- BODY_DECOMPRESS (R316): table, unpacking, RLE, MTF, BWT. -/
def decompressBody : Body := fun o src =>
  match parseTable false src with
  | .error e => .error e
  | .ok p =>
    match hufDecode p.ct o.seqMax o.payloadBits.toNat p.rest with
    | .error e => .error e
    | .ok r =>
      match rleDecode o.seqMax r with
      | .error e => .error e
      | .ok m =>
        match bwtDecode o.rotIdx o.rotValid (mtfDecode m) with
        | .error e => .error e
        | .ok t => .ok { Result.plain t (emptyFlag t) with huf := some (p.ct, noFreq) }

/-- COMPRESS (R311). -/
def execCompress (s : State) : Host.Outcome State Fault Refusal := runCommand .compress compressBody s

/-- DECOMPRESS (R316). -/
def execDecompress (s : State) : Host.Outcome State Fault Refusal := runCommand .decompress decompressBody s

/-- The stage sequence of each command (R318). -/
def stagesOf : Instr → List Stage
  | .nop => [.ctrl]
  | .bwtEnc => [.ctrl, .bwt, .ctrl]
  | .bwtDec => [.ctrl, .bwt, .ctrl]
  | .mtfEnc => [.ctrl, .mtf, .ctrl]
  | .mtfDec => [.ctrl, .mtf, .ctrl]
  | .rleEnc => [.ctrl, .rle, .ctrl]
  | .rleDec => [.ctrl, .rle, .ctrl]
  | .hufBuild => [.ctrl, .hufTree, .ctrl]
  | .hufLoad => [.ctrl, .hufTree, .ctrl]
  | .hufEnc => [.ctrl, .hufBits, .ctrl]
  | .hufDec => [.ctrl, .hufBits, .ctrl]
  | .compress => [.ctrl, .bwt, .mtf, .rle, .hufTree, .hufBits, .ctrl]
  | .decompress => [.ctrl, .hufTree, .hufBits, .rle, .mtf, .bwt, .ctrl]

end Sys2Proof.Machine
end

