-- ==== Sys2Proof/Machine/Window.lean ====
section
/-! DEFINITION. The register window (10_state.md R31 to R56) and the host's two ports (20_memory.md R82 to R84). -/

namespace Sys2Proof.Machine

/-- The named registers of the window (R31). -/
inductive Reg where
  | id
  | capMem
  | capSeq
  | ctrl
  | status
  | cmd
  | srcAddr
  | srcLen
  | dstAddr
  | dstCap
  | dstLen
  | rotIdx
  | rotMeta
  | payloadBits
  | freq (b : Byte)
  | codeLen (b : Byte)
  deriving DecidableEq, Repr

/-- The window offset of a register (R31). -/
def Reg.offset : Reg → Nat
  | .id => 0x000
  | .capMem => 0x004
  | .capSeq => 0x008
  | .ctrl => 0x010
  | .status => 0x014
  | .cmd => 0x018
  | .srcAddr => 0x020
  | .srcLen => 0x024
  | .dstAddr => 0x028
  | .dstCap => 0x02C
  | .dstLen => 0x030
  | .rotIdx => 0x034
  | .rotMeta => 0x038
  | .payloadBits => 0x03C
  | .freq b => 0x400 + 4 * b.toNat
  | .codeLen b => 0x800 + 4 * b.toNat

/-- The registers below the two arrays, in the order of R31. -/
def scalarRegs : List Reg :=
  [.id, .capMem, .capSeq, .ctrl, .status, .cmd, .srcAddr, .srcLen, .dstAddr, .dstCap, .dstLen, .rotIdx, .rotMeta,
   .payloadBits]

/-- The register at an aligned window offset; none at a reserved offset (R31, R56). -/
def regAt (off : Nat) : Option Reg :=
  if 0x400 ≤ off ∧ off < 0x800 then some (.freq (BitVec.ofNat 8 ((off - 0x400) / 4)))
  else if 0x800 ≤ off ∧ off < 0xC00 then some (.codeLen (BitVec.ofNat 8 ((off - 0x800) / 4)))
  else scalarRegs.find? (fun r => r.offset == off)

/-- The value of ID (R32). -/
def idValue : Word := 0x4D4C4331

/-- The value a read of a register returns (R32 to R55). START and SOFT_RESET read 0 (R35). -/
def readReg (r : Reg) (s : State) : Word :=
  match r with
  | .id => idValue
  | .capMem => BitVec.ofNat 32 s.cfg.memBytes
  | .capSeq => BitVec.ofNat 32 s.cfg.seqMax
  | .ctrl => if s.irqEn then 4 else 0
  | .status => statusWord s
  | .cmd => s.cmd
  | .srcAddr => s.srcAddr
  | .srcLen => s.srcLen
  | .dstAddr => s.dstAddr
  | .dstCap => s.dstCap
  | .dstLen => s.dstLen
  | .rotIdx => s.rotIdx
  | .rotMeta => if s.rotValid then 1 else 0
  | .payloadBits => s.payloadBits
  | .freq b => entry s.freq b
  | .codeLen b => (BitVec.ofNat 8 (entry s.ct b).length).setWidth 32

/-- A write to CTRL while IDLE (R35): SOFT_RESET wins; otherwise bit 2 goes into IRQ_EN and then bit 0 starts the
command in CMD. -/
def writeCtrl (v : Word) (s : State) : State :=
  if v.getLsbD 1 then softReset s
  else if v.getLsbD 0 then startCommand { s with irqEn := v.getLsbD 2 }
  else { s with irqEn := v.getLsbD 2 }

/-- A write to STATUS while IDLE (R36): bit 1 clears DONE (the return of R352), bit 5 clears WBUSY. -/
def writeStatus (v : Word) (s : State) : State :=
  let t := if v.getLsbD 1 then acknowledge s else s
  if v.getLsbD 5 then { t with wbusy := false } else t

/-- A write to a register while IDLE (R157): stored in every RW register or field, ignored by the read-only ones
(R56). -/
def writeReg (r : Reg) (v : Word) (s : State) : State :=
  match r with
  | .id => s
  | .capMem => s
  | .capSeq => s
  | .ctrl => writeCtrl v s
  | .status => writeStatus v s
  | .cmd => { s with cmd := v }
  | .srcAddr => { s with srcAddr := v }
  | .srcLen => { s with srcLen := v }
  | .dstAddr => { s with dstAddr := v }
  | .dstCap => { s with dstCap := v }
  | .dstLen => s
  | .rotIdx => { s with rotIdx := v }
  | .rotMeta => { s with rotValid := v.getLsbD 0 }
  | .payloadBits => { s with payloadBits := v }
  | .freq _ => s
  | .codeLen _ => s

/-- The value at an aligned window offset: a reserved one reads 0 (R56). -/
def readOffset (off : Nat) (s : State) : Word :=
  match regAt off with
  | some r => readReg r s
  | none => 0

/-- A write at an aligned window offset while IDLE: a reserved one ignores it (R56). -/
def writeOffset (off : Nat) (v : Word) (s : State) : State :=
  match regAt off with
  | some r => writeReg r v s
  | none => s

/-- The window "takes only 4-byte accesses at offsets that are multiples of 4 and below 4096" (R84). -/
def regAccessOk (width off : Nat) : Bool := width == 4 && off % 4 == 0 && decide (off < 4096)

/-- The data port takes 1, 2 or 4 bytes, naturally aligned, inside the memory (R82). -/
def dataAccessOk (cfg : Config) (width addr : Nat) : Bool :=
  (width == 1 || width == 2 || width == 4) && addr % width == 0 && decide (addr + width ≤ cfg.memBytes)

/-- A host register write: a bus error (R84), lost while BUSY with only WBUSY set (R42, R381), or the write. -/
def regWritePort (width off : Nat) (v : Word) (s : State) : Except Fault State :=
  if !regAccessOk width off then .error .busError
  else if busy s then .ok { s with wbusy := true }
  else .ok (writeOffset off v s)

/-- A host register read: a bus error or the value. "A register read has no side effect" (R84). -/
def regReadPort (width off : Nat) (s : State) : Except Fault Word :=
  if !regAccessOk width off then .error .busError else .ok (readOffset off s)

/-- A host data-port write, little-endian (R82, R83, R85). -/
def dataWritePort (width addr : Nat) (v : Word) (s : State) : Except Fault State :=
  if !dataAccessOk s.cfg width addr then .error .busError
  else .ok { s with dm := s.dm.writeBytes addr (bytesOf width v.toNat) }

/-- A host data-port read, little-endian (R82, R83, R85). -/
def dataReadPort (width addr : Nat) (s : State) : Except Fault Word :=
  if !dataAccessOk s.cfg width addr then .error .busError
  else .ok (BitVec.ofNat 32 (littleEndian (s.dm.readBytes addr width)))

end Sys2Proof.Machine
end

