-- ==== Sys2Proof/Machine/Agents.lean ====
section
/-! DEFINITION. The two agents of 10_state.md R30: the engine, whose one step is completing the command in progress
(40_command_common.md R142), and the host, whose pending accesses are performed one at a time in order (20_memory.md
R92). -/

namespace Sys2Proof.Machine

/-! ## The engine -/

/-- Completion (R142): decode CMD and run the command; an illegal word fails before it reads any memory (R147). -/
def complete (s : State) : Host.Outcome State Fault Refusal :=
  match decode s.cmd with
  | .ok i => exec i s
  | .error _ => completeIllegal s

/-- The events that are not performed while BUSY: a data-port access is held (R380), and a wait for IRQ waits. -/
def held : HostEvent → Bool
  | .memWrite _ _ _ => true
  | .memRead _ _ => true
  | .waitIrq => true
  | .regWrite _ _ _ => false
  | .regRead _ _ => false
  | .waitIdle => false
  | .hardReset => false

/-- Whether, while BUSY, the completion comes before the host's next event: always when that event is held or there is
none, and else when the free number of events it lets go by (U5, drawn at START) has gone by. -/
def completesNow (s : State) : Bool :=
  match s.host with
  | [] => true
  | e :: _ => s.delay == 0 || held e

/-! ## The host -/

/-- The pending event has been served with answer `r`. -/
def answered (r : Response) (s : State) : State := { s with resp := r, host := s.host.tail }

/-- A host access that the block takes answers `ok`; one that faults gets a bus error and "changes no state of the
block" (R83, R345). -/
def answerWrite (result : Except Fault State) (s : State) : State :=
  match result with
  | .ok t => answered .ok t
  | .error .busError => answered .busError s

/-- A host read answers its data or a bus error (R83: "a read that gets a bus error returns no data"). -/
def answerRead (result : Except Fault Word) (s : State) : State :=
  match result with
  | .ok v => answered (.data v) s
  | .error .busError => answered .busError s

/-- `WAIT` (R116): one read of STATUS; the wait goes on while BUSY reads 1. -/
def pollStatus (s : State) : State :=
  if busy s then { s with resp := .data (statusWord s) } else answered (.data (statusWord s)) s

/-- The wait for IRQ of `RUNI` (R117): no access, and no effect on the block. -/
def pollIrq (s : State) : State := if irq s then { s with host := s.host.tail } else s

/-- One host event. With none pending nothing happens: the block is idle (R359). -/
def hostStep (s : State) : State :=
  match s.host with
  | [] => s
  | .regWrite width off v :: _ => answerWrite (regWritePort width off v s) s
  | .regRead width off :: _ => answerRead (regReadPort width off s) s
  | .memWrite width addr v :: _ => answerWrite (dataWritePort width addr v s) s
  | .memRead width addr :: _ => answerRead (dataReadPort width addr s) s
  | .waitIdle :: _ => pollStatus s
  | .waitIrq :: _ => pollIrq s
  | .hardReset :: rest => { hardReset s with host := rest }

/-- One host event gone by while the command runs. -/
def countDown (s : State) : State := { s with delay := s.delay - 1 }

/-- CMD holding `w` and the controller BUSY with its completion next: what a host's write of CMD and of CTRL.START
brings about (R141), set at once. -/
def launched (w : Word) (s : State) : State := { s with cmd := w, ctl := .busy, stage := .ctrl, delay := 0 }

end Sys2Proof.Machine
end

