-- ==== Sys2Proof/Machine/Step.lean ====
section
/-! DEFINITION. One step of the machine: an engine completion or one host event. -/

namespace Sys2Proof.Machine

/-- One step. While IDLE the host's next event is performed. While BUSY either the command completes or, when the
free latency lets it, the host's next event goes first (40_command_common.md R142, 70_reset_and_hazards.md R380, R390;
log entry 3). The outcome is always a next state: no command of the engine and no host access stops the machine. -/
def step (s : State) : Host.Outcome State Fault Refusal :=
  match s.ctl with
  | .idle => .next (hostStep s)
  | .busy => if completesNow s then complete s else .next (hostStep (countDown s))

/-- The state in which the very next step runs the command word `w`: the block fetches no instruction from memory
(20_memory.md R97), the command word is the CMD register, and it runs once the controller is BUSY (log entry 5). -/
def State.withFetchWord (s : State) (_nbits w : Nat) : State := launched (BitVec.ofNat 32 w) s

end Sys2Proof.Machine
end

