-- ==== Sys2Proof/Machine/Script.lean ====
section
/-! DEFINITION. The host-script notation of 30_encoding.md R116 and R117: the primitive lines and the
pseudo-instructions, as the host events they stand for. -/

namespace Sys2Proof.Machine.Script

/-- `WR REG, v` (R116). -/
def wr (r : Reg) (v : Word) : HostEvent := .regWrite 4 r.offset v

/-- `RD REG` (R116). -/
def rd (r : Reg) : HostEvent := .regRead 4 r.offset

/-- `MWR8 a, v` (R116). -/
def mwr8 (a : Nat) (v : Word) : HostEvent := .memWrite 1 a v

/-- `MWR16 a, v` (R116). -/
def mwr16 (a : Nat) (v : Word) : HostEvent := .memWrite 2 a v

/-- `MWR32 a, v` (R116). -/
def mwr32 (a : Nat) (v : Word) : HostEvent := .memWrite 4 a v

/-- `MRD8 a` (R116). -/
def mrd8 (a : Nat) : HostEvent := .memRead 1 a

/-- `MRD16 a` (R116). -/
def mrd16 (a : Nat) : HostEvent := .memRead 2 a

/-- `MRD32 a` (R116). -/
def mrd32 (a : Nat) : HostEvent := .memRead 4 a

/-- `WAIT` (R116). -/
def wait : HostEvent := .waitIdle

/-- `MBYTES a, b0 b1 … bk` (R117). -/
def mbytes (a : Nat) : List Byte → List HostEvent
  | [] => []
  | b :: bs => mwr8 a (b.setWidth 32) :: mbytes (a + 1) bs

/-- `SETSRC a, n` (R117). -/
def setSrc (a n : Word) : List HostEvent := [wr .srcAddr a, wr .srcLen n]

/-- `SETDST a, c` (R117). -/
def setDst (a c : Word) : List HostEvent := [wr .dstAddr a, wr .dstCap c]

/-- `SETROT i, v` (R117). -/
def setRot (i v : Word) : List HostEvent := [wr .rotIdx i, wr .rotMeta v]

/-- `RUN MNEMONIC` (R117). -/
def run (i : Instr) : List HostEvent := [wr .cmd (encode i), wr .ctrl 0x1, wait]

/-- `RUNI MNEMONIC` (R117): START with IRQ_EN = 1, then the wait for IRQ. -/
def runi (i : Instr) : List HostEvent := [wr .cmd (encode i), wr .ctrl 0x5, .waitIrq]

/-- `CLRDONE` (R117). -/
def clrDone : List HostEvent := [wr .status 0x2]

/-- `SRESET` (R117). -/
def sreset : List HostEvent := [wr .ctrl 0x2]

end Sys2Proof.Machine.Script
end

