-- ==== Sys2Proof/Safety.lean ====
section
/-! DEFINITION. What a sound state is: the relations between the fields of State that the spec states, and that every
step keeps. -/

namespace Sys2Proof.Machine

/-- A code table by R59: "the non-empty strings form a prefix-free set, and no byte has a string longer than 255
bits". -/
def TableOk (ct : CodeTable) : Prop :=
  (∀ b, (entry ct b).length ≤ 255) ∧
  ∀ b b', b ≠ b' → entry ct b ≠ [] → ¬ entry ct b <+: entry ct b'

/-- Every listed cell lies in the data memory (R80: addresses 0 to MEM_BYTES-1). -/
def MemoryBounded (cfg : Config) (m : Memory) : Prop := ∀ c ∈ m, c.1 < cfg.memBytes

/-- The sound states. -/
structure Invariant (s : State) : Prop where
  /-- The parameters are in range (R10, R11). -/
  cfgOk : s.cfg.wf = true
  /-- The data memory is in canonical form. -/
  memWf : Memory.wf s.dm = true
  /-- The data memory lists no address that does not exist (R80). -/
  memBounded : MemoryBounded s.cfg s.dm
  /-- The installed table is prefix-free with codes of at most 255 bits (R59). -/
  tableOk : TableOk s.ct
  /-- With no table installed every code is empty and every frequency is 0 (R41, R59, R64). -/
  noTable : s.ctValid = false → ∀ b, entry s.ct b = [] ∧ entry s.freq b = 0
  /-- While a command runs the record that START cleared stays clear, and the stage pointer is where START put it
  (R141). -/
  busyClear : s.ctl = .busy →
    s.done = false ∧ s.errKind = .none ∧ s.errStage = .none ∧ s.empty = false ∧ s.stage = .ctrl
  /-- An error record has both parts or neither: code 0 is "success" in both fields (R341, R342, R43, R44). -/
  recordPair : s.errKind = .none ↔ s.errStage = .none
  /-- EMPTY is reported by a successful command only (R40). -/
  emptyOnSuccess : s.empty = true → s.errKind = .none
  /-- The stage pointer at a raise is what ERR_STAGE reports (R58). -/
  stageReported : s.ctl = .idle → s.errKind ≠ .none → s.stage = s.errStage
  /-- No command wrote more bytes than the data memory has (R49, R86). -/
  dstLenOk : s.dstLen.toNat ≤ s.cfg.memBytes

/-- A safe step: the machine goes on and the next state is sound. -/
def SafeStep (s : State) : Prop := ∃ t, step s = .next t ∧ Invariant t

end Sys2Proof.Machine
end

