-- ==== Sys2Proof/Certificates/Slice0/Obligations.lean ====
section
/-! DEFINITION. The statements for the provers, and before them the spec's own objects they are written with: relations
and functions that follow the spec's rules and not the model's code. -/

namespace Sys2Proof.Spec

open Sys2Proof.Machine

/-! ## Memory regions, outcomes -/

/-- `MemRead(a, n)`: `[DM[a], ..., DM[a+n-1]]` (R15). -/
def bytesAt (m : Memory) (a n : Nat) : List Byte := (List.range n).map (fun k => m.read (a + k))

/-- The source sequence `MemRead(x[SRC_ADDR], x[SRC_LEN])` (R47, R111). -/
def src (s : State) : List Byte := bytesAt s.dm s.srcAddr.toNat s.srcLen.toNat

/-- The parameters are in range and the data memory is in canonical form: part of `Invariant`. -/
abbrev Sound (s : State) : Prop := s.cfg.wf = true ∧ Memory.wf s.dm = true

/-- The source region is in bounds (R87, R148). -/
abbrev SrcFits (s : State) : Prop := s.srcAddr.toNat + s.srcLen.toNat ≤ s.cfg.memBytes

/-- The destination region is in bounds (R87, R148). -/
abbrev DstFits (s : State) : Prop := s.dstAddr.toNat + s.dstCap.toNat ≤ s.cfg.memBytes

/-- The source length is within SEQ_MAX (R149). -/
abbrev SrcShort (s : State) : Prop := s.srcLen.toNat ≤ s.cfg.seqMax

/-- The frame's checks before the body all pass (R145, steps 2 to 4). -/
abbrev Ready (s : State) : Prop := SrcFits s ∧ DstFits s ∧ SrcShort s

/-- The state a failed command leaves (R154): the error record, EMPTY cleared, DONE set, the controller IDLE with its
stage pointer at the failing stage (R58), and nothing else changed (R152). -/
def aborted (kind : ErrKind) (stage : Stage) (s : State) : State :=
  { s with errKind := kind, errStage := stage, empty := false, done := true, ctl := .idle, stage := stage }

/-- The STATUS record and the controller after a successful command (R153). -/
structure Succeeded (t : State) (empty : Bool) : Prop where
  kind : t.errKind = .none
  stage : t.errStage = .none
  empty : t.empty = empty
  done : t.done = true
  ctl : t.ctl = .idle
  pointer : t.stage = .ctrl

/-- `out` was written at DST_ADDR, DST_LEN is its length (as the host reads it in the window, R31), and every other
byte reads as before (R86, R153). -/
structure Wrote (s t : State) (out : List Byte) : Prop where
  dstLen : t.dstLen.toNat = out.length
  window : (readOffset 0x030 t).toNat = out.length
  bytes : bytesAt t.dm s.dstAddr.toNat out.length = out
  others : ∀ a, a < s.dstAddr.toNat ∨ s.dstAddr.toNat + out.length ≤ a → t.dm.read a = s.dm.read a

/-- What a command with output `out` does at the end (R151, R153): CAPACITY when DST_CAP is too small, and else the
commit, with `more` saying what else it writes. -/
def Delivers (i : Instr) (s : State) (out : List Byte) (empty : Bool) (more : State → Prop) : Prop :=
  (s.dstCap.toNat < out.length → exec i s = .next (aborted .capacity .ctrl s)) ∧
  (out.length ≤ s.dstCap.toNat → ∃ t, exec i s = .next t ∧ Succeeded t empty ∧ Wrote s t out ∧ more t)

/-- The frame's errors of a command that reads the source and writes the destination, in check order (R145). -/
def FrameErrors (i : Instr) (s : State) : Prop :=
  (¬ SrcFits s → exec i s = .next (aborted .badRegion .ctrl s)) ∧
  (SrcFits s → ¬ DstFits s → exec i s = .next (aborted .badRegion .ctrl s)) ∧
  (SrcFits s → DstFits s → ¬ SrcShort s → exec i s = .next (aborted .lengthLimit .ctrl s))

/-! ## BWT (41_bwt.md) -/

/-- The strict order of the rotations of R172, with its tie-break. -/
def CycLess (t : List Byte) (i j : Nat) : Prop :=
  (∃ k < t.length, (∀ k' < k, t.getD ((i + k') % t.length) 0 = t.getD ((j + k') % t.length) 0) ∧
      (t.getD ((i + k) % t.length) 0).toNat < (t.getD ((j + k) % t.length) 0).toNat) ∨
  ((∀ k < t.length, t.getD ((i + k) % t.length) 0 = t.getD ((j + k) % t.length) 0) ∧ i < j)

/-- `sa` is the sorted order of R173. -/
def SortedOrder (t : List Byte) (sa : List Nat) : Prop :=
  sa.Perm (List.range t.length) ∧ sa.Pairwise (CycLess t)

/-- `(l, i, v)` is the forward transform of `t`: R174 for a non-empty block, and `([], 0, 0)` for the empty one
(R180, R311). -/
inductive Forward (t : List Byte) : List Byte → Nat → Bool → Prop
  | empty : t = [] → Forward t [] 0 false
  | block (sa : List Nat) : t ≠ [] → SortedOrder t sa →
      Forward t (sa.map (fun k => t.getD ((k + t.length - 1) % t.length) 0)) (sa.idxOf 0) true

/-- `C[c]` of R176. -/
def smaller (l : List Byte) (c : Byte) : Nat :=
  (List.range l.length).countP (fun q => decide ((l.getD q 0).toNat < c.toNat))

/-- `Occ(p)` of R176. -/
def occ (l : List Byte) (p : Nat) : Nat := (List.range (p + 1)).countP (fun q => decide (l.getD q 0 = l.getD p 0))

/-- `LF(p)` of R176. -/
def lf (l : List Byte) (p : Nat) : Nat := smaller l (l.getD p 0) + occ l p - 1

/-- `out` is what the walk of R177 over `l` from `i` gives. -/
def Walk (l : List Byte) (i : Nat) (out : List Byte) : Prop :=
  out.length = l.length ∧ ∃ p : Nat → Nat, p 0 = i ∧ (∀ k < l.length, p (k + 1) = lf l (p k)) ∧
    ∀ k < l.length, out.getD (l.length - 1 - k) 0 = l.getD (p k) 0

/-- The outcome of the inverse transform (R181): its three errors and its two results. -/
inductive BwtDecodes (i : Nat) (v : Bool) (l : List Byte) : Except CmdError (List Byte) → Prop
  | unused : l = [] → v = true → BwtDecodes i v l (.error ⟨.invalidIndex, .bwt⟩)
  | missing : l ≠ [] → v = false → BwtDecodes i v l (.error ⟨.missingMetadata, .bwt⟩)
  | range : l ≠ [] → v = true → l.length ≤ i → BwtDecodes i v l (.error ⟨.invalidIndex, .bwt⟩)
  | empty : l = [] → v = false → BwtDecodes i v l (.ok [])
  | walk (out : List Byte) : l ≠ [] → v = true → i < l.length → Walk l i out → BwtDecodes i v l (.ok out)

/-! ## MTF (42_mtf.md) -/

/-- The 256 byte values, ascending: the fresh RecencyList (R201). -/
def ascending : List Byte := (List.range 256).map (BitVec.ofNat 8)

/-- The steps of R203 and R204 from a RecencyList: each pair is (byte value, index), the byte stands at the index, and
the step moves it to the front, "shifting intervening entries back by one" (R202). -/
inductive MtfRun : List Byte → List (Byte × Byte) → Prop
  | nil (r : List Byte) : MtfRun r []
  | cons (r : List Byte) (c j : Byte) (rest : List (Byte × Byte)) :
      r[j.toNat]? = some c → MtfRun (c :: r.eraseIdx j.toNat) rest → MtfRun r ((c, j) :: rest)

/-- `idx` is the MTF encoding of `sym`, and `sym` the decoding of `idx`, from a fresh RecencyList. -/
def Mtf (sym idx : List Byte) : Prop := sym.length = idx.length ∧ MtfRun ascending (sym.zip idx)

/-! ## RLE (43_rle.md) -/

/-- Every count is in 1..255 (R221). -/
abbrev CountsOk (ps : List (Nat × Byte)) : Prop := ∀ p ∈ ps, 1 ≤ p.1 ∧ p.1 ≤ 255

/-- The serialised form of R222. -/
def pairBytes (ps : List (Nat × Byte)) : List Byte := ps.flatMap (fun p => [BitVec.ofNat 8 p.1, p.2])

/-- Each pair expanded into `count` repetitions (R223). -/
def expand (ps : List (Nat × Byte)) : List Byte := ps.flatMap (fun p => List.replicate p.1 p.2)

/-- "two adjacent pairs share a byte value only when the first of them has count 255" (R224). -/
def Maximal (ps : List (Nat × Byte)) : Prop := List.IsChain (fun p q => p.2 = q.2 → p.1 = 255) ps

/-- `ps` is the run list of `t` (R221). -/
def Runs (t : List Byte) (ps : List (Nat × Byte)) : Prop := CountsOk ps ∧ Maximal ps ∧ expand ps = t

/-- The outcome of the RLE decoder (R223): "Pairs are checked in order, and the first failing pair decides". -/
inductive RleDecodes (lim : Nat) (t : List Byte) : Except CmdError (List Byte) → Prop
  | odd : t.length % 2 = 1 → RleDecodes lim t (.error ⟨.malformedRunList, .rle⟩)
  | zeroCount (ps : List (Nat × Byte)) (c : Byte) (rest : List Byte) : t.length % 2 = 0 → CountsOk ps →
      t = pairBytes ps ++ 0 :: c :: rest → (expand ps).length ≤ lim →
      RleDecodes lim t (.error ⟨.malformedRunList, .rle⟩)
  | tooLong (ps : List (Nat × Byte)) (k : Nat) (c : Byte) (rest : List Byte) : t.length % 2 = 0 →
      CountsOk (ps ++ [(k, c)]) → t = pairBytes (ps ++ [(k, c)]) ++ rest → (expand ps).length ≤ lim →
      lim < (expand ps).length + k → RleDecodes lim t (.error ⟨.lengthLimit, .rle⟩)
  | done (ps : List (Nat × Byte)) : CountsOk ps → t = pairBytes ps → (expand ps).length ≤ lim →
      RleDecodes lim t (.ok (expand ps))

/-! ## Bit strings (45_huffman_bits.md) -/

/-- Bit `i` of a packed byte sequence, most significant bit of each byte first (R281, R282). -/
def bitAt (p : List Byte) (i : Nat) : Bool := (p.getD (i / 8) 0).getLsbD (7 - i % 8)

/-- The `8·|p|` bits of `p` (R282). -/
def bitsOf (p : List Byte) : BitString := (List.range (8 * p.length)).map (bitAt p)

/-- `pack(w)` (R281): `byte_j[7-i] = w[8j + i]`, 0 past the end. -/
def packed (w : BitString) : List Byte :=
  (List.range ((w.length + 7) / 8)).map (fun j =>
    BitVec.ofNat 8 ((List.range 8).map (fun i => if w.getD (8 * j + i) false then 2 ^ (7 - i) else 0)).sum)

/-- Every byte of `x` has a code (R283). -/
abbrev Coded (ct : CodeTable) (x : List Byte) : Prop := ∀ b ∈ x, entry ct b ≠ []

/-- `encode(x, ct)` (R283). -/
def codeOf (ct : CodeTable) (x : List Byte) : BitString := x.flatMap (fun b => entry ct b)

/-- The outcome of the Huffman decoder on a payload with exact bit count `n` (R286, R287). -/
inductive HufDecodes (ct : CodeTable) (lim n : Nat) (payload : List Byte) : Except CmdError (List Byte) → Prop
  | badLength : payload.length ≠ (n + 7) / 8 →
      HufDecodes ct lim n payload (.error ⟨.malformedBitStream, .hufBits⟩)
  | badPadding (i : Nat) : payload.length = (n + 7) / 8 → n ≤ i → i < 8 * payload.length → bitAt payload i = true →
      HufDecodes ct lim n payload (.error ⟨.malformedBitStream, .hufBits⟩)
  /-- After `x` no code fits what is left: a missing child, or the end inside a code. -/
  | broken (x : List Byte) (rest : BitString) : payload.length = (n + 7) / 8 →
      (∀ i, n ≤ i → i < 8 * payload.length → bitAt payload i = false) → Coded ct x → x.length ≤ lim →
      (bitsOf payload).take n = codeOf ct x ++ rest → rest ≠ [] →
      (∀ b, entry ct b ≠ [] → ¬ entry ct b <+: rest) →
      HufDecodes ct lim n payload (.error ⟨.malformedBitStream, .hufBits⟩)
  | tooLong (x : List Byte) (b : Byte) (rest : BitString) : payload.length = (n + 7) / 8 →
      (∀ i, n ≤ i → i < 8 * payload.length → bitAt payload i = false) → Coded ct (x ++ [b]) → x.length = lim →
      (bitsOf payload).take n = codeOf ct (x ++ [b]) ++ rest →
      HufDecodes ct lim n payload (.error ⟨.lengthLimit, .hufBits⟩)
  | done (x : List Byte) : payload.length = (n + 7) / 8 →
      (∀ i, n ≤ i → i < 8 * payload.length → bitAt payload i = false) → Coded ct x → x.length ≤ lim →
      (bitsOf payload).take n = codeOf ct x → HufDecodes ct lim n payload (.ok x)

/-! ## The Huffman tree and the code table (44_huffman_tree.md) -/

/-- `(weight, key)` compared lexicographically (R243). -/
def NodeBefore (x y : PoolNode) : Prop := x.weight < y.weight ∨ (x.weight = y.weight ∧ x.key < y.key)

/-- The leaves of R242: one for each byte value with a non-zero count, its index as its key. -/
def leaves (f : Byte → Nat) : List PoolNode :=
  (ascending.filter (fun b => decide (f b > 0))).map (fun b => { weight := f b, key := b.toNat, tree := .leaf b })

/-- The merges of R243 from a pool (in any order), the next one number `k`, down to the root. -/
inductive Merges : Nat → List PoolNode → HufTree → Prop
  | root (k : Nat) (n : PoolNode) : Merges k [n] n.tree
  | merge (k : Nat) (pool : List PoolNode) (a c : PoolNode) (rest : List PoolNode) (tree : HufTree) :
      pool.Perm (a :: c :: rest) → (∀ x ∈ c :: rest, NodeBefore a x) → (∀ x ∈ rest, NodeBefore c x) →
      Merges (k + 1) ({ weight := a.weight + c.weight, key := 256 + k, tree := .node a.tree c.tree } :: rest) tree →
      Merges k pool tree

/-- `u` is the code of the leaf of `b` in a tree: "0" left, "1" right (R245). -/
inductive CodeIn : HufTree → Byte → BitString → Prop
  | leaf (b : Byte) : CodeIn (.leaf b) b []
  | left (l r : HufTree) (b : Byte) (u : BitString) : CodeIn l b u → CodeIn (.node l r) b (false :: u)
  | right (l r : HufTree) (b : Byte) (u : BitString) : CodeIn r b u → CodeIn (.node l r) b (true :: u)

/-- `ct` is the table built from the frequencies `f` (R248): empty, degenerate (R244), or by merges. -/
inductive Built (f : Byte → Nat) (ct : CodeTable) : Prop
  | empty : leaves f = [] → (∀ b, entry ct b = []) → Built f ct
  | single (n : PoolNode) : leaves f = [n] → (∀ b, entry ct b = if f b > 0 then [false] else []) → Built f ct
  | tree (root : HufTree) : 2 ≤ (leaves f).length → Merges 0 (leaves f) root → (∀ b, f b = 0 → entry ct b = []) →
      (∀ b, f b > 0 → CodeIn root b (entry ct b)) → Built f ct

/-- `E` of R250: the bytes with a code, ascending. -/
def coded (ct : CodeTable) : List Byte := ascending.filter (fun b => entry ct b != [])

/-- `serialize(ct)` (R250). -/
def serial (ct : CodeTable) : List Byte :=
  [BitVec.ofNat 8 ((coded ct).length % 256), BitVec.ofNat 8 ((coded ct).length / 256)] ++
    (coded ct).flatMap (fun b => b :: BitVec.ofNat 8 (entry ct b).length :: packed (entry ct b))

/-- The outcome of `parse_table(t, exact)` (R252) with the bytes after the table: "every table has one accepted form"
(D20), so a source parses exactly when it begins with the serialisation of a table of R59. -/
inductive Parses (exact : Bool) (t : List Byte) : Except CmdError (CodeTable × List Byte) → Prop
  | short : t.length < 2 → Parses exact t (.error ⟨.missingMetadata, .hufTree⟩)
  | bad : 2 ≤ t.length →
      (∀ ct rest, TableOk ct → t = serial ct ++ rest → ¬ (exact = true → rest = [])) →
      Parses exact t (.error ⟨.malformedCodeTable, .hufTree⟩)
  | table (ct : CodeTable) (rest : List Byte) : TableOk ct → t = serial ct ++ rest → (exact = true → rest = []) →
      Parses exact t (.ok (ct, rest))

/-- `ct` is installed with the frequencies `f` (R153, R254), and the host reads the frequencies and the code lengths in
the two arrays of the window (R31, R54, R55). -/
def Installed (t : State) (ct : CodeTable) (f : Byte → Nat) : Prop :=
  t.ct = ct ∧ t.ctValid = true ∧ (∀ b, (entry t.freq b).toNat = f b) ∧
    (∀ b : Byte, (readOffset (0x400 + 4 * b.toNat) t).toNat = f b) ∧
    ∀ b : Byte, (readOffset (0x800 + 4 * b.toNat) t).toNat = (entry ct b).length

end Sys2Proof.Spec

namespace Sys2Proof.Spec

open Sys2Proof.Machine

/-- The next host event is a data-port access (R380: held while BUSY). -/
def DataPortPending (s : State) : Prop :=
  (∃ w a v rest, s.host = .memWrite w a v :: rest) ∨ ∃ w a rest, s.host = .memRead w a :: rest

/-- The completion is the next step: nothing is pending, a held access or a wait for IRQ is, or the free latency is
over. -/
def EngineFirst (s : State) : Prop :=
  s.host = [] ∨ DataPortPending s ∨ (∃ rest, s.host = .waitIrq :: rest) ∨ s.delay = 0

/-- The state after a register write that only the host's side sees: answered, the event gone. -/
def acked (s : State) : State := { s with resp := .ok, host := s.host.tail }

/-- The window offsets of the read/write registers that hold all 32 bits (R31). -/
def plainRw : List Nat := [0x018, 0x020, 0x024, 0x028, 0x02C, 0x034, 0x03C]

/-- The window offsets at which a write is ignored: the read-only registers and the reserved offsets (R31, R56). -/
def Ignored (off : Nat) : Prop :=
  off = 0x000 ∨ off = 0x004 ∨ off = 0x008 ∨ off = 0x00C ∨ off = 0x01C ∨ off = 0x030 ∨ 0x040 ≤ off

/-- The reserved window offsets (R31). -/
def Reserved (off : Nat) : Prop :=
  off = 0x00C ∨ off = 0x01C ∨ (0x040 ≤ off ∧ off ≤ 0x3FC) ∨ 0xC00 ≤ off

/-- The register map of R31, offset by offset, for what a read returns: the constants (R32 to R34), the stored registers
(R45 to R53), the two arrays (R54, R55: the length of a code, of at most 255 bits, in bits 7:0) and the reserved offsets
(R56). CTRL and STATUS have statements of their own. -/
structure WindowReads (s : State) : Prop where
  id : readOffset 0x000 s = 0x4D4C4331
  capMem : s.cfg.wf = true → (readOffset 0x004 s).toNat = s.cfg.memBytes
  capSeq : s.cfg.wf = true → (readOffset 0x008 s).toNat = s.cfg.seqMax
  cmd : readOffset 0x018 s = s.cmd
  srcAddr : readOffset 0x020 s = s.srcAddr
  srcLen : readOffset 0x024 s = s.srcLen
  dstAddr : readOffset 0x028 s = s.dstAddr
  dstCap : readOffset 0x02C s = s.dstCap
  dstLen : readOffset 0x030 s = s.dstLen
  rotIdx : readOffset 0x034 s = s.rotIdx
  rotMeta : readOffset 0x038 s = if s.rotValid then 1 else 0
  payloadBits : readOffset 0x03C s = s.payloadBits
  freq : ∀ b : Byte, readOffset (0x400 + 4 * b.toNat) s = entry s.freq b
  codeLen : ∀ b : Byte, (entry s.ct b).length ≤ 255 →
    (readOffset (0x800 + 4 * b.toNat) s).toNat = (entry s.ct b).length
  codeLenHigh : ∀ b : Byte, (readOffset (0x800 + 4 * b.toNat) s).extractLsb' 8 24 = 0
  reserved : ∀ off, Reserved off → readOffset off s = 0

/-- Everything of a state but its data memory and what is the model's own stands at its reset value (R64). -/
def RegistersReset (t : State) : Prop :=
  t.irqEn = false ∧ t.done = false ∧ t.empty = false ∧ t.ctValid = false ∧ t.wbusy = false ∧
  t.errKind = .none ∧ t.errStage = .none ∧
  t.cmd = 0 ∧ t.srcAddr = 0 ∧ t.srcLen = 0 ∧ t.dstAddr = 0 ∧ t.dstCap = 0 ∧ t.dstLen = 0 ∧
  t.rotIdx = 0 ∧ t.rotValid = false ∧ t.payloadBits = 0 ∧
  (∀ b, entry t.freq b = 0) ∧ (∀ b, entry t.ct b = []) ∧ t.ctl = .idle ∧ t.stage = .none

/-- The errors each command can report, by R341 and the Errors clauses of the instruction rules. -/
def errorsOf : Instr → List (ErrKind × Stage)
  | .nop => []
  | .bwtEnc => [(.badRegion, .ctrl), (.lengthLimit, .ctrl), (.capacity, .ctrl)]
  | .bwtDec => [(.badRegion, .ctrl), (.lengthLimit, .ctrl), (.invalidIndex, .bwt), (.missingMetadata, .bwt),
      (.capacity, .ctrl)]
  | .mtfEnc => [(.badRegion, .ctrl), (.lengthLimit, .ctrl), (.capacity, .ctrl)]
  | .mtfDec => [(.badRegion, .ctrl), (.lengthLimit, .ctrl), (.capacity, .ctrl)]
  | .rleEnc => [(.badRegion, .ctrl), (.lengthLimit, .ctrl), (.lengthLimit, .rle), (.capacity, .ctrl)]
  | .rleDec => [(.badRegion, .ctrl), (.lengthLimit, .ctrl), (.malformedRunList, .rle), (.lengthLimit, .rle),
      (.capacity, .ctrl)]
  | .hufBuild => [(.badRegion, .ctrl), (.lengthLimit, .ctrl), (.capacity, .ctrl)]
  | .hufLoad => [(.badRegion, .ctrl), (.lengthLimit, .ctrl), (.missingMetadata, .hufTree),
      (.malformedCodeTable, .hufTree)]
  | .hufEnc => [(.badRegion, .ctrl), (.lengthLimit, .ctrl), (.missingMetadata, .hufBits),
      (.symbolNotInTable, .hufBits), (.lengthLimit, .hufBits), (.capacity, .ctrl)]
  | .hufDec => [(.badRegion, .ctrl), (.lengthLimit, .ctrl), (.missingMetadata, .hufBits),
      (.malformedBitStream, .hufBits), (.lengthLimit, .hufBits), (.capacity, .ctrl)]
  | .compress => [(.badRegion, .ctrl), (.lengthLimit, .ctrl), (.lengthLimit, .rle), (.lengthLimit, .hufBits),
      (.capacity, .ctrl)]
  | .decompress => [(.badRegion, .ctrl), (.lengthLimit, .ctrl), (.missingMetadata, .hufTree),
      (.malformedCodeTable, .hufTree), (.malformedBitStream, .hufBits), (.lengthLimit, .hufBits),
      (.malformedRunList, .rle), (.lengthLimit, .rle), (.invalidIndex, .bwt), (.missingMetadata, .bwt),
      (.capacity, .ctrl)]

end Sys2Proof.Spec

open Sys2Proof Sys2Proof.Machine Sys2Proof.Spec

/-! ## Encoding -/

/-- R114: decoding is total; the words 0x00 to 0x0C are the commands, each with exactly one encoding, and every other
word of the 2^32 is illegal. -/
def Obligations.DecodeAcceptsExactlyTheThirteenWords : Prop :=
  ∀ w : Word,
    (w.toNat ≤ 0x0C → ∃ i, decode w = .ok i ∧ encode i = w) ∧
    (0x0C < w.toNat → ∃ x, decode w = .error x) ∧
    ∀ i, decode w = .ok i → w = encode i

/-- Sample words of R112, one of each unit: each decodes to the command the map names. -/
def Obligations.SampleWordsDecode : Prop :=
  decode 0x00000000 = .ok .nop ∧ decode 0x00000002 = .ok .bwtDec ∧ decode 0x00000003 = .ok .mtfEnc ∧
  decode 0x00000006 = .ok .rleDec ∧ decode 0x00000008 = .ok .hufLoad ∧ decode 0x00000009 = .ok .hufEnc ∧
  decode 0x0000000B = .ok .compress ∧ decode 0x0000000C = .ok .decompress ∧
  decode 0x0000000D = .error .reservedOpcode ∧ decode 0x0000010B = .error .mbzNotZero

/-! ## The step: the engine and the host -/

/-- A step runs the decoded command: when the completion is next, a legal word in CMD runs as its command. (When the completion is next
is the model's choice: log entry 3.) -/
def Obligations.StepRunsTheDecodedCommand : Prop :=
  ∀ s i, s.ctl = .busy → EngineFirst s → decode s.cmd = .ok i → step s = exec i s

/-- R147, R113: an illegal command word completes with ERROR(ILLEGAL_COMMAND, CTRL), and nothing else changes. (When the
completion is next is the model's choice: log entry 3.) -/
def Obligations.IllegalWordReportsIllegalCommand : Prop :=
  ∀ s x, s.ctl = .busy → EngineFirst s → decode s.cmd = .error x →
    step s = .next (aborted .illegalCommand .ctrl s)

/-- R380: a data-port access that arrives while BUSY is not performed until completion: the next step is the
completion, and the access is still pending after it, with no answer yet. (That the completion is the very next step
is the model's choice: log entries 3 and 8.) -/
def Obligations.DataPortAccessIsHeldWhileBusy : Prop :=
  ∀ s, s.ctl = .busy → DataPortPending s →
    ∃ t, step s = .next t ∧ t.ctl = .idle ∧ t.done = true ∧ t.host = s.host ∧ t.resp = s.resp

/-- R381: a register write while BUSY is lost, and only WBUSY records it. The write here is one that the free latency
lets go before the completion. (The model's choice: log entry 3.) -/
def Obligations.RegisterWriteWhileBusyIsLost : Prop :=
  ∀ s off v rest, s.ctl = .busy → s.delay ≠ 0 → s.host = .regWrite 4 off v :: rest → off % 4 = 0 → off < 4096 →
    step s = .next { acked s with wbusy := true, delay := s.delay - 1 }

/-- R141: what START does, as one step; and a START while BUSY is ignored and sets WBUSY. The choice of the latency is
the model's free value (log entry 3). -/
def Obligations.StartBeginsTheCommand : Prop :=
  ∀ s v rest, s.host = .regWrite 4 0x010 v :: rest → v.getLsbD 0 = true → v.getLsbD 1 = false →
    (s.ctl = .idle →
      step s = .next { acked s with
        irqEn := v.getLsbD 2, done := false, errKind := .none, errStage := .none, empty := false, ctl := .busy,
        stage := .ctrl, delay := Config.latency s.draws, draws := s.draws + 1 }) ∧
    (s.ctl = .busy → s.delay ≠ 0 → step s = .next { acked s with wbusy := true, delay := s.delay - 1 })

/-- R35: while IDLE a CTRL write without SOFT_RESET and without START stores bit 2 and does nothing else; in every state
CTRL reads IRQ_EN in bit 2 and 0 in every other bit. -/
def Obligations.CtrlWriteStoresIrqEnable : Prop :=
  (∀ s v rest, s.ctl = .idle → s.host = .regWrite 4 0x010 v :: rest → v.getLsbD 0 = false → v.getLsbD 1 = false →
    step s = .next { acked s with irqEn := v.getLsbD 2 }) ∧
  ∀ s k, k < 32 → (readOffset 0x010 s).getLsbD k = (k == 2 && s.irqEn)

/-- R372: the soft reset puts every register, field and internal state item at its reset value in one step, whatever
the other bits of the write, and leaves the data memory unchanged; while BUSY it is ignored and sets WBUSY. (The
interleaving while BUSY is the model's choice: log entry 3.) -/
def Obligations.SoftResetClearsAllButMemory : Prop :=
  ∀ s v rest, s.host = .regWrite 4 0x010 v :: rest → v.getLsbD 1 = true →
    (s.ctl = .idle → ∃ t, step s = .next t ∧ RegistersReset t ∧ t.dm = s.dm ∧ t.cfg = s.cfg ∧ t.host = rest) ∧
    (s.ctl = .busy → s.delay ≠ 0 → step s = .next { acked s with wbusy := true, delay := s.delay - 1 })

/-- R370: the hardware reset. While IDLE the data memory is unchanged; while BUSY the command is abandoned and every
byte outside its destination region is unchanged (the bytes inside are free values). The reset is the host's next event,
and while BUSY one that the free latency lets go before the completion. (The interleaving while BUSY
is the model's choice: log entry 3.) -/
def Obligations.HardwareResetKeepsMemoryOutsideTheDestination : Prop :=
  ∀ s rest, s.host = .hardReset :: rest →
    (s.ctl = .idle → ∃ t, step s = .next t ∧ RegistersReset t ∧ t.dm = s.dm ∧ t.cfg = s.cfg ∧ t.host = rest) ∧
    (s.ctl = .busy → s.delay ≠ 0 → ∃ t, step s = .next t ∧ RegistersReset t ∧ t.cfg = s.cfg ∧ t.host = rest ∧
      ∀ a, a < s.dstAddr.toNat ∨ s.dstAddr.toNat + s.dstCap.toNat ≤ a → t.dm.read a = s.dm.read a)

/-- R64: every register, field and internal state item right after a hardware reset: at power-on for any parameters in
range and any content of the data memory (U1), with what each window offset reads; and from any state. -/
def Obligations.ResetValues : Prop :=
  (∀ cfg dm, cfg.wf = true →
    RegistersReset (State.powerOn cfg dm) ∧ irq (State.powerOn cfg dm) = false ∧
    ∀ off, off % 4 = 0 → off < 4096 →
      (readOffset off (State.powerOn cfg dm)).toNat =
        if off = 0x000 then 0x4D4C4331 else if off = 0x004 then cfg.memBytes else if off = 0x008 then cfg.seqMax else 0) ∧
  ∀ s, RegistersReset (hardReset s) ∧ irq (hardReset s) = false

/-- R36: a STATUS write while IDLE clears DONE by bit 1 and WBUSY by bit 5 and changes nothing else; the error record
stays readable (R352). -/
def Obligations.StatusWriteClearsDoneAndWbusy : Prop :=
  ∀ s v rest, s.ctl = .idle → s.host = .regWrite 4 0x014 v :: rest →
    step s = .next { acked s with done := s.done && !v.getLsbD 1, wbusy := s.wbusy && !v.getLsbD 5 }

/-- The layout of STATUS (R36, R37, R39) and the codes of kinds and stages (R341, R342): what a read returns. -/
def Obligations.StatusReadsItsFields : Prop :=
  ∀ s,
    (readOffset 0x014 s).getLsbD 0 = (s.ctl == .busy) ∧ (readOffset 0x014 s).getLsbD 1 = s.done ∧
    (readOffset 0x014 s).getLsbD 2 = (s.errKind != .none) ∧ (readOffset 0x014 s).getLsbD 3 = s.empty ∧
    (readOffset 0x014 s).getLsbD 4 = s.ctValid ∧ (readOffset 0x014 s).getLsbD 5 = s.wbusy ∧
    ((readOffset 0x014 s).extractLsb' 6 2).toNat = 0 ∧
    ((readOffset 0x014 s).extractLsb' 8 4).toNat = s.errKind.code ∧
    ((readOffset 0x014 s).extractLsb' 12 4).toNat = s.errStage.code ∧
    ((readOffset 0x014 s).extractLsb' 16 16).toNat = 0 ∧
    [ErrKind.none, .invalidIndex, .malformedRunList, .malformedBitStream, .missingMetadata, .malformedCodeTable,
      .symbolNotInTable, .capacity, .badRegion, .illegalCommand, .lengthLimit].map ErrKind.code = List.range 11 ∧
    [Stage.none, .ctrl, .bwt, .mtf, .rle, .hufTree, .hufBits].map Stage.code = List.range 7

/-- R157 and the map of R31: a write to a read/write register is stored and read back whole (META: bit 0 only), every
other register reads as before, the data memory is unchanged and no command starts. -/
def Obligations.RegisterWriteIsStored : Prop :=
  ∀ s off v rest, s.ctl = .idle → s.host = .regWrite 4 off v :: rest → off ∈ plainRw ∨ off = 0x038 →
    ∃ t, step s = .next t ∧ t.host = rest ∧ t.resp = .ok ∧ t.ctl = .idle ∧ t.dm = s.dm ∧ t.ct = s.ct ∧ t.cfg = s.cfg ∧
      readOffset off t = (if off = 0x038 then v &&& 1 else v) ∧
      ∀ off', off' % 4 = 0 → off' < 4096 → off' ≠ off → readOffset off' t = readOffset off' s

/-- R56: a write to a read-only register or a reserved offset is ignored while IDLE, and while BUSY it only sets WBUSY;
in every state a reserved offset reads 0. (The interleaving while BUSY is the model's choice: log entry 3.) -/
def Obligations.ReadOnlyAndReservedIgnoreWrites : Prop :=
  (∀ s off v rest, s.host = .regWrite 4 off v :: rest → off % 4 = 0 → off < 4096 → Ignored off →
    (s.ctl = .idle → step s = .next (acked s)) ∧
    (s.ctl = .busy → s.delay ≠ 0 → step s = .next { acked s with wbusy := true, delay := s.delay - 1 })) ∧
  ∀ s off, Reserved off → readOffset off s = 0

/-- R31, R84: in every state each window offset reads its register; a register read of an admitted offset returns that
value and has no side effect, BUSY or not; any other register access gets a bus error and changes no state of the block.
(The interleaving while BUSY is the model's choice: log entry 3; so is that the host goes on after a bus error: log
entry 7; and that a bad register access while BUSY is answered at once and does not set WBUSY: log entry 8.) -/
def Obligations.RegisterAccessAnswers : Prop :=
  (∀ s, WindowReads s) ∧
  ∀ s w off rest, (s.ctl = .busy → s.delay ≠ 0) →
    (s.host = .regRead w off :: rest →
      (w = 4 ∧ off % 4 = 0 ∧ off < 4096 →
        step s = .next { s with resp := .data (readOffset off s), host := rest,
                                delay := if s.ctl = .busy then s.delay - 1 else s.delay }) ∧
      (¬ (w = 4 ∧ off % 4 = 0 ∧ off < 4096) →
        step s = .next { s with resp := .busError, host := rest,
                                delay := if s.ctl = .busy then s.delay - 1 else s.delay })) ∧
    ∀ v, s.host = .regWrite w off v :: rest → ¬ (w = 4 ∧ off % 4 = 0 ∧ off < 4096) →
      step s = .next { s with resp := .busError, host := rest,
                              delay := if s.ctl = .busy then s.delay - 1 else s.delay }

/-- R116, R117: `WAIT` reads STATUS and goes on reading while BUSY reads 1; the wait for IRQ ends when IRQ is asserted,
by a step that only takes the wait away, and while it is not an idle block stays as it is. Neither changes anything of
the block. (The interleaving while BUSY is the model's choice: log entry 3; so is that a wait for an IRQ that never comes
goes on for good: log entry 6.) -/
def Obligations.HostWaitsForIdleOrIrq : Prop :=
  (∀ s rest, s.host = .waitIdle :: rest →
    (s.ctl = .idle → step s = .next { s with resp := .data (readOffset 0x014 s), host := rest }) ∧
    (s.ctl = .busy → s.delay ≠ 0 →
      step s = .next { s with resp := .data (readOffset 0x014 s), delay := s.delay - 1 })) ∧
  ∀ s rest, s.host = .waitIrq :: rest → s.ctl = .idle →
    (s.irqEn = true → s.done = true → step s = .next { s with host := rest }) ∧
    (s.irqEn = false ∨ s.done = false → step s = .next s)

/-- R82 (reads), R85: a data-port read of 1, 2 or 4 aligned bytes returns them in little-endian order and has no side
effect. -/
def Obligations.DataPortReadIsLittleEndian : Prop :=
  ∀ s w a rest, s.ctl = .idle → s.host = .memRead w a :: rest → w = 1 ∨ w = 2 ∨ w = 4 → a % w = 0 →
    a + w ≤ s.cfg.memBytes →
    ∃ x : Word, step s = .next { s with resp := .data x, host := rest } ∧
      x.toNat = ((List.range w).map (fun k => 2 ^ (8 * k) * (s.dm.read (a + k)).toNat)).sum

/-- R82 (writes), R85: a data-port write changes exactly the `w` bytes it names, the byte at `a + k` getting bits
`8k+7:8k` of the value. -/
def Obligations.DataPortWriteChangesExactlyItsBytes : Prop :=
  ∀ s w a v rest, Memory.wf s.dm = true → s.ctl = .idle → s.host = .memWrite w a v :: rest →
    w = 1 ∨ w = 2 ∨ w = 4 → a % w = 0 → a + w ≤ s.cfg.memBytes →
    ∃ m, step s = .next { acked s with dm := m } ∧ Memory.wf m = true ∧
      (∀ k, k < w → m.read (a + k) = v.extractLsb' (8 * k) 8) ∧
      ∀ b, b < a ∨ a + w ≤ b → m.read b = s.dm.read b

/-- R83: a data-port access of another width, misaligned, or past MEM_BYTES gets a bus error; it changes no state of the
block and returns no data. (That the host goes on is the model's choice: log entry 7.) -/
def Obligations.BadDataPortAccessGetsABusError : Prop :=
  ∀ s w a v rest, s.ctl = .idle → s.host = .memRead w a :: rest ∨ s.host = .memWrite w a v :: rest →
    ¬ ((w = 1 ∨ w = 2 ∨ w = 4) ∧ a % w = 0 ∧ a + w ≤ s.cfg.memBytes) →
    step s = .next { s with resp := .busError, host := rest }

/-- R350: IRQ is IRQ_EN and DONE; after every completion it is asserted exactly when enabled (R351), and START, a write of 1 to
STATUS bit 1, a CTRL write that clears IRQ_EN, the soft reset and the hardware reset each clear it. -/
def Obligations.IrqFollowsDoneAndEnable : Prop :=
  ∀ s, irq s = (s.irqEn && s.done) ∧
    (∀ i, ∃ t, exec i s = .next t ∧ irq t = s.irqEn) ∧
    ∀ v rest t, s.ctl = .idle → step s = .next t →
      (s.host = .regWrite 4 0x014 v :: rest → v.getLsbD 1 = true → irq t = false) ∧
      (s.host = .regWrite 4 0x010 v :: rest →
        v.getLsbD 0 = true ∨ v.getLsbD 1 = true ∨ v.getLsbD 2 = false → irq t = false) ∧
      (s.host = .hardReset :: rest → irq t = false)

/-! ## The frame every command runs in -/

/-- R148: the region checks, in order, with their error, for every command that reads the source (all but NOP) and for
every command that writes the destination (all but NOP and HUF_LOAD); with both in bounds no command reports
BAD_REGION, whether or not the regions overlap. -/
def Obligations.RegionBoundsAreChecked : Prop :=
  ∀ i s, i ≠ .nop →
    (¬ SrcFits s → exec i s = .next (aborted .badRegion .ctrl s)) ∧
    (SrcFits s → ¬ DstFits s → i ≠ .hufLoad → exec i s = .next (aborted .badRegion .ctrl s)) ∧
    (SrcFits s → DstFits s ∨ i = .hufLoad → ∃ t, exec i s = .next t ∧ t.errKind ≠ .badRegion)

/-- R149: a source longer than SEQ_MAX, once the regions are in bounds, fails with LENGTH_LIMIT at CTRL; and when
MEM_BYTES ≤ SEQ_MAX that cannot be. -/
def Obligations.SourceLengthIsChecked : Prop :=
  ∀ i s, i ≠ .nop → SrcFits s → (i = .hufLoad ∨ DstFits s) →
    (¬ SrcShort s → exec i s = .next (aborted .lengthLimit .ctrl s)) ∧
    (s.cfg.memBytes ≤ s.cfg.seqMax → SrcShort s)

/-- R152: all or nothing: a failed command changes the error record, EMPTY, DONE and the controller, and nothing else. -/
def Obligations.FailedCommandChangesOnlyTheRecord : Prop :=
  ∀ i s t, exec i s = .next t → t.errKind ≠ .none → t = aborted t.errKind t.errStage s

/-- R344: errors are precise: run again in the state it left, a failed command fails in the same way and leaves that same
state. -/
def Obligations.RetryGivesTheSameError : Prop :=
  ∀ i s t, exec i s = .next t → t.errKind ≠ .none → exec i t = .next t

/-- R142: every command completes, with DONE set and the controller IDLE. -/
def Obligations.EveryCommandCompletes : Prop :=
  ∀ i s, ∃ t, exec i s = .next t ∧ t.done = true ∧ t.ctl = .idle

/-- R86: a command writes only the first DST_LEN bytes of its destination region, at most DST_CAP (R49); NOP and
HUF_LOAD write no byte. -/
def Obligations.CommandWritesOnlyItsOutput : Prop :=
  ∀ i s t, exec i s = .next t →
    (t.errKind ≠ .none → t.dm = s.dm) ∧
    (i = .nop ∨ i = .hufLoad → t.dm = s.dm) ∧
    (t.errKind = .none → t.dstLen.toNat ≤ s.dstCap.toNat ∨ i = .nop ∨ i = .hufLoad) ∧
    (t.errKind = .none → ∀ a, a < s.dstAddr.toNat ∨ s.dstAddr.toNat + t.dstLen.toNat ≤ a →
      t.dm.read a = s.dm.read a)

/-- R156, R158: the frame of every command: the argument registers, CTRL.IRQ_EN and WBUSY are never written, and each
result register is written only by the commands whose row lists it. -/
def Obligations.CommandWritesOnlyItsResultRegisters : Prop :=
  ∀ i s t, exec i s = .next t →
    (t.cfg = s.cfg ∧ t.irqEn = s.irqEn ∧ t.wbusy = s.wbusy ∧ t.cmd = s.cmd ∧ t.srcAddr = s.srcAddr ∧
      t.srcLen = s.srcLen ∧ t.dstAddr = s.dstAddr ∧ t.dstCap = s.dstCap ∧ t.host = s.host ∧ t.resp = s.resp ∧
      t.delay = s.delay ∧ t.draws = s.draws) ∧
    (i ≠ .bwtEnc → i ≠ .compress → t.rotIdx = s.rotIdx ∧ t.rotValid = s.rotValid) ∧
    (i ≠ .hufEnc → i ≠ .compress → t.payloadBits = s.payloadBits) ∧
    (i ≠ .hufBuild → i ≠ .hufLoad → i ≠ .compress → i ≠ .decompress →
      t.ct = s.ct ∧ t.ctValid = s.ctValid ∧ t.freq = s.freq)

/-- R143: `exec()` is a function of the descriptor, the source bytes, CT with CT_VALID, and the parameters: two states
that agree on these get the same record, the same result registers and the same output, whatever else differs (a
failed command has no result, R152; FREQ is a result of the four commands that install a table, R156). -/
def Obligations.OutcomeDependsOnlyOnTheInputs : Prop :=
  ∀ i s s', Memory.wf s.dm = true → Memory.wf s'.dm = true →
    s.cfg = s'.cfg → s.srcAddr = s'.srcAddr → s.srcLen = s'.srcLen → s.dstAddr = s'.dstAddr → s.dstCap = s'.dstCap →
    s.rotIdx = s'.rotIdx → s.rotValid = s'.rotValid → s.payloadBits = s'.payloadBits → s.ct = s'.ct →
    s.ctValid = s'.ctValid → src s = src s' →
    ∃ t t', exec i s = .next t ∧ exec i s' = .next t' ∧ t.errKind = t'.errKind ∧ t.errStage = t'.errStage ∧
      t.empty = t'.empty ∧ t.rotIdx = t'.rotIdx ∧ t.rotValid = t'.rotValid ∧ t.payloadBits = t'.payloadBits ∧
      t.ct = t'.ct ∧ t.ctValid = t'.ctValid ∧
      (t.errKind = .none → i = .hufBuild ∨ i = .hufLoad ∨ i = .compress ∨ i = .decompress → t.freq = t'.freq) ∧
      (t.errKind = .none → t.dstLen = t'.dstLen ∧
        (i ≠ .nop → i ≠ .hufLoad → bytesAt t.dm s.dstAddr.toNat t.dstLen.toNat = bytesAt t'.dm s.dstAddr.toNat t.dstLen.toNat))

/-- R318, R341: a failed command reports a kind and a stage of its own list, and the stage is one of its stage
sequence. -/
def Obligations.ErrorsAreTheCommandsOwn : Prop :=
  ∀ i s t, exec i s = .next t → t.errKind ≠ .none →
    (t.errKind, t.errStage) ∈ errorsOf i ∧ t.errStage ∈ stagesOf i ∧ t.stage = t.errStage

/-- R155: EMPTY of a successful command, by its raw side. -/
def Obligations.EmptyIsTheRawSide : Prop :=
  ∀ i s t, exec i s = .next t → t.errKind = .none →
    (i = .nop → t.empty = false) ∧
    (i = .bwtEnc ∨ i = .mtfEnc ∨ i = .rleEnc ∨ i = .hufBuild ∨ i = .hufEnc ∨ i = .compress →
      (t.empty = true ↔ s.srcLen = 0)) ∧
    (i = .bwtDec ∨ i = .mtfDec ∨ i = .rleDec ∨ i = .hufDec ∨ i = .decompress →
      (t.empty = true ↔ t.dstLen = 0)) ∧
    (i = .hufLoad → (t.empty = true ↔ ∀ b, entry t.ct b = []))

/-! ## The commands -/

/-- R160: NOP completes in every state; it sets DST_LEN and the success record and nothing else, whatever the region
registers hold. -/
def Obligations.NopCompletes : Prop :=
  ∀ s, exec .nop s = .next { s with
    dstLen := 0, errKind := .none, errStage := .none, empty := false, done := true, ctl := .idle, stage := .ctrl }

/-- R180: BWT_ENC: the frame's errors, and the forward transform with its rotation index. -/
def Obligations.BwtEncTransforms : Prop :=
  ∀ s, Sound s → FrameErrors .bwtEnc s ∧
    (Ready s → ∃ l i v, Forward (src s) l i v ∧ l.length = s.srcLen.toNat ∧
      Delivers .bwtEnc s l (s.srcLen == 0) (fun t => t.rotIdx.toNat = i ∧ t.rotValid = v))

/-- R181: BWT_DEC: the frame's errors, the three errors of its own, and the inverse walk. -/
def Obligations.BwtDecInverts : Prop :=
  ∀ s, Sound s → FrameErrors .bwtDec s ∧
    (Ready s → ∀ o, BwtDecodes s.rotIdx.toNat s.rotValid (src s) o →
      match o with
      | .error e => exec .bwtDec s = .next (aborted e.kind e.stage s)
      | .ok out => Delivers .bwtDec s out (s.srcLen == 0) (fun _ => True))

/-- R205: MTF_ENC: the index of each byte in the RecencyList, from a fresh one. -/
def Obligations.MtfEncEmitsIndices : Prop :=
  ∀ s, Sound s → FrameErrors .mtfEnc s ∧
    (Ready s → ∃ out, Mtf (src s) out ∧ Delivers .mtfEnc s out (s.srcLen == 0) (fun _ => True))

/-- R206: MTF_DEC: the byte at each index of the RecencyList, from a fresh one; it has no error of its own. -/
def Obligations.MtfDecEmitsBytes : Prop :=
  ∀ s, Sound s → FrameErrors .mtfDec s ∧
    (Ready s → ∃ out, Mtf out (src s) ∧ Delivers .mtfDec s out (s.srcLen == 0) (fun _ => True))

/-- R225: RLE_ENC: the run list of the source, serialised; LENGTH_LIMIT at RLE when it is longer than SEQ_MAX. -/
def Obligations.RleEncEmitsRuns : Prop :=
  ∀ s, Sound s → FrameErrors .rleEnc s ∧
    (Ready s → ∃ ps, Runs (src s) ps ∧
      (s.cfg.seqMax < (pairBytes ps).length → exec .rleEnc s = .next (aborted .lengthLimit .rle s)) ∧
      ((pairBytes ps).length ≤ s.cfg.seqMax →
        Delivers .rleEnc s (pairBytes ps) (s.srcLen == 0) (fun _ => True)))

/-- R226: RLE_DEC: the expansion of the pairs, or the error of the first failing check. -/
def Obligations.RleDecExpandsPairs : Prop :=
  ∀ s, Sound s → FrameErrors .rleDec s ∧
    (Ready s → ∀ o, RleDecodes s.cfg.seqMax (src s) o →
      match o with
      | .error e => exec .rleDec s = .next (aborted e.kind e.stage s)
      | .ok out => Delivers .rleDec s out out.isEmpty (fun _ => True))

/-- R260: HUF_BUILD: the table built by deterministic merges from the byte frequencies, installed and serialised. -/
def Obligations.HufBuildInstallsTheBuiltTable : Prop :=
  ∀ s, Sound s → FrameErrors .hufBuild s ∧
    (Ready s → ∃ ct, Built (fun b => (src s).count b) ct ∧
      Delivers .hufBuild s (serial ct) (s.srcLen == 0) (fun t => Installed t ct (fun b => (src s).count b)))

/-- R261: HUF_LOAD: the destination region is not checked; the source is exactly one serialised table, which is
installed with every frequency 0, or the load fails and leaves the table alone. -/
def Obligations.HufLoadInstallsTheParsedTable : Prop :=
  ∀ s, Sound s →
    (¬ SrcFits s → exec .hufLoad s = .next (aborted .badRegion .ctrl s)) ∧
    (SrcFits s → ¬ SrcShort s → exec .hufLoad s = .next (aborted .lengthLimit .ctrl s)) ∧
    (SrcFits s → SrcShort s → ∀ o, Parses true (src s) o →
      match o with
      | .error e => exec .hufLoad s = .next (aborted e.kind e.stage s)
      | .ok p => ∃ t, exec .hufLoad s = .next t ∧ Succeeded t (coded p.1).isEmpty ∧ t.dstLen = 0 ∧
          readOffset 0x030 t = 0 ∧ t.dm = s.dm ∧
          Installed t p.1 (fun _ => 0))

/-- R290: HUF_ENC: the codes of the source bytes, packed, with the exact bit count; its three errors in order. -/
def Obligations.HufEncPacksTheCodes : Prop :=
  ∀ s, Sound s → FrameErrors .hufEnc s ∧
    (Ready s →
      (s.ctValid = false → exec .hufEnc s = .next (aborted .missingMetadata .hufBits s)) ∧
      (s.ctValid = true → ¬ Coded s.ct (src s) → exec .hufEnc s = .next (aborted .symbolNotInTable .hufBits s)) ∧
      (s.ctValid = true → Coded s.ct (src s) →
        (s.cfg.seqMax < (packed (codeOf s.ct (src s))).length →
          exec .hufEnc s = .next (aborted .lengthLimit .hufBits s)) ∧
        ((packed (codeOf s.ct (src s))).length ≤ s.cfg.seqMax →
          Delivers .hufEnc s (packed (codeOf s.ct (src s))) (s.srcLen == 0)
            (fun t => t.payloadBits.toNat = (codeOf s.ct (src s)).length))))

/-- R291: HUF_DEC: MISSING_METADATA without a table, and else the outcome of the decoder. The installed table is one of
R59, which `Invariant` says of every sound state. -/
def Obligations.HufDecUnpacksTheCodes : Prop :=
  ∀ s, Sound s → TableOk s.ct → FrameErrors .hufDec s ∧
    (Ready s →
      (s.ctValid = false → exec .hufDec s = .next (aborted .missingMetadata .hufBits s)) ∧
      (s.ctValid = true → ∀ o, HufDecodes s.ct s.cfg.seqMax s.payloadBits.toNat (src s) o →
        match o with
        | .error e => exec .hufDec s = .next (aborted e.kind e.stage s)
        | .ok out => Delivers .hufDec s out out.isEmpty (fun _ => True)))

/-- R311: COMPRESS: the five stages in order, each stage's output the next one's input, with the two LENGTH_LIMIT checks
where R150 puts them; the blob is the table followed by the payload. (By R312 a payload is never longer than its run
list, so no state meets the second check's hypotheses; R311 lists the error, and the statement says where it stands.) -/
def Obligations.CompressRunsTheFiveStages : Prop :=
  ∀ s, Sound s → FrameErrors .compress s ∧
    (Ready s → ∃ l i v m ps ct, Forward (src s) l i v ∧ Mtf l m ∧ Runs m ps ∧
      Built (fun b => (pairBytes ps).count b) ct ∧
      (s.cfg.seqMax < (pairBytes ps).length → exec .compress s = .next (aborted .lengthLimit .rle s)) ∧
      ((pairBytes ps).length ≤ s.cfg.seqMax → s.cfg.seqMax < (packed (codeOf ct (pairBytes ps))).length →
        exec .compress s = .next (aborted .lengthLimit .hufBits s)) ∧
      ((pairBytes ps).length ≤ s.cfg.seqMax → (packed (codeOf ct (pairBytes ps))).length ≤ s.cfg.seqMax →
        Delivers .compress s (serial ct ++ packed (codeOf ct (pairBytes ps))) (s.srcLen == 0)
          (fun t => t.rotIdx.toNat = i ∧ t.rotValid = v ∧
            t.payloadBits.toNat = (codeOf ct (pairBytes ps)).length ∧
            Installed t ct (fun b => (pairBytes ps).count b))))

/-- R316: DECOMPRESS: the mirrored stages in order; the first stage that fails reports its error, and no later stage
runs. -/
def Obligations.DecompressRunsTheMirroredStages : Prop :=
  ∀ s, Sound s → FrameErrors .decompress s ∧
    (Ready s →
      (∀ e, Parses false (src s) (.error e) → exec .decompress s = .next (aborted e.kind e.stage s)) ∧
      (∀ ct pay, Parses false (src s) (.ok (ct, pay)) →
        (∀ e, HufDecodes ct s.cfg.seqMax s.payloadBits.toNat pay (.error e) →
          exec .decompress s = .next (aborted e.kind e.stage s)) ∧
        (∀ r, HufDecodes ct s.cfg.seqMax s.payloadBits.toNat pay (.ok r) →
          (∀ e, RleDecodes s.cfg.seqMax r (.error e) → exec .decompress s = .next (aborted e.kind e.stage s)) ∧
          (∀ m, RleDecodes s.cfg.seqMax r (.ok m) →
            ∃ l, Mtf l m ∧
              (∀ e, BwtDecodes s.rotIdx.toNat s.rotValid l (.error e) →
                exec .decompress s = .next (aborted e.kind e.stage s)) ∧
              (∀ t, BwtDecodes s.rotIdx.toNat s.rotValid l (.ok t) →
                Delivers .decompress s t t.isEmpty (fun u => Installed u ct (fun _ => 0)))))))

/-! ## Rules about the units -/

/-- R172: the order of the rotations is a strict total order on the start positions, and the engine's comparison of two
rotations is its reflexive closure. -/
def Obligations.RotationOrderIsStrictTotal : Prop :=
  ∀ t : List Byte, (∀ i j, i < t.length → j < t.length →
      (rotationLe i j t.length ((t ++ t).drop i) ((t ++ t).drop j) = true ↔ i = j ∨ CycLess t i j)) ∧
    (∀ i, ¬ CycLess t i i) ∧ (∀ i j k, CycLess t i j → CycLess t j k → CycLess t i k) ∧
    ∀ i j, i < t.length → j < t.length → i ≠ j → CycLess t i j ∨ CycLess t j i

/-- R173: there is exactly one sorted order, and it is the one the BWT engine's sort computes. -/
def Obligations.SortedOrderIsUnique : Prop :=
  ∀ t : List Byte, SortedOrder t (sortedOrder t) ∧ ∀ sa, SortedOrder t sa → sa = sortedOrder t

/-- R176: LF maps 0..n-1 onto 0..n-1: it is a permutation, whatever `l` is, and the engine's LF is it. -/
def Obligations.LfIsAPermutation : Prop :=
  ∀ l : List Byte, ((List.range l.length).map (lf l)).Perm (List.range l.length) ∧
    ∀ p < l.length, lastToFirst l p = lf l p

/-- R178: the inverse walk from the rotation index gives the block back, for every block; and the engine's decoder gives
it back from the engine's transform and index (an index of 32 bits, so a block shorter than 2^32), which are the forward
transform of R174. -/
def Obligations.BwtRoundTrips : Prop :=
  (∀ t l i v, Forward t l i v → BwtDecodes i v l (.ok t)) ∧
  (∀ t l i v, Forward t l i v ↔ bwtLast t = l ∧ bwtRot t = (i, v)) ∧
  ∀ t : List Byte, t.length < 2 ^ 32 →
    bwtDecode (BitVec.ofNat 32 (bwtRot t).1) (bwtRot t).2 (bwtLast t) = .ok t

/-- R207: the RecencyList stays a permutation of the 256 byte values: an encode step and a decode step keep it so, and
every byte has exactly one position in it. -/
def Obligations.RecencyListStaysAPermutation : Prop :=
  ∀ r : List Byte, r.Perm ascending →
    (∀ j, j < 256 → (front r j).Perm ascending) ∧ ∀ c, ∃! j : Nat, r[j]? = some c

/-- MTF decoding inverts MTF encoding and encoding inverts decoding (R206, corner cases): the relation of the two is
one to one. -/
def Obligations.MtfRoundTrips : Prop :=
  ∀ a b, (Mtf a b ↔ mtfEncode a = b) ∧ (Mtf a b ↔ mtfDecode b = a)

/-- R224: the decoder gives back what was encoded; every sequence has a run list that is maximal up to the split at 255,
and only one, the encoder's. -/
def Obligations.RleRoundTrips : Prop :=
  ∀ (t : List Byte) (lim : Nat), t.length ≤ lim →
    RleDecodes lim (rleEncode t) (.ok t) ∧ rleDecode lim (rleEncode t) = .ok t ∧ (∃ ps, Runs t ps) ∧
    (∀ ps, Runs t ps → pairBytes ps = rleEncode t) ∧
    (rleEncode t).length ≤ 2 * t.length

/-- R246: the codes of a built table are prefix-free, their lengths are 1 to 255, and a byte has a code exactly when it
occurs; so are those of the table the tree builder computes. -/
def Obligations.BuiltTableIsPrefixFree : Prop :=
  (∀ f ct, Built f ct → TableOk ct ∧ ∀ b, entry ct b ≠ [] ↔ f b > 0) ∧
  ∀ f, TableOk (buildCodes f) ∧ ∀ b, entry (buildCodes f) b ≠ [] ↔ entry f b > 0

/-- R247: the built table is a function of the frequencies alone, there is one for every frequency array, and the tree
builder computes it. -/
def Obligations.BuiltTableIsDetermined : Prop :=
  (∀ f : Byte → Nat, ∃! ct, Built f ct) ∧ ∀ f ct, Built (fun b => entry f b) ct ↔ buildCodes f = ct

/-- R253: `parse_table` of a serialised table of R59 gives the table back, with the bytes that follow it (none for an
exact parse) and the number of its entries; the serialiser writes the form of R250, of 2 to 8706 bytes, and no bytes
begin with the serialisations of two tables. -/
def Obligations.SerialisedTableParsesBack : Prop :=
  ∀ ct, TableOk ct →
    serialize ct = serial ct ∧
    (∀ exact rest, (exact = true → rest = []) →
      parseTable exact (serialize ct ++ rest) = .ok { ct := ct, rest := rest, count := (coded ct).length }) ∧
    (∀ rest ct' rest', TableOk ct' → serial ct ++ rest = serial ct' ++ rest' → ct = ct' ∧ rest = rest') ∧
    2 ≤ (serial ct).length ∧ (serial ct).length ≤ 8706

/-- R281, R282: unpacking gives the packed bits back, followed by zero padding, by the rules' own equations and by the
engine's two functions, which compute them. -/
def Obligations.UnpackInvertsPack : Prop :=
  (∀ w, pack w = packed w) ∧ (∀ p, unpack p = bitsOf p) ∧ (∀ w, (unpack (pack w)).take w.length = w) ∧
  (∀ w, ∀ x ∈ (unpack (pack w)).drop w.length, x = false) ∧
  ∀ w : BitString, (packed w).length = (w.length + 7) / 8 ∧ (bitsOf (packed w)).take w.length = w ∧
    ∀ i, w.length ≤ i → bitAt (packed w) i = false

/-- R288: decoding the packed codes of `x` with the exact bit count gives `x`, by the rules' relations and by the
engine's encoder and decoder. -/
def Obligations.HuffmanCodeRoundTrips : Prop :=
  ∀ ct x lim, TableOk ct → Coded ct x → x.length ≤ lim →
    HufDecodes ct lim (codeOf ct x).length (packed (codeOf ct x)) (.ok x) ∧
    hufDecode ct lim (hufEncode ct x).length (pack (hufEncode ct x)) = .ok x

/-- Every input of a decoder has exactly one outcome by the rules R181, R223, R286 and R252: the relations that the
decoder statements are written with leave no case out and give none twice; and the outcome is the one the unit's own
decoder computes. -/
def Obligations.DecoderOutcomesAreUnique : Prop :=
  (∀ i v l, ∃! o, BwtDecodes i v l o) ∧ (∀ (i : Word) v l o, BwtDecodes i.toNat v l o ↔ bwtDecode i v l = o) ∧
  (∀ lim t, ∃! o, RleDecodes lim t o) ∧ (∀ lim t o, RleDecodes lim t o ↔ rleDecode lim t = o) ∧
  (∀ ct lim n p, TableOk ct → ∃! o, HufDecodes ct lim n p o) ∧
  (∀ ct lim n p o, TableOk ct → (HufDecodes ct lim n p o ↔ hufDecode ct lim n p = o)) ∧
  (∀ exact t, ∃! o, Parses exact t o) ∧
  ∀ exact t o, Parses exact t o ↔ (parseTable exact t).map (fun p => (p.ct, p.rest)) = o

/-- R317: the round trip of the whole block: a successful COMPRESS of a block, then a DECOMPRESS of its blob with the
same metadata registers, gives the block back. -/
def Obligations.DecompressInvertsCompress : Prop :=
  ∀ s t u, Sound s → Ready s → exec .compress s = .next t → t.errKind = .none →
    Sound u → u.cfg = s.cfg → u.srcLen = t.dstLen → src u = bytesAt t.dm s.dstAddr.toNat t.dstLen.toNat →
    u.rotIdx = t.rotIdx → u.rotValid = t.rotValid → u.payloadBits = t.payloadBits →
    SrcFits u → DstFits u → u.srcLen.toNat ≤ u.cfg.seqMax → s.srcLen.toNat ≤ u.dstCap.toNat →
    ∃ v, exec .decompress u = .next v ∧ Succeeded v (s.srcLen == 0) ∧ Wrote u v (src s)

/-! ## The invariant -/

/-- Every power-on state with parameters in range and a data memory in canonical form is sound; the reset state is. -/
def Obligations.ResetStateIsSound : Prop :=
  Invariant State.reset ∧
  ∀ cfg dm, cfg.wf = true → Memory.wf dm = true → MemoryBounded cfg dm → Invariant (State.powerOn cfg dm)

/-- From every sound state, a step gives a sound state: the memory keeps its canonical form and its bound, the installed
table stays prefix-free with codes of at most 255 bits, the error record keeps its pairing, and a running command's
record stays clear. -/
def Obligations.EveryStepKeepsTheInvariant : Prop :=
  ∀ s, Invariant s → SafeStep s
end

