-- ==== Sys2Proof/Laws/Memory.lean ====
section
/-! SUPPORT. The laws of the data memory: a read after a write, what a write leaves alone, and that every memory
operation keeps the canonical form. -/

namespace Sys2Proof.Machine

/-! ## The canonical form -/

@[simp] theorem Memory.wf_nil : Memory.wf [] = true := rfl

theorem Memory.wf_cons (a : Nat) (b : Byte) (m : Memory) :
    Memory.wf ((a, b) :: m) = true ↔ b ≠ Memory.unlisted ∧ (∀ c ∈ m, a < c.1) ∧ Memory.wf m = true := by
  simp [Memory.wf, and_assoc]

@[simp] theorem Memory.read_nil (a : Nat) : Memory.read [] a = Memory.unlisted := rfl

theorem Memory.read_cons (k : Nat) (b : Byte) (m : Memory) (a : Nat) :
    Memory.read ((k, b) :: m) a = if k = a then b else Memory.read m a := rfl

/-- An address below every listed one reads as an unlisted address. -/
theorem Memory.read_eq_unlisted_of_lt (m : Memory) (a : Nat) (h : ∀ c ∈ m, a < c.1) :
    Memory.read m a = Memory.unlisted := by
  induction m with
  | nil => rfl
  | cons c m ih =>
    obtain ⟨k, b⟩ := c
    have hk : a < k := h (k, b) (by simp)
    rw [Memory.read_cons, if_neg (by omega)]
    exact ih fun c hc => h c (by simp [hc])

/-- The cells of a memory after a write: the old ones and possibly one at the address written. -/
theorem Memory.mem_write {m : Memory} {a : Nat} {b : Byte} {c : Host.Cell} (h : c ∈ m.write a b) :
    c ∈ m ∨ c.1 = a := by
  induction m with
  | nil => simp only [Memory.write] at h; split at h <;> simp_all
  | cons d m ih =>
    obtain ⟨k, e⟩ := d
    simp only [Memory.write] at h
    split_ifs at h <;> simp only [List.mem_cons] at h ⊢
    · tauto
    · rcases h with rfl | h <;> simp_all
    · tauto
    · rcases h with rfl | h <;> simp_all
    · rcases h with h | h
      · tauto
      · rcases ih h with h | h <;> tauto

/-- A write keeps the canonical form. -/
theorem Memory.wf_write (m : Memory) (a : Nat) (b : Byte) (h : Memory.wf m = true) :
    Memory.wf (m.write a b) = true := by
  induction m with
  | nil =>
    simp only [Memory.write]
    split
    · rfl
    · next hb => exact (Memory.wf_cons a b []).2 ⟨hb, by simp, rfl⟩
  | cons d m ih =>
    obtain ⟨k, e⟩ := d
    obtain ⟨he, hk, hm⟩ := (Memory.wf_cons k e m).1 h
    simp only [Memory.write]
    split_ifs with h1 h2 h3 h4
    · exact h
    · refine (Memory.wf_cons a b _).2 ⟨h2, ?_, h⟩
      intro c hc
      rcases List.mem_cons.1 hc with rfl | hc
      · exact h1
      · exact Nat.lt_trans h1 (hk c hc)
    · exact hm
    · subst h3; exact (Memory.wf_cons a b m).2 ⟨h4, hk, hm⟩
    · refine (Memory.wf_cons k e _).2 ⟨he, ?_, ih hm⟩
      intro c hc
      rcases Memory.mem_write hc with hc | hc
      · exact hk c hc
      · omega

/-- A read after a write at the same address gives the value written. -/
theorem Memory.read_write_same (m : Memory) (a : Nat) (b : Byte) (h : Memory.wf m = true) :
    (m.write a b).read a = b := by
  induction m with
  | nil =>
    simp only [Memory.write]
    split
    · next hb => simp [hb]
    · simp [Memory.read_cons]
  | cons d m ih =>
    obtain ⟨k, e⟩ := d
    obtain ⟨he, hk, hm⟩ := (Memory.wf_cons k e m).1 h
    simp only [Memory.write]
    split_ifs with h1 h2 h3 h4
    · rw [h2]
      apply Memory.read_eq_unlisted_of_lt
      intro c hc
      rcases List.mem_cons.1 hc with rfl | hc
      · exact h1
      · exact Nat.lt_trans h1 (hk c hc)
    · simp [Memory.read_cons]
    · rw [h4]
      exact Memory.read_eq_unlisted_of_lt m a (by subst h3; exact hk)
    · simp [Memory.read_cons]
    · rw [Memory.read_cons, if_neg (by omega)]; exact ih hm

/-- A write leaves every other address alone. -/
theorem Memory.read_write_other (m : Memory) (a c : Nat) (b : Byte) (h : c ≠ a) :
    (m.write a b).read c = m.read c := by
  induction m with
  | nil =>
    simp only [Memory.write]
    split
    · rfl
    · rw [Memory.read_cons, if_neg (by omega)]
  | cons d m ih =>
    obtain ⟨k, e⟩ := d
    simp only [Memory.write]
    split_ifs with h1 h2 h3 h4
    · rfl
    · rw [Memory.read_cons, if_neg (by omega)]
    · rw [Memory.read_cons, if_neg (by omega)]
    · rw [Memory.read_cons, if_neg (by omega), Memory.read_cons, if_neg (by omega)]
    · rw [Memory.read_cons, Memory.read_cons, ih]

/-- Equal reads everywhere make canonical memories equal data. -/
theorem Memory.ext_of_wf {m n : Memory} (hm : Memory.wf m = true) (hn : Memory.wf n = true)
    (h : ∀ a, m.read a = n.read a) : m = n := by
  induction m generalizing n with
  | nil =>
    cases n with
    | nil => rfl
    | cons d n =>
      obtain ⟨k, e⟩ := d
      have := h k
      rw [Memory.read_cons, if_pos rfl] at this
      exact absurd this.symm ((Memory.wf_cons k e n).1 hn).1
  | cons c m ih =>
    obtain ⟨j, b⟩ := c
    obtain ⟨hb, hj, hm'⟩ := (Memory.wf_cons j b m).1 hm
    cases n with
    | nil =>
      have := h j
      rw [Memory.read_cons, if_pos rfl] at this
      exact absurd this hb
    | cons d n =>
      obtain ⟨k, e⟩ := d
      obtain ⟨he, hk, hn'⟩ := (Memory.wf_cons k e n).1 hn
      have hjk : j = k := by
        rcases Nat.lt_trichotomy j k with hlt | heq | hlt
        · have := h j
          rw [Memory.read_cons, if_pos rfl, Memory.read_eq_unlisted_of_lt] at this
          · exact absurd this hb
          · intro c hc
            rcases List.mem_cons.1 hc with rfl | hc
            · exact hlt
            · exact Nat.lt_trans hlt (hk c hc)
        · exact heq
        · have := h k
          rw [Memory.read_cons k, if_pos rfl, Memory.read_eq_unlisted_of_lt] at this
          · exact absurd this.symm he
          · intro c hc
            rcases List.mem_cons.1 hc with rfl | hc
            · exact hlt
            · exact Nat.lt_trans hlt (hj c hc)
      subst hjk
      have hbe : b = e := by have := h j; simpa [Memory.read_cons] using this
      subst hbe
      congr 1
      refine ih hm' hn' fun a => ?_
      by_cases ha : j = a
      · subst ha
        rw [Memory.read_eq_unlisted_of_lt m j hj, Memory.read_eq_unlisted_of_lt n j hk]
      · have := h a
        rwa [Memory.read_cons, Memory.read_cons, if_neg ha, if_neg ha] at this

/-! ## Runs of bytes -/

@[simp] theorem Memory.length_readBytes (m : Memory) (a n : Nat) : (m.readBytes a n).length = n := by
  induction n generalizing a with
  | zero => rfl
  | succ n ih => simp [Memory.readBytes, ih]

/-- Byte `k` of a run. -/
theorem Memory.getElem?_readBytes (m : Memory) (a n k : Nat) (h : k < n) :
    (m.readBytes a n)[k]? = some (m.read (a + k)) := by
  induction n generalizing a k with
  | zero => omega
  | succ n ih =>
    cases k with
    | zero => simp [Memory.readBytes]
    | succ k =>
      rw [Memory.readBytes, List.getElem?_cons_succ, ih (a + 1) k (by omega)]
      congr 2; omega

/-- Two runs that read the same byte by byte are the same. -/
theorem Memory.readBytes_congr {m n : Memory} {a k : Nat} (h : ∀ i < k, m.read (a + i) = n.read (a + i)) :
    m.readBytes a k = n.readBytes a k := by
  induction k generalizing a with
  | zero => rfl
  | succ k ih =>
    have h0 : m.read a = n.read a := h 0 (by omega)
    rw [Memory.readBytes, Memory.readBytes, h0, ih fun i hi => ?_]
    have := h (i + 1) (by omega)
    rwa [show a + (i + 1) = a + 1 + i by omega] at this

theorem Memory.wf_writeBytes (m : Memory) (a : Nat) (v : List Byte) (h : Memory.wf m = true) :
    Memory.wf (m.writeBytes a v) = true := by
  induction v generalizing m a with
  | nil => exact h
  | cons b v ih => exact ih _ _ (Memory.wf_write m a b h)

/-- Writing a run leaves every byte outside it alone. -/
theorem Memory.read_writeBytes_outside (m : Memory) (a c : Nat) (v : List Byte) (h : c < a ∨ a + v.length ≤ c) :
    (m.writeBytes a v).read c = m.read c := by
  induction v generalizing m a with
  | nil => rfl
  | cons b v ih =>
    simp only [List.length_cons] at h
    rw [Memory.writeBytes, ih _ _ (by omega), Memory.read_write_other m a c b (by omega)]

/-- Reading a run that was just written gives what was written. -/
theorem Memory.readBytes_writeBytes (m : Memory) (a : Nat) (v : List Byte) (h : Memory.wf m = true) :
    (m.writeBytes a v).readBytes a v.length = v := by
  induction v generalizing m a with
  | nil => rfl
  | cons b v ih =>
    rw [List.length_cons, Memory.readBytes, Memory.writeBytes, ih _ _ (Memory.wf_write m a b h),
      Memory.read_writeBytes_outside _ _ _ _ (by omega), Memory.read_write_same m a b h]

theorem Memory.mem_writeBytes {m : Memory} {a : Nat} {v : List Byte} {c : Host.Cell} (h : c ∈ m.writeBytes a v) :
    c ∈ m ∨ (a ≤ c.1 ∧ c.1 < a + v.length) := by
  induction v generalizing m a with
  | nil => exact .inl h
  | cons b v ih =>
    rcases ih h with h | ⟨h1, h2⟩
    · rcases Memory.mem_write h with h | h
      · exact .inl h
      · right; simp only [List.length_cons]; omega
    · right; simp only [List.length_cons]; omega

/-! ## The free values of a hardware reset while BUSY -/

theorem wf_scramble (m : Memory) (d a n : Nat) (h : Memory.wf m = true) : Memory.wf (scramble m d a n) = true := by
  induction n generalizing m a with
  | zero => exact h
  | succ n ih => exact ih _ _ (Memory.wf_write m a _ h)

theorem read_scramble_outside (m : Memory) (d a n c : Nat) (h : c < a ∨ a + n ≤ c) :
    (scramble m d a n).read c = m.read c := by
  induction n generalizing m a with
  | zero => rfl
  | succ n ih => rw [scramble, ih _ _ (by omega), Memory.read_write_other m a c _ (by omega)]

theorem mem_scramble {m : Memory} {d a n : Nat} {c : Host.Cell} (h : c ∈ scramble m d a n) :
    c ∈ m ∨ (a ≤ c.1 ∧ c.1 < a + n) := by
  induction n generalizing m a with
  | zero => exact .inl h
  | succ n ih =>
    rcases ih h with h | ⟨h1, h2⟩
    · rcases Memory.mem_write h with h | h
      · exact .inl h
      · right; omega
    · right; omega

/-! ## Tables indexed by a byte value -/

theorem length_allBytes : allBytes.length = 256 := by simp [allBytes]

theorem getElem?_allBytes (b : Byte) : allBytes[b.toNat]? = some b := by
  have := b.isLt
  simp [allBytes, this]

@[simp] theorem mem_allBytes (b : Byte) : b ∈ allBytes := List.mem_of_getElem? (getElem?_allBytes b)

@[simp] theorem entry_tabulate {α : Type} (f : Byte → α) (b : Byte) : entry (tabulate f) b = f b := by
  simp [entry, tabulate, allBytes]

@[simp] theorem entry_map {α β : Type} (f : α → β) (v : Vector α 256) (b : Byte) :
    entry (v.map f) b = f (entry v b) := by
  simp [entry]

@[simp] theorem entry_replicate {α : Type} (x : α) (b : Byte) : entry (Vector.replicate 256 x) b = x := by
  simp [entry]

/-- Tables with equal entries are equal. -/
theorem table_ext {α : Type} {v w : Vector α 256} (h : ∀ b, entry v b = entry w b) : v = w := by
  ext i hi
  have := h (BitVec.ofNat 8 i)
  simpa [entry, Nat.mod_eq_of_lt hi] using this

end Sys2Proof.Machine
end

