-- ==== Sys2Proof/Laws/State.lean ====
section
/-! SUPPORT. One lemma per field per named update of State, each true by `rfl`: later proofs rewrite with these and
never unfold a record update. -/

namespace Sys2Proof.Machine

/-! ## raiseError -/

@[simp] theorem raiseError_cfg (e : CmdError) (s : State) : (raiseError e s).cfg = s.cfg := rfl
@[simp] theorem raiseError_irqEn (e : CmdError) (s : State) : (raiseError e s).irqEn = s.irqEn := rfl
@[simp] theorem raiseError_done (e : CmdError) (s : State) : (raiseError e s).done = true := rfl
@[simp] theorem raiseError_empty (e : CmdError) (s : State) : (raiseError e s).empty = false := rfl
@[simp] theorem raiseError_ctValid (e : CmdError) (s : State) : (raiseError e s).ctValid = s.ctValid := rfl
@[simp] theorem raiseError_wbusy (e : CmdError) (s : State) : (raiseError e s).wbusy = s.wbusy := rfl
@[simp] theorem raiseError_errKind (e : CmdError) (s : State) : (raiseError e s).errKind = e.kind := rfl
@[simp] theorem raiseError_errStage (e : CmdError) (s : State) : (raiseError e s).errStage = e.stage := rfl
@[simp] theorem raiseError_cmd (e : CmdError) (s : State) : (raiseError e s).cmd = s.cmd := rfl
@[simp] theorem raiseError_srcAddr (e : CmdError) (s : State) : (raiseError e s).srcAddr = s.srcAddr := rfl
@[simp] theorem raiseError_srcLen (e : CmdError) (s : State) : (raiseError e s).srcLen = s.srcLen := rfl
@[simp] theorem raiseError_dstAddr (e : CmdError) (s : State) : (raiseError e s).dstAddr = s.dstAddr := rfl
@[simp] theorem raiseError_dstCap (e : CmdError) (s : State) : (raiseError e s).dstCap = s.dstCap := rfl
@[simp] theorem raiseError_dstLen (e : CmdError) (s : State) : (raiseError e s).dstLen = s.dstLen := rfl
@[simp] theorem raiseError_rotIdx (e : CmdError) (s : State) : (raiseError e s).rotIdx = s.rotIdx := rfl
@[simp] theorem raiseError_rotValid (e : CmdError) (s : State) : (raiseError e s).rotValid = s.rotValid := rfl
@[simp] theorem raiseError_payloadBits (e : CmdError) (s : State) : (raiseError e s).payloadBits = s.payloadBits := rfl
@[simp] theorem raiseError_freq (e : CmdError) (s : State) : (raiseError e s).freq = s.freq := rfl
@[simp] theorem raiseError_ct (e : CmdError) (s : State) : (raiseError e s).ct = s.ct := rfl
@[simp] theorem raiseError_ctl (e : CmdError) (s : State) : (raiseError e s).ctl = .idle := rfl
@[simp] theorem raiseError_stage (e : CmdError) (s : State) : (raiseError e s).stage = e.stage := rfl
@[simp] theorem raiseError_dm (e : CmdError) (s : State) : (raiseError e s).dm = s.dm := rfl
@[simp] theorem raiseError_host (e : CmdError) (s : State) : (raiseError e s).host = s.host := rfl
@[simp] theorem raiseError_resp (e : CmdError) (s : State) : (raiseError e s).resp = s.resp := rfl
@[simp] theorem raiseError_delay (e : CmdError) (s : State) : (raiseError e s).delay = s.delay := rfl
@[simp] theorem raiseError_draws (e : CmdError) (s : State) : (raiseError e s).draws = s.draws := rfl

/-! ## acknowledge -/

@[simp] theorem acknowledge_cfg (s : State) : (acknowledge s).cfg = s.cfg := rfl
@[simp] theorem acknowledge_irqEn (s : State) : (acknowledge s).irqEn = s.irqEn := rfl
@[simp] theorem acknowledge_done (s : State) : (acknowledge s).done = false := rfl
@[simp] theorem acknowledge_empty (s : State) : (acknowledge s).empty = s.empty := rfl
@[simp] theorem acknowledge_ctValid (s : State) : (acknowledge s).ctValid = s.ctValid := rfl
@[simp] theorem acknowledge_wbusy (s : State) : (acknowledge s).wbusy = s.wbusy := rfl
@[simp] theorem acknowledge_errKind (s : State) : (acknowledge s).errKind = s.errKind := rfl
@[simp] theorem acknowledge_errStage (s : State) : (acknowledge s).errStage = s.errStage := rfl
@[simp] theorem acknowledge_cmd (s : State) : (acknowledge s).cmd = s.cmd := rfl
@[simp] theorem acknowledge_srcAddr (s : State) : (acknowledge s).srcAddr = s.srcAddr := rfl
@[simp] theorem acknowledge_srcLen (s : State) : (acknowledge s).srcLen = s.srcLen := rfl
@[simp] theorem acknowledge_dstAddr (s : State) : (acknowledge s).dstAddr = s.dstAddr := rfl
@[simp] theorem acknowledge_dstCap (s : State) : (acknowledge s).dstCap = s.dstCap := rfl
@[simp] theorem acknowledge_dstLen (s : State) : (acknowledge s).dstLen = s.dstLen := rfl
@[simp] theorem acknowledge_rotIdx (s : State) : (acknowledge s).rotIdx = s.rotIdx := rfl
@[simp] theorem acknowledge_rotValid (s : State) : (acknowledge s).rotValid = s.rotValid := rfl
@[simp] theorem acknowledge_payloadBits (s : State) : (acknowledge s).payloadBits = s.payloadBits := rfl
@[simp] theorem acknowledge_freq (s : State) : (acknowledge s).freq = s.freq := rfl
@[simp] theorem acknowledge_ct (s : State) : (acknowledge s).ct = s.ct := rfl
@[simp] theorem acknowledge_ctl (s : State) : (acknowledge s).ctl = s.ctl := rfl
@[simp] theorem acknowledge_stage (s : State) : (acknowledge s).stage = s.stage := rfl
@[simp] theorem acknowledge_dm (s : State) : (acknowledge s).dm = s.dm := rfl
@[simp] theorem acknowledge_host (s : State) : (acknowledge s).host = s.host := rfl
@[simp] theorem acknowledge_resp (s : State) : (acknowledge s).resp = s.resp := rfl
@[simp] theorem acknowledge_delay (s : State) : (acknowledge s).delay = s.delay := rfl
@[simp] theorem acknowledge_draws (s : State) : (acknowledge s).draws = s.draws := rfl

/-! ## commit -/

@[simp] theorem commit_cfg (i : Instr) (r : Result) (s : State) : (commit i r s).cfg = s.cfg := rfl
@[simp] theorem commit_irqEn (i : Instr) (r : Result) (s : State) : (commit i r s).irqEn = s.irqEn := rfl
@[simp] theorem commit_done (i : Instr) (r : Result) (s : State) : (commit i r s).done = true := rfl
@[simp] theorem commit_empty (i : Instr) (r : Result) (s : State) : (commit i r s).empty = r.empty := rfl
@[simp] theorem commit_ctValid (i : Instr) (r : Result) (s : State) : (commit i r s).ctValid = (match r.huf with | some _ => true | none => s.ctValid) := rfl
@[simp] theorem commit_wbusy (i : Instr) (r : Result) (s : State) : (commit i r s).wbusy = s.wbusy := rfl
@[simp] theorem commit_errKind (i : Instr) (r : Result) (s : State) : (commit i r s).errKind = .none := rfl
@[simp] theorem commit_errStage (i : Instr) (r : Result) (s : State) : (commit i r s).errStage = .none := rfl
@[simp] theorem commit_cmd (i : Instr) (r : Result) (s : State) : (commit i r s).cmd = s.cmd := rfl
@[simp] theorem commit_srcAddr (i : Instr) (r : Result) (s : State) : (commit i r s).srcAddr = s.srcAddr := rfl
@[simp] theorem commit_srcLen (i : Instr) (r : Result) (s : State) : (commit i r s).srcLen = s.srcLen := rfl
@[simp] theorem commit_dstAddr (i : Instr) (r : Result) (s : State) : (commit i r s).dstAddr = s.dstAddr := rfl
@[simp] theorem commit_dstCap (i : Instr) (r : Result) (s : State) : (commit i r s).dstCap = s.dstCap := rfl
@[simp] theorem commit_dstLen (i : Instr) (r : Result) (s : State) : (commit i r s).dstLen = BitVec.ofNat 32 r.out.length := rfl
@[simp] theorem commit_rotIdx (i : Instr) (r : Result) (s : State) : (commit i r s).rotIdx = (match r.rot with | some p => BitVec.ofNat 32 p.1 | none => s.rotIdx) := rfl
@[simp] theorem commit_rotValid (i : Instr) (r : Result) (s : State) : (commit i r s).rotValid = (match r.rot with | some p => p.2 | none => s.rotValid) := rfl
@[simp] theorem commit_payloadBits (i : Instr) (r : Result) (s : State) : (commit i r s).payloadBits = (match r.bits with | some k => BitVec.ofNat 32 k | none => s.payloadBits) := rfl
@[simp] theorem commit_freq (i : Instr) (r : Result) (s : State) : (commit i r s).freq = (match r.huf with | some h => h.2.map (BitVec.ofNat 32) | none => s.freq) := rfl
@[simp] theorem commit_ct (i : Instr) (r : Result) (s : State) : (commit i r s).ct = (match r.huf with | some h => h.1 | none => s.ct) := rfl
@[simp] theorem commit_ctl (i : Instr) (r : Result) (s : State) : (commit i r s).ctl = .idle := rfl
@[simp] theorem commit_stage (i : Instr) (r : Result) (s : State) : (commit i r s).stage = .ctrl := rfl
@[simp] theorem commit_dm (i : Instr) (r : Result) (s : State) : (commit i r s).dm = (if writesDst i then s.dm.writeBytes s.dstAddr.toNat r.out else s.dm) := rfl
@[simp] theorem commit_host (i : Instr) (r : Result) (s : State) : (commit i r s).host = s.host := rfl
@[simp] theorem commit_resp (i : Instr) (r : Result) (s : State) : (commit i r s).resp = s.resp := rfl
@[simp] theorem commit_delay (i : Instr) (r : Result) (s : State) : (commit i r s).delay = s.delay := rfl
@[simp] theorem commit_draws (i : Instr) (r : Result) (s : State) : (commit i r s).draws = s.draws := rfl

/-! ## startCommand -/

@[simp] theorem startCommand_cfg (s : State) : (startCommand s).cfg = s.cfg := rfl
@[simp] theorem startCommand_irqEn (s : State) : (startCommand s).irqEn = s.irqEn := rfl
@[simp] theorem startCommand_done (s : State) : (startCommand s).done = false := rfl
@[simp] theorem startCommand_empty (s : State) : (startCommand s).empty = false := rfl
@[simp] theorem startCommand_ctValid (s : State) : (startCommand s).ctValid = s.ctValid := rfl
@[simp] theorem startCommand_wbusy (s : State) : (startCommand s).wbusy = s.wbusy := rfl
@[simp] theorem startCommand_errKind (s : State) : (startCommand s).errKind = .none := rfl
@[simp] theorem startCommand_errStage (s : State) : (startCommand s).errStage = .none := rfl
@[simp] theorem startCommand_cmd (s : State) : (startCommand s).cmd = s.cmd := rfl
@[simp] theorem startCommand_srcAddr (s : State) : (startCommand s).srcAddr = s.srcAddr := rfl
@[simp] theorem startCommand_srcLen (s : State) : (startCommand s).srcLen = s.srcLen := rfl
@[simp] theorem startCommand_dstAddr (s : State) : (startCommand s).dstAddr = s.dstAddr := rfl
@[simp] theorem startCommand_dstCap (s : State) : (startCommand s).dstCap = s.dstCap := rfl
@[simp] theorem startCommand_dstLen (s : State) : (startCommand s).dstLen = s.dstLen := rfl
@[simp] theorem startCommand_rotIdx (s : State) : (startCommand s).rotIdx = s.rotIdx := rfl
@[simp] theorem startCommand_rotValid (s : State) : (startCommand s).rotValid = s.rotValid := rfl
@[simp] theorem startCommand_payloadBits (s : State) : (startCommand s).payloadBits = s.payloadBits := rfl
@[simp] theorem startCommand_freq (s : State) : (startCommand s).freq = s.freq := rfl
@[simp] theorem startCommand_ct (s : State) : (startCommand s).ct = s.ct := rfl
@[simp] theorem startCommand_ctl (s : State) : (startCommand s).ctl = .busy := rfl
@[simp] theorem startCommand_stage (s : State) : (startCommand s).stage = .ctrl := rfl
@[simp] theorem startCommand_dm (s : State) : (startCommand s).dm = s.dm := rfl
@[simp] theorem startCommand_host (s : State) : (startCommand s).host = s.host := rfl
@[simp] theorem startCommand_resp (s : State) : (startCommand s).resp = s.resp := rfl
@[simp] theorem startCommand_delay (s : State) : (startCommand s).delay = Config.latency s.draws := rfl
@[simp] theorem startCommand_draws (s : State) : (startCommand s).draws = s.draws + 1 := rfl

/-! ## resetRegisters -/

@[simp] theorem resetRegisters_cfg (s : State) : (resetRegisters s).cfg = s.cfg := rfl
@[simp] theorem resetRegisters_irqEn (s : State) : (resetRegisters s).irqEn = State.reset.irqEn := rfl
@[simp] theorem resetRegisters_done (s : State) : (resetRegisters s).done = State.reset.done := rfl
@[simp] theorem resetRegisters_empty (s : State) : (resetRegisters s).empty = State.reset.empty := rfl
@[simp] theorem resetRegisters_ctValid (s : State) : (resetRegisters s).ctValid = State.reset.ctValid := rfl
@[simp] theorem resetRegisters_wbusy (s : State) : (resetRegisters s).wbusy = State.reset.wbusy := rfl
@[simp] theorem resetRegisters_errKind (s : State) : (resetRegisters s).errKind = State.reset.errKind := rfl
@[simp] theorem resetRegisters_errStage (s : State) : (resetRegisters s).errStage = State.reset.errStage := rfl
@[simp] theorem resetRegisters_cmd (s : State) : (resetRegisters s).cmd = State.reset.cmd := rfl
@[simp] theorem resetRegisters_srcAddr (s : State) : (resetRegisters s).srcAddr = State.reset.srcAddr := rfl
@[simp] theorem resetRegisters_srcLen (s : State) : (resetRegisters s).srcLen = State.reset.srcLen := rfl
@[simp] theorem resetRegisters_dstAddr (s : State) : (resetRegisters s).dstAddr = State.reset.dstAddr := rfl
@[simp] theorem resetRegisters_dstCap (s : State) : (resetRegisters s).dstCap = State.reset.dstCap := rfl
@[simp] theorem resetRegisters_dstLen (s : State) : (resetRegisters s).dstLen = State.reset.dstLen := rfl
@[simp] theorem resetRegisters_rotIdx (s : State) : (resetRegisters s).rotIdx = State.reset.rotIdx := rfl
@[simp] theorem resetRegisters_rotValid (s : State) : (resetRegisters s).rotValid = State.reset.rotValid := rfl
@[simp] theorem resetRegisters_payloadBits (s : State) : (resetRegisters s).payloadBits = State.reset.payloadBits := rfl
@[simp] theorem resetRegisters_freq (s : State) : (resetRegisters s).freq = State.reset.freq := rfl
@[simp] theorem resetRegisters_ct (s : State) : (resetRegisters s).ct = State.reset.ct := rfl
@[simp] theorem resetRegisters_ctl (s : State) : (resetRegisters s).ctl = State.reset.ctl := rfl
@[simp] theorem resetRegisters_stage (s : State) : (resetRegisters s).stage = State.reset.stage := rfl
@[simp] theorem resetRegisters_dm (s : State) : (resetRegisters s).dm = s.dm := rfl
@[simp] theorem resetRegisters_host (s : State) : (resetRegisters s).host = s.host := rfl
@[simp] theorem resetRegisters_resp (s : State) : (resetRegisters s).resp = s.resp := rfl
@[simp] theorem resetRegisters_delay (s : State) : (resetRegisters s).delay = s.delay := rfl
@[simp] theorem resetRegisters_draws (s : State) : (resetRegisters s).draws = s.draws := rfl

/-! ## answered -/

@[simp] theorem answered_cfg (r : Response) (s : State) : (answered r s).cfg = s.cfg := rfl
@[simp] theorem answered_irqEn (r : Response) (s : State) : (answered r s).irqEn = s.irqEn := rfl
@[simp] theorem answered_done (r : Response) (s : State) : (answered r s).done = s.done := rfl
@[simp] theorem answered_empty (r : Response) (s : State) : (answered r s).empty = s.empty := rfl
@[simp] theorem answered_ctValid (r : Response) (s : State) : (answered r s).ctValid = s.ctValid := rfl
@[simp] theorem answered_wbusy (r : Response) (s : State) : (answered r s).wbusy = s.wbusy := rfl
@[simp] theorem answered_errKind (r : Response) (s : State) : (answered r s).errKind = s.errKind := rfl
@[simp] theorem answered_errStage (r : Response) (s : State) : (answered r s).errStage = s.errStage := rfl
@[simp] theorem answered_cmd (r : Response) (s : State) : (answered r s).cmd = s.cmd := rfl
@[simp] theorem answered_srcAddr (r : Response) (s : State) : (answered r s).srcAddr = s.srcAddr := rfl
@[simp] theorem answered_srcLen (r : Response) (s : State) : (answered r s).srcLen = s.srcLen := rfl
@[simp] theorem answered_dstAddr (r : Response) (s : State) : (answered r s).dstAddr = s.dstAddr := rfl
@[simp] theorem answered_dstCap (r : Response) (s : State) : (answered r s).dstCap = s.dstCap := rfl
@[simp] theorem answered_dstLen (r : Response) (s : State) : (answered r s).dstLen = s.dstLen := rfl
@[simp] theorem answered_rotIdx (r : Response) (s : State) : (answered r s).rotIdx = s.rotIdx := rfl
@[simp] theorem answered_rotValid (r : Response) (s : State) : (answered r s).rotValid = s.rotValid := rfl
@[simp] theorem answered_payloadBits (r : Response) (s : State) : (answered r s).payloadBits = s.payloadBits := rfl
@[simp] theorem answered_freq (r : Response) (s : State) : (answered r s).freq = s.freq := rfl
@[simp] theorem answered_ct (r : Response) (s : State) : (answered r s).ct = s.ct := rfl
@[simp] theorem answered_ctl (r : Response) (s : State) : (answered r s).ctl = s.ctl := rfl
@[simp] theorem answered_stage (r : Response) (s : State) : (answered r s).stage = s.stage := rfl
@[simp] theorem answered_dm (r : Response) (s : State) : (answered r s).dm = s.dm := rfl
@[simp] theorem answered_host (r : Response) (s : State) : (answered r s).host = s.host.tail := rfl
@[simp] theorem answered_resp (r : Response) (s : State) : (answered r s).resp = r := rfl
@[simp] theorem answered_delay (r : Response) (s : State) : (answered r s).delay = s.delay := rfl
@[simp] theorem answered_draws (r : Response) (s : State) : (answered r s).draws = s.draws := rfl

/-! ## countDown -/

@[simp] theorem countDown_cfg (s : State) : (countDown s).cfg = s.cfg := rfl
@[simp] theorem countDown_irqEn (s : State) : (countDown s).irqEn = s.irqEn := rfl
@[simp] theorem countDown_done (s : State) : (countDown s).done = s.done := rfl
@[simp] theorem countDown_empty (s : State) : (countDown s).empty = s.empty := rfl
@[simp] theorem countDown_ctValid (s : State) : (countDown s).ctValid = s.ctValid := rfl
@[simp] theorem countDown_wbusy (s : State) : (countDown s).wbusy = s.wbusy := rfl
@[simp] theorem countDown_errKind (s : State) : (countDown s).errKind = s.errKind := rfl
@[simp] theorem countDown_errStage (s : State) : (countDown s).errStage = s.errStage := rfl
@[simp] theorem countDown_cmd (s : State) : (countDown s).cmd = s.cmd := rfl
@[simp] theorem countDown_srcAddr (s : State) : (countDown s).srcAddr = s.srcAddr := rfl
@[simp] theorem countDown_srcLen (s : State) : (countDown s).srcLen = s.srcLen := rfl
@[simp] theorem countDown_dstAddr (s : State) : (countDown s).dstAddr = s.dstAddr := rfl
@[simp] theorem countDown_dstCap (s : State) : (countDown s).dstCap = s.dstCap := rfl
@[simp] theorem countDown_dstLen (s : State) : (countDown s).dstLen = s.dstLen := rfl
@[simp] theorem countDown_rotIdx (s : State) : (countDown s).rotIdx = s.rotIdx := rfl
@[simp] theorem countDown_rotValid (s : State) : (countDown s).rotValid = s.rotValid := rfl
@[simp] theorem countDown_payloadBits (s : State) : (countDown s).payloadBits = s.payloadBits := rfl
@[simp] theorem countDown_freq (s : State) : (countDown s).freq = s.freq := rfl
@[simp] theorem countDown_ct (s : State) : (countDown s).ct = s.ct := rfl
@[simp] theorem countDown_ctl (s : State) : (countDown s).ctl = s.ctl := rfl
@[simp] theorem countDown_stage (s : State) : (countDown s).stage = s.stage := rfl
@[simp] theorem countDown_dm (s : State) : (countDown s).dm = s.dm := rfl
@[simp] theorem countDown_host (s : State) : (countDown s).host = s.host := rfl
@[simp] theorem countDown_resp (s : State) : (countDown s).resp = s.resp := rfl
@[simp] theorem countDown_delay (s : State) : (countDown s).delay = s.delay - 1 := rfl
@[simp] theorem countDown_draws (s : State) : (countDown s).draws = s.draws := rfl

/-! ## launched -/

@[simp] theorem launched_cfg (w : Word) (s : State) : (launched w s).cfg = s.cfg := rfl
@[simp] theorem launched_irqEn (w : Word) (s : State) : (launched w s).irqEn = s.irqEn := rfl
@[simp] theorem launched_done (w : Word) (s : State) : (launched w s).done = s.done := rfl
@[simp] theorem launched_empty (w : Word) (s : State) : (launched w s).empty = s.empty := rfl
@[simp] theorem launched_ctValid (w : Word) (s : State) : (launched w s).ctValid = s.ctValid := rfl
@[simp] theorem launched_wbusy (w : Word) (s : State) : (launched w s).wbusy = s.wbusy := rfl
@[simp] theorem launched_errKind (w : Word) (s : State) : (launched w s).errKind = s.errKind := rfl
@[simp] theorem launched_errStage (w : Word) (s : State) : (launched w s).errStage = s.errStage := rfl
@[simp] theorem launched_cmd (w : Word) (s : State) : (launched w s).cmd = w := rfl
@[simp] theorem launched_srcAddr (w : Word) (s : State) : (launched w s).srcAddr = s.srcAddr := rfl
@[simp] theorem launched_srcLen (w : Word) (s : State) : (launched w s).srcLen = s.srcLen := rfl
@[simp] theorem launched_dstAddr (w : Word) (s : State) : (launched w s).dstAddr = s.dstAddr := rfl
@[simp] theorem launched_dstCap (w : Word) (s : State) : (launched w s).dstCap = s.dstCap := rfl
@[simp] theorem launched_dstLen (w : Word) (s : State) : (launched w s).dstLen = s.dstLen := rfl
@[simp] theorem launched_rotIdx (w : Word) (s : State) : (launched w s).rotIdx = s.rotIdx := rfl
@[simp] theorem launched_rotValid (w : Word) (s : State) : (launched w s).rotValid = s.rotValid := rfl
@[simp] theorem launched_payloadBits (w : Word) (s : State) : (launched w s).payloadBits = s.payloadBits := rfl
@[simp] theorem launched_freq (w : Word) (s : State) : (launched w s).freq = s.freq := rfl
@[simp] theorem launched_ct (w : Word) (s : State) : (launched w s).ct = s.ct := rfl
@[simp] theorem launched_ctl (w : Word) (s : State) : (launched w s).ctl = .busy := rfl
@[simp] theorem launched_stage (w : Word) (s : State) : (launched w s).stage = .ctrl := rfl
@[simp] theorem launched_dm (w : Word) (s : State) : (launched w s).dm = s.dm := rfl
@[simp] theorem launched_host (w : Word) (s : State) : (launched w s).host = s.host := rfl
@[simp] theorem launched_resp (w : Word) (s : State) : (launched w s).resp = s.resp := rfl
@[simp] theorem launched_delay (w : Word) (s : State) : (launched w s).delay = 0 := rfl
@[simp] theorem launched_draws (w : Word) (s : State) : (launched w s).draws = s.draws := rfl

end Sys2Proof.Machine
end

