-- ==== Sys2Proof/Laws/Commands.lean ====
section
/-! SUPPORT. What a command can do, said once: every meaning is the one frame over the command's own body, and the
frame either commits the body's result or records one error. -/

namespace Sys2Proof.Machine

/-- The body each command's meaning runs. -/
def bodyOf : Instr → Body
  | .nop => nopBody
  | .bwtEnc => bwtEncBody
  | .bwtDec => bwtDecBody
  | .mtfEnc => mtfEncBody
  | .mtfDec => mtfDecBody
  | .rleEnc => rleEncBody
  | .rleDec => rleDecBody
  | .hufBuild => hufBuildBody
  | .hufLoad => hufLoadBody
  | .hufEnc => hufEncBody
  | .hufDec => hufDecBody
  | .compress => compressBody
  | .decompress => decompressBody

/-- Every meaning is the frame over its body. -/
theorem exec_eq_runCommand (i : Instr) (s : State) : exec i s = runCommand i (bodyOf i) s := by
  cases i <;> rfl

/-- The two ways a command completes (R142). -/
theorem runCommand_cases (i : Instr) (body : Body) (s : State) :
    (∃ r, frame i body s = .ok r ∧ runCommand i body s = .next (commit i r s)) ∨
    (∃ e, frame i body s = .error e ∧ runCommand i body s = .next (raiseError e s)) := by
  unfold runCommand
  cases h : frame i body s with
  | ok r => exact .inl ⟨r, rfl, rfl⟩
  | error e => exact .inr ⟨e, rfl, rfl⟩

/-- The two ways a command of the table completes. -/
theorem exec_cases (i : Instr) (s : State) :
    (∃ r, frame i (bodyOf i) s = .ok r ∧ exec i s = .next (commit i r s)) ∨
    (∃ e, frame i (bodyOf i) s = .error e ∧ exec i s = .next (raiseError e s)) := by
  rw [exec_eq_runCommand]; exact runCommand_cases i (bodyOf i) s

theorem exec_of_frame_ok {i : Instr} {s : State} {r : Result} (h : frame i (bodyOf i) s = .ok r) :
    exec i s = .next (commit i r s) := by
  rw [exec_eq_runCommand, runCommand, h]

theorem exec_of_frame_error {i : Instr} {s : State} {e : CmdError} (h : frame i (bodyOf i) s = .error e) :
    exec i s = .next (raiseError e s) := by
  rw [exec_eq_runCommand, runCommand, h]

/-- The two answers of the capacity check. -/
theorem capacityCheck_of_le {i : Instr} {s : State} {r : Result}
    (h : writesDst i = true → r.out.length ≤ s.dstCap.toNat) : capacityCheck i s r = .ok r := by
  unfold capacityCheck
  cases hw : writesDst i
  · simp
  · have := h hw; simp; omega

theorem capacityCheck_of_lt {i : Instr} {s : State} {r : Result} (hw : writesDst i = true)
    (h : s.dstCap.toNat < r.out.length) : capacityCheck i s r = .error { kind := .capacity, stage := .ctrl } := by
  simp [capacityCheck, hw, h, raise]

theorem capacityCheck_ok {i : Instr} {s : State} {r r' : Result} (h : capacityCheck i s r = .ok r') :
    r' = r ∧ (writesDst i = true → r.out.length ≤ s.dstCap.toNat) := by
  unfold capacityCheck raise at h
  split at h
  · cases h
  · next hn =>
    cases h
    refine ⟨rfl, fun hw => ?_⟩
    simp [hw] at hn; exact hn

/-- The frame when its first checks pass: the body, then the capacity check (R143, R151). -/
theorem frame_of_checks {i : Instr} (body : Body) {s : State}
    (hr : readsSrc i = true → srcInBounds s = true ∧ s.srcLen.toNat ≤ s.cfg.seqMax)
    (hw : writesDst i = true → dstInBounds s = true) :
    frame i body s =
      match body (operandsOf s) (sourceOf i s) with
      | .error e => .error e
      | .ok r => capacityCheck i s r := by
  have h1 : (readsSrc i && !srcInBounds s) = false := by
    cases h : readsSrc i
    · rfl
    · simp [(hr h).1]
  have h2 : (writesDst i && !dstInBounds s) = false := by
    cases h : writesDst i
    · rfl
    · simp [hw h]
  have h3 : (readsSrc i && decide (s.srcLen.toNat > s.cfg.seqMax)) = false := by
    cases h : readsSrc i
    · rfl
    · have := (hr h).2; simp; omega
  unfold frame
  rw [h1, h2, h3]
  rfl

/-- What a success of the frame says: every check of R145 passed. -/
theorem frame_ok {i : Instr} {body : Body} {s : State} {r : Result} (h : frame i body s = .ok r) :
    (readsSrc i = true → srcInBounds s = true ∧ s.srcLen.toNat ≤ s.cfg.seqMax) ∧
    (writesDst i = true → dstInBounds s = true ∧ r.out.length ≤ s.dstCap.toNat) ∧
    body (operandsOf s) (sourceOf i s) = .ok r := by
  unfold frame raise at h
  split_ifs at h with h1 h2 h3
  have hr : readsSrc i = true → srcInBounds s = true ∧ s.srcLen.toNat ≤ s.cfg.seqMax := by
    intro hi; rw [hi] at h1 h3; simp at h1 h3; exact ⟨h1, h3⟩
  have hw : writesDst i = true → dstInBounds s = true := by
    intro hi; rw [hi] at h2; simpa using h2
  cases hb : body (operandsOf s) (sourceOf i s) with
  | error e => rw [hb] at h; cases h
  | ok r' =>
    rw [hb] at h
    obtain ⟨rfl, hc⟩ := capacityCheck_ok h
    exact ⟨hr, fun hi => ⟨hw hi, hc hi⟩, rfl⟩

/-- Reading back the bytes a commit wrote (R153). -/
theorem readBytes_commit {i : Instr} (r : Result) {s : State} (hw : writesDst i = true) (hm : Memory.wf s.dm = true) :
    (commit i r s).dm.readBytes s.dstAddr.toNat r.out.length = r.out := by
  rw [commit_dm, if_pos hw]; exact Memory.readBytes_writeBytes _ _ _ hm

/-- A commit leaves every byte outside the output alone (R86). -/
theorem read_commit_outside (i : Instr) (r : Result) (s : State) (a : Nat)
    (h : a < s.dstAddr.toNat ∨ s.dstAddr.toNat + r.out.length ≤ a) : (commit i r s).dm.read a = s.dm.read a := by
  rw [commit_dm]; split
  · exact Memory.read_writeBytes_outside _ _ _ _ h
  · rfl

theorem wf_commit (i : Instr) (r : Result) {s : State} (hm : Memory.wf s.dm = true) :
    Memory.wf (commit i r s).dm = true := by
  rw [commit_dm]; split
  · exact Memory.wf_writeBytes _ _ _ hm
  · exact hm

end Sys2Proof.Machine
end

