-- ==== Sys2Proof/Laws/Host.lean ====
section
/-! SUPPORT. What the host's ports and a host event can do, said once per operation. -/

namespace Sys2Proof.Machine

/-! ## The register map -/

@[simp] theorem Reg.offset_freq (b : Byte) : (Reg.freq b).offset = 0x400 + 4 * b.toNat := rfl

@[simp] theorem Reg.offset_codeLen (b : Byte) : (Reg.codeLen b).offset = 0x800 + 4 * b.toNat := rfl

/-- The offset of a register leads back to it (R31). -/
theorem regAt_offset (r : Reg) : regAt r.offset = some r := by
  cases r with
  | freq b =>
    have := b.isLt
    have hq : (0x400 + 4 * b.toNat - 0x400) / 4 = b.toNat := by omega
    rw [Reg.offset_freq, regAt, if_pos (by omega), hq, BitVec.ofNat_toNat, BitVec.setWidth_eq]
  | codeLen b =>
    have := b.isLt
    have hq : (0x800 + 4 * b.toNat - 0x800) / 4 = b.toNat := by omega
    rw [Reg.offset_codeLen, regAt, if_neg (by omega), if_pos (by omega), hq, BitVec.ofNat_toNat, BitVec.setWidth_eq]
  | _ => rfl

/-- The accesses the register window takes (R84). -/
theorem regAccessOk_iff (width off : Nat) :
    regAccessOk width off = true ↔ width = 4 ∧ off % 4 = 0 ∧ off < 4096 := by
  simp [regAccessOk, and_assoc]

/-- The accesses the data port takes (R82). -/
theorem dataAccessOk_iff (cfg : Config) (width addr : Nat) :
    dataAccessOk cfg width addr = true ↔
      (width = 1 ∨ width = 2 ∨ width = 4) ∧ addr % width = 0 ∧ addr + width ≤ cfg.memBytes := by
  simp [dataAccessOk, and_assoc, or_assoc]

/-- The offsets of the registers are aligned window offsets (R84). -/
theorem regAccessOk_offset (r : Reg) : regAccessOk 4 r.offset = true := by
  rw [regAccessOk_iff]
  cases r with
  | freq b => have := b.isLt; rw [Reg.offset_freq]; omega
  | codeLen b => have := b.isLt; rw [Reg.offset_codeLen]; omega
  | _ => decide

theorem readOffset_offset (r : Reg) (s : State) : readOffset r.offset s = readReg r s := by
  rw [readOffset, regAt_offset]

/-- What a read at the offset of a register returns, with the offset written as a number (R31). -/
theorem readOffset_of_offset {r : Reg} {off : Nat} (s : State) (h : r.offset = off) :
    readOffset off s = readReg r s := by
  rw [← h, readOffset_offset]

/-- The reserved offsets of R31 hold no register. -/
theorem regAt_reserved {off : Nat}
    (h : off = 0x00C ∨ off = 0x01C ∨ (0x040 ≤ off ∧ off ≤ 0x3FC) ∨ 0xC00 ≤ off) : regAt off = none := by
  unfold regAt
  rw [if_neg (by omega), if_neg (by omega)]
  simp [scalarRegs, Reg.offset]; omega

theorem writeOffset_offset (r : Reg) (v : Word) (s : State) : writeOffset r.offset v s = writeReg r v s := by
  rw [writeOffset, regAt_offset]

/-! ## The ports -/

/-- The three answers of the register window to a write. -/
theorem regWritePort_cases (width off : Nat) (v : Word) (s : State) :
    (regAccessOk width off = false ∧ regWritePort width off v s = .error .busError) ∨
    (regAccessOk width off = true ∧ s.ctl = .busy ∧ regWritePort width off v s = .ok { s with wbusy := true }) ∨
    (regAccessOk width off = true ∧ s.ctl = .idle ∧ regWritePort width off v s = .ok (writeOffset off v s)) := by
  cases h : regAccessOk width off <;> cases hc : s.ctl <;> simp [regWritePort, h, busy, hc]

/-- The two answers of the data port to a write. -/
theorem dataWritePort_cases (width addr : Nat) (v : Word) (s : State) :
    (dataAccessOk s.cfg width addr = false ∧ dataWritePort width addr v s = .error .busError) ∨
    (dataAccessOk s.cfg width addr = true ∧
      dataWritePort width addr v s = .ok { s with dm := s.dm.writeBytes addr (bytesOf width v.toNat) }) := by
  cases h : dataAccessOk s.cfg width addr <;> simp [dataWritePort, h]

/-- A data access that the port takes lies inside the memory (R82). -/
theorem dataAccessOk_bound {cfg : Config} {width addr : Nat} (h : dataAccessOk cfg width addr = true) :
    addr + width ≤ cfg.memBytes := by
  simp only [dataAccessOk, Bool.and_eq_true, decide_eq_true_eq] at h; exact h.2

/-! ## Writes to CTRL and STATUS -/

theorem writeCtrl_softReset {v : Word} (s : State) (h : v.getLsbD 1 = true) : writeCtrl v s = softReset s := by
  rw [writeCtrl, if_pos h]

theorem writeCtrl_start {v : Word} (s : State) (h1 : v.getLsbD 1 = false) (h0 : v.getLsbD 0 = true) :
    writeCtrl v s = startCommand { s with irqEn := v.getLsbD 2 } := by
  rw [writeCtrl, if_neg (by rw [h1]; decide), if_pos h0]

theorem writeCtrl_store {v : Word} (s : State) (h1 : v.getLsbD 1 = false) (h0 : v.getLsbD 0 = false) :
    writeCtrl v s = { s with irqEn := v.getLsbD 2 } := by
  rw [writeCtrl, if_neg (by rw [h1]; decide), if_neg (by rw [h0]; decide)]

theorem writeStatus_eq (v : Word) (s : State) :
    writeStatus v s = { s with done := s.done && !v.getLsbD 1, wbusy := s.wbusy && !v.getLsbD 5 } := by
  unfold writeStatus acknowledge
  cases v.getLsbD 1 <;> cases v.getLsbD 5 <;> simp

/-! ## Host events -/

/-- A register write while IDLE at an admitted offset (R157). -/
theorem hostStep_regWrite_idle {s : State} {off : Nat} {v : Word} {rest : List HostEvent} (hc : s.ctl = .idle)
    (hh : s.host = .regWrite 4 off v :: rest) (ho : regAccessOk 4 off = true) :
    hostStep s = answered .ok (writeOffset off v s) := by
  simp [hostStep, hh, regWritePort, ho, busy, hc, answerWrite]

/-- A register write while BUSY at an admitted offset (R42). -/
theorem hostStep_regWrite_busy {s : State} {off : Nat} {v : Word} {rest : List HostEvent} (hc : s.ctl = .busy)
    (hh : s.host = .regWrite 4 off v :: rest) (ho : regAccessOk 4 off = true) :
    hostStep s = answered .ok { s with wbusy := true } := by
  simp [hostStep, hh, regWritePort, ho, busy, hc, answerWrite]

theorem hostStep_regRead {s : State} {off : Nat} {rest : List HostEvent} (hh : s.host = .regRead 4 off :: rest)
    (ho : regAccessOk 4 off = true) : hostStep s = answered (.data (readOffset off s)) s := by
  simp [hostStep, hh, regReadPort, ho, answerRead]

theorem hostStep_memWrite {s : State} {w a : Nat} {v : Word} {rest : List HostEvent}
    (hh : s.host = .memWrite w a v :: rest) (ho : dataAccessOk s.cfg w a = true) :
    hostStep s = answered .ok { s with dm := s.dm.writeBytes a (bytesOf w v.toNat) } := by
  simp [hostStep, hh, dataWritePort, ho, answerWrite]

theorem hostStep_memRead {s : State} {w a : Nat} {rest : List HostEvent} (hh : s.host = .memRead w a :: rest)
    (ho : dataAccessOk s.cfg w a = true) :
    hostStep s = answered (.data (BitVec.ofNat 32 (littleEndian (s.dm.readBytes a w)))) s := by
  simp [hostStep, hh, dataReadPort, ho, answerRead]

/-- One read of STATUS by `WAIT` (R116). -/
theorem hostStep_waitIdle {s : State} {rest : List HostEvent} (hh : s.host = .waitIdle :: rest) :
    (s.ctl = .idle → hostStep s = { s with resp := .data (statusWord s), host := rest }) ∧
    (s.ctl = .busy → hostStep s = { s with resp := .data (statusWord s) }) := by
  constructor <;> intro hc <;> simp [hostStep, hh, pollStatus, busy, hc, answered]

/-- The two things the wait for IRQ does (R117). -/
theorem hostStep_waitIrq {s : State} {rest : List HostEvent} (hh : s.host = .waitIrq :: rest) :
    (irq s = true → hostStep s = { s with host := rest }) ∧ (irq s = false → hostStep s = s) := by
  constructor <;> intro hi <;> simp [hostStep, hh, pollIrq, hi]

/-- STATUS does not show the latency. -/
@[simp] theorem statusWord_countDown (s : State) : statusWord (countDown s) = statusWord s := rfl

@[simp] theorem length_bytesOf (n v : Nat) : (bytesOf n v).length = n := by
  induction n generalizing v with
  | zero => rfl
  | succ n ih => simp [bytesOf, ih]

/-- A write splits into its bytes and reads back in little-endian order (R85). -/
theorem littleEndian_bytesOf (n v : Nat) : littleEndian (bytesOf n v) = v % 256 ^ n := by
  induction n generalizing v with
  | zero => simp [bytesOf, littleEndian, Nat.mod_one]
  | succ n ih =>
    rw [bytesOf, littleEndian, ih, BitVec.toNat_ofNat, Nat.pow_succ' (n := n) (m := 256), Nat.mod_mul]

end Sys2Proof.Machine
end

