-- ==== Sys2Proof/Laws/PerInstr.lean ====
section
/-! SUPPORT. Statements made per instruction, one lemma per constructor: family `EncodedWord`, the shape of each
command's word (30_encoding.md R110, R112). -/

namespace Sys2Proof.Laws.EncodedWord

/-- The word of a well-formed command is legal, its MBZ field is zero, and its OPCODE is the command's. -/
def Statement (i : Instr) : Prop :=
  i.wellFormed = true ∧ legalWord (encode i) = true ∧ mbzField (encode i) = 0#24 ∧ opcodeField (encode i) = opcodeOf i

theorem nop : Statement .nop := by unfold Statement; decide
theorem bwtEnc : Statement .bwtEnc := by unfold Statement; decide
theorem bwtDec : Statement .bwtDec := by unfold Statement; decide
theorem mtfEnc : Statement .mtfEnc := by unfold Statement; decide
theorem mtfDec : Statement .mtfDec := by unfold Statement; decide
theorem rleEnc : Statement .rleEnc := by unfold Statement; decide
theorem rleDec : Statement .rleDec := by unfold Statement; decide
theorem hufBuild : Statement .hufBuild := by unfold Statement; decide
theorem hufLoad : Statement .hufLoad := by unfold Statement; decide
theorem hufEnc : Statement .hufEnc := by unfold Statement; decide
theorem hufDec : Statement .hufDec := by unfold Statement; decide
theorem compress : Statement .compress := by unfold Statement; decide
theorem decompress : Statement .decompress := by unfold Statement; decide

end Sys2Proof.Laws.EncodedWord
end

