-- ==== Sys2Proof/Laws/Step.lean ====
section
/-! SUPPORT. What one step can do, said once: an engine completion or one host event. -/

namespace Sys2Proof.Machine

/-- The engine's step: the decoded command, or the record of an illegal word. -/
theorem complete_cases (s : State) :
    (∃ i, decode s.cmd = .ok i ∧ complete s = exec i s) ∨
    (∃ x, decode s.cmd = .error x ∧
      complete s = .next (raiseError { kind := .illegalCommand, stage := .ctrl } s)) := by
  unfold complete completeIllegal
  cases h : decode s.cmd with
  | ok i => exact .inl ⟨i, rfl, rfl⟩
  | error x => exact .inr ⟨x, rfl, rfl⟩

/-- The three ways a step goes. -/
theorem step_cases (s : State) :
    (s.ctl = .idle ∧ step s = .next (hostStep s)) ∨
    (s.ctl = .busy ∧ completesNow s = true ∧ step s = complete s) ∨
    (s.ctl = .busy ∧ completesNow s = false ∧ step s = .next (hostStep (countDown s))) := by
  unfold step
  cases hc : s.ctl with
  | idle => exact .inl ⟨rfl, rfl⟩
  | busy => cases h : completesNow s <;> simp

theorem step_idle {s : State} (h : s.ctl = .idle) : step s = .next (hostStep s) := by
  unfold step; rw [h]

theorem step_engine {s : State} (h : s.ctl = .busy) (hn : completesNow s = true) : step s = complete s := by
  unfold step; rw [h]; simp [hn]

theorem step_host {s : State} (h : s.ctl = .busy) (hn : completesNow s = false) :
    step s = .next (hostStep (countDown s)) := by
  unfold step; rw [h]; simp [hn]

/-- While BUSY, a pending event that is not held goes first exactly when the free latency is not over. -/
theorem completesNow_cons {s : State} {e : HostEvent} {rest : List HostEvent} (h : s.host = e :: rest) :
    completesNow s = (s.delay == 0 || held e) := by
  unfold completesNow; rw [h]

/-- With nothing pending the completion is next. -/
theorem completesNow_nil {s : State} (h : s.host = []) : completesNow s = true := by
  unfold completesNow; rw [h]

/-- With the latency over the completion is next. -/
theorem completesNow_of_delay {s : State} (h : s.delay = 0) : completesNow s = true := by
  unfold completesNow; cases s.host <;> simp [h]

/-- The state `withFetchWord` makes runs its word in the very next step. -/
theorem step_launched (s : State) (w : Word) : step (launched w s) = complete (launched w s) :=
  step_engine rfl (completesNow_of_delay rfl)

end Sys2Proof.Machine
end

