-- ==== Sys2Proof/Tests/Slice0.lean ====
section
/-! SUPPORT. Small tests of single steps, with expected values taken from the spec's own examples and vectors
(95_test_vectors.md), and a witness for the hypotheses of every statement of Certificates/Slice0/Obligations.lean. -/

namespace Sys2Proof.Tests

set_option Elab.async false

open Sys2Proof.Machine Sys2Proof.Spec

/-! ## Well-formedness smoke tests: an ill-formed term for each check -/

theorem test_mbz_field_refused : legalWord 0x0000010B = false ∧ legalWord 0x8000000B = false := by decide

theorem test_reserved_opcode_refused : legalWord 0x0000000D = false ∧ legalWord 0x000000FF = false := by decide

theorem test_last_opcode_accepted : legalWord 0x0000000C = true := by decide

theorem test_zero_memory_refused : Config.wf { memBytes := 0, seqMax := 1 } = false := by decide

theorem test_large_memory_refused : Config.wf { memBytes := 2 ^ 24 + 1, seqMax := 1 } = false := by decide

theorem test_zero_sequence_refused : Config.wf { memBytes := 1, seqMax := 0 } = false := by decide

theorem test_large_sequence_refused : Config.wf { memBytes := 1, seqMax := 2 ^ 24 + 1 } = false := by decide

theorem test_memory_order_refused : Memory.wf [(2, 1), (1, 1)] = false ∧ Memory.wf [(1, 1), (1, 2)] = false := by decide

theorem test_memory_unlisted_value_refused : Memory.wf [(1, 0)] = false := by decide

/-! ## Decoding: every command's word, bit by bit from the table of R112 and the fields of R110 -/

theorem test_decode_nop : decode 0b00000000000000000000000000000000 = .ok .nop := by decide
theorem test_decode_bwt_enc : decode 0b00000000000000000000000000000001 = .ok .bwtEnc := by decide
theorem test_decode_bwt_dec : decode 0b00000000000000000000000000000010 = .ok .bwtDec := by decide
theorem test_decode_mtf_enc : decode 0b00000000000000000000000000000011 = .ok .mtfEnc := by decide
theorem test_decode_mtf_dec : decode 0b00000000000000000000000000000100 = .ok .mtfDec := by decide
theorem test_decode_rle_enc : decode 0b00000000000000000000000000000101 = .ok .rleEnc := by decide
theorem test_decode_rle_dec : decode 0b00000000000000000000000000000110 = .ok .rleDec := by decide
theorem test_decode_huf_build : decode 0b00000000000000000000000000000111 = .ok .hufBuild := by decide
theorem test_decode_huf_load : decode 0b00000000000000000000000000001000 = .ok .hufLoad := by decide
theorem test_decode_huf_enc : decode 0b00000000000000000000000000001001 = .ok .hufEnc := by decide
theorem test_decode_huf_dec : decode 0b00000000000000000000000000001010 = .ok .hufDec := by decide
theorem test_decode_compress : decode 0b00000000000000000000000000001011 = .ok .compress := by decide
theorem test_decode_decompress : decode 0b00000000000000000000000000001100 = .ok .decompress := by decide

/-- The reserved opcodes at both ends, and the lowest and the highest bit of MBZ (V-FR-3 to V-FR-6). -/
theorem test_decode_illegal :
    decode 0b00000000000000000000000000001101 = .error .reservedOpcode ∧
    decode 0b00000000000000000000000011111111 = .error .reservedOpcode ∧
    decode 0b00000000000000000000000100001011 = .error .mbzNotZero ∧
    decode 0b10000000000000000000000000001011 = .error .mbzNotZero := by decide

/-- No two rows of the opcode map overlap. -/
theorem test_opcode_map_distinct : opcodeMap.Pairwise (fun x y => x.1 ≠ y.1 ∧ x.2 ≠ y.2) := by decide

theorem test_decode_table_word :
    decodeTableWord 32 0x0C = some .decompress ∧ decodeTableWord 32 0x0D = none ∧ decodeTableWord 32 (2 ^ 32) = none := by
  decide

/-! ## Small states -/

/-- An idle state with `src` at address 0, the destination region at 0x100 with capacity `cap`, and the register
values that a command may read. -/
def idleState (src : List Byte) (cap : Nat) : State :=
  { State.reset with
    dm := Memory.writeBytes [] 0 src, srcLen := BitVec.ofNat 32 src.length, dstAddr := 0x100,
    dstCap := BitVec.ofNat 32 cap }

/-- `idleState` with rotation metadata. -/
def rotState (src : List Byte) (cap : Nat) (i : Word) (v : Bool) : State :=
  { idleState src cap with rotIdx := i, rotValid := v }

/-- The table of R262, from the frequencies of the RunList of "banana". -/
def bananaTable : CodeTable :=
  tableOf [(0x00, [false, false]), (0x01, [false, true]), (0x02, [true, false]), (0x63, [true, true, false]),
    (0x6E, [true, true, true])]

/-- The degenerate table of R244 for the byte 0x41. -/
def singleTable : CodeTable := tableOf [(0x41, [false])]

/-- `idleState` with an installed table and a payload bit count. -/
def tableState (ct : CodeTable) (src : List Byte) (cap : Nat) (n : Word) : State :=
  { idleState src cap with ct := ct, ctValid := true, payloadBits := n }

/-- The same state with another sequence limit. -/
def withSeqMax (n : Nat) (s : State) : State := { s with cfg := { memBytes := 65536, seqMax := n } }

/-- The same state with other host events pending. -/
def withHost (events : List HostEvent) (s : State) : State := { s with host := events }

/-- BUSY with command word `w`, a latency of `n` host events, and `events` pending. -/
def busyState (w : Word) (n : Nat) (events : List HostEvent) : State :=
  { State.reset with cmd := w, ctl := .busy, stage := .ctrl, delay := n, host := events }

/-- The next state, when there is one. -/
def following (s : State) (o : Host.Outcome State Fault Refusal) : State :=
  match o with
  | .next t => t
  | .fault _ => s
  | .refused _ => s

/-- The state after a command. -/
def after (i : Instr) (s : State) : State := following s (exec i s)

/-- The output bytes and STATUS after a command. -/
def outcome (i : Instr) (s : State) : List Byte × Word :=
  ((after i s).dm.readBytes s.dstAddr.toNat (after i s).dstLen.toNat, statusWord (after i s))

/-! ## One or two tests per command -/

/-- R160: NOP on region registers out of bounds (V-FR-2). -/
theorem test_nop_ignores_regions :
    outcome .nop { State.reset with srcAddr := 0xFFFFFFFF, srcLen := 0xFFFFFFFF, dstCap := 0xFFFFFFFF } = ([], 0x0002) := by
  decide +kernel

/-- V-BWT-1. -/
theorem test_bwt_enc_banana :
    outcome .bwtEnc (idleState [0x62, 0x61, 0x6E, 0x61, 0x6E, 0x61] 6) =
      ([0x6E, 0x6E, 0x62, 0x61, 0x61, 0x61], 0x0002) ∧
    (after .bwtEnc (idleState [0x62, 0x61, 0x6E, 0x61, 0x6E, 0x61] 6)).rotIdx = 3 := by decide +kernel

/-- V-BWT-5: the tie-break on a periodic block. -/
theorem test_bwt_enc_periodic :
    outcome .bwtEnc (idleState [0x61, 0x62, 0x61, 0x62] 4) = ([0x62, 0x62, 0x61, 0x61], 0x0002) ∧
    (after .bwtEnc (rotState [0x61, 0x62, 0x61, 0x62] 4 7 false)).rotIdx = 0 := by decide +kernel

/-- V-BWT-20. -/
theorem test_bwt_dec_banana :
    outcome .bwtDec (rotState [0x6E, 0x6E, 0x62, 0x61, 0x61, 0x61] 6 3 true) =
      ([0x62, 0x61, 0x6E, 0x61, 0x6E, 0x61], 0x0002) := by decide +kernel

/-- V-BWT-31, V-BWT-24: LF with two cycles is no error; an index out of range is one. -/
theorem test_bwt_dec_corners :
    outcome .bwtDec (rotState [0x61, 0x62] 2 0 true) = ([0x61, 0x61], 0x0002) ∧
    (outcome .bwtDec (rotState [0x61, 0x62] 2 2 true)).2 = 0x2106 := by decide +kernel

/-- V-MTF-1. -/
theorem test_mtf_enc_banana :
    outcome .mtfEnc (idleState [0x6E, 0x6E, 0x62, 0x61, 0x61, 0x61] 6) =
      ([0x6E, 0x00, 0x63, 0x63, 0x00, 0x00], 0x0002) := by decide +kernel

/-- V-MTF-5: both directions. -/
theorem test_mtf_dec_top_index :
    outcome .mtfDec (idleState [0xFF, 0xFF, 0x00] 3) = ([0xFF, 0xFE, 0xFE], 0x0002) := by decide +kernel

/-- V-RLE-1. -/
theorem test_rle_enc_banana :
    outcome .rleEnc (idleState [0x6E, 0x00, 0x63, 0x63, 0x00, 0x00] 8) =
      ([0x01, 0x6E, 0x01, 0x00, 0x02, 0x63, 0x02, 0x00], 0x0002) := by decide +kernel

/-- V-RLE-5: a run of 256 is split. -/
theorem test_rle_enc_split_run : rleEncode (List.replicate 256 0x41) = [0xFF, 0x41, 0x01, 0x41] := by decide +kernel

/-- V-RLE-24: a run list that is not maximal is accepted. -/
theorem test_rle_dec_not_maximal :
    outcome .rleDec (idleState [0x01, 0x41, 0x01, 0x41] 2) = ([0x41, 0x41], 0x0002) := by decide +kernel

/-- V-RLE-26, V-RLE-30: the odd length first; the limit at the second pair. -/
theorem test_rle_dec_errors :
    (outcome .rleDec (idleState [0x00, 0x41, 0x01] 9)).2 = 0x4206 ∧
    (outcome .rleDec (withSeqMax 4 (idleState [0x03, 0x41, 0x02, 0x42] 9))).2 = 0x4A06 := by decide +kernel

/-- V-HT-1 and the trace of R262. -/
theorem test_huf_build_banana :
    outcome .hufBuild (idleState [0x01, 0x6E, 0x01, 0x00, 0x02, 0x63, 0x02, 0x00] 17) =
      ([0x05, 0x00, 0x00, 0x02, 0x00, 0x01, 0x02, 0x40, 0x02, 0x02, 0x80, 0x63, 0x03, 0xC0, 0x6E, 0x03, 0xE0], 0x0012) ∧
    readOffset 0x400 (after .hufBuild (idleState [0x01, 0x6E, 0x01, 0x00, 0x02, 0x63, 0x02, 0x00] 17)) = 2 ∧
    readOffset 0x98C (after .hufBuild (idleState [0x01, 0x6E, 0x01, 0x00, 0x02, 0x63, 0x02, 0x00] 17)) = 3 := by
  decide +kernel

/-- V-HT-9: the lighter leaf goes left, and the internal node loses to the leaf of equal weight. -/
theorem test_huf_build_ties :
    (outcome .hufBuild (idleState [0x61, 0x61, 0x61, 0x62, 0x62, 0x63] 99)).1 =
      [0x03, 0x00, 0x61, 0x01, 0x00, 0x62, 0x02, 0xC0, 0x63, 0x02, 0x80] := by decide +kernel

/-- V-HT-27: a code of nine bits; every frequency of a loaded table is 0. -/
theorem test_huf_load_long_code :
    outcome .hufLoad (idleState [0x01, 0x00, 0x41, 0x09, 0xFF, 0x00] 0) = ([], 0x0012) ∧
    entry (after .hufLoad (idleState [0x01, 0x00, 0x41, 0x09, 0xFF, 0x00] 0)).ct 0x41 =
      [true, true, true, true, true, true, true, true, false] ∧
    readOffset 0x504 (after .hufLoad (idleState [0x01, 0x00, 0x41, 0x09, 0xFF, 0x00] 0)) = 0 := by decide +kernel

/-- V-HT-23, V-HT-28 to V-HT-37: each check of the table parse. -/
theorem test_huf_load_errors :
    (outcome .hufLoad (idleState [0x00] 0)).2 = 0x5406 ∧
    ∀ t ∈ ([[0x01, 0x01], [0x01, 0x00, 0x41], [0x01, 0x00, 0x41, 0x09, 0xFF],
        [0x02, 0x00, 0x41, 0x01, 0x00, 0x41, 0x01, 0x80], [0x02, 0x00, 0x42, 0x01, 0x00, 0x41, 0x01, 0x80],
        [0x01, 0x00, 0x41, 0x00], [0x01, 0x00, 0x41, 0x01, 0x40], [0x02, 0x00, 0x41, 0x01, 0x00, 0x42, 0x02, 0x00],
        [0x02, 0x00, 0x41, 0x01, 0x00, 0x42, 0x01, 0x00], [0x00, 0x00, 0x00]] : List (List Byte)),
      (outcome .hufLoad (idleState t 0)).2 = 0x5506 := by decide +kernel

/-- V-HB-1. -/
theorem test_huf_enc_banana :
    outcome .hufEnc (tableState bananaTable [0x01, 0x6E, 0x01, 0x00, 0x02, 0x63, 0x02, 0x00] 3 0) =
      ([0x7A, 0x5A, 0x00], 0x0012) ∧
    (after .hufEnc (tableState bananaTable [0x01, 0x6E, 0x01, 0x00, 0x02, 0x63, 0x02, 0x00] 3 0)).payloadBits = 18 := by
  decide +kernel

/-- V-HB-8, V-HB-8a: a byte with no code; no table. -/
theorem test_huf_enc_errors :
    (outcome .hufEnc (tableState bananaTable [0x00, 0x07] 9 0)).2 = 0x6616 ∧
    (outcome .hufEnc (idleState [0x41] 9)).2 = 0x6406 := by decide +kernel

/-- V-HB-9. -/
theorem test_huf_dec_banana :
    outcome .hufDec (tableState bananaTable [0x7A, 0x5A, 0x00] 8 18) =
      ([0x01, 0x6E, 0x01, 0x00, 0x02, 0x63, 0x02, 0x00], 0x0012) := by decide +kernel

/-- V-HB-11, V-HB-12, V-HB-16: a padding bit of 1, a wrong length, a missing child. -/
theorem test_huf_dec_errors :
    (outcome .hufDec (tableState bananaTable [0x7A, 0x5A, 0x01] 8 18)).2 = 0x6316 ∧
    (outcome .hufDec (tableState bananaTable [0x7A, 0x5A] 8 18)).2 = 0x6316 ∧
    (outcome .hufDec (tableState singleTable [0x20] 8 3)).2 = 0x6316 := by decide +kernel

/-- The blob of V-ORC-1. -/
def bananaBlob : List Byte :=
  [0x05, 0x00, 0x00, 0x02, 0x00, 0x01, 0x02, 0x40, 0x02, 0x02, 0x80, 0x63, 0x03, 0xC0, 0x6E, 0x03, 0xE0, 0x7A, 0x5A, 0x00]

/-- V-ORC-1. -/
theorem test_compress_banana :
    outcome .compress (idleState [0x62, 0x61, 0x6E, 0x61, 0x6E, 0x61] 20) = (bananaBlob, 0x0012) ∧
    (after .compress (idleState [0x62, 0x61, 0x6E, 0x61, 0x6E, 0x61] 20)).rotIdx = 3 ∧
    (after .compress (idleState [0x62, 0x61, 0x6E, 0x61, 0x6E, 0x61] 20)).payloadBits = 18 := by decide +kernel

/-- V-ORC-4: the degenerate tree. -/
theorem test_compress_degenerate :
    outcome .compress (idleState [0x01] 6) = ([0x01, 0x00, 0x01, 0x01, 0x00, 0x00], 0x0012) := by decide +kernel

/-- V-ORC-10. -/
theorem test_decompress_banana :
    outcome .decompress { rotState bananaBlob 6 3 true with payloadBits := 18 } =
      ([0x62, 0x61, 0x6E, 0x61, 0x6E, 0x61], 0x0012) := by decide +kernel

/-- V-ORC-13, V-ORC-14, V-ORC-19, V-ORC-20: an error of each stage that can fail, with CT_VALID = 0 before. -/
theorem test_decompress_errors :
    (outcome .decompress (idleState [0x06, 0x00] 6)).2 = 0x5506 ∧
    (outcome .decompress { rotState [0x00, 0x00] 6 0 false with payloadBits := 1 }).2 = 0x6306 ∧
    (outcome .decompress { rotState [0x01, 0x00, 0x00, 0x01, 0x00, 0x00] 6 0 true with payloadBits := 2 }).2 = 0x4206 ∧
    (outcome .decompress (rotState [0x00, 0x00] 6 0 true)).2 = 0x2106 := by decide +kernel

/-- The frame (V-FR-3, V-FR-14, V-FR-17): an illegal word, the capacity, the source length. -/
theorem test_frame_errors :
    statusWord (following State.reset (step (busyState 0x0000000D 0 []))) = 0x1906 ∧
    (outcome .bwtEnc (idleState [0x62, 0x61, 0x6E, 0x61, 0x6E, 0x61] 5)).2 = 0x1706 ∧
    (outcome .mtfEnc (withSeqMax 4 (idleState [1, 2, 3, 4, 5] 9))).2 = 0x1A06 ∧
    (outcome .mtfEnc { idleState [1, 2, 3, 4, 5] 9 with srcAddr := 65532 }).2 = 0x1806 ∧
    (outcome .mtfEnc { idleState [1, 2, 3, 4, 5] 9 with dstAddr := 65528 }).2 = 0x1806 := by decide +kernel

/-- V-FR-19: source and destination the same region. -/
theorem test_overlapping_regions :
    outcome .mtfEnc { idleState [0x6E, 0x6E, 0x62, 0x61, 0x61, 0x61] 6 with dstAddr := 0 } =
      ([0x6E, 0x00, 0x63, 0x63, 0x00, 0x00], 0x0002) := by decide +kernel

/-! ## The step and the host -/

/-- The word placed by `withFetchWord` runs in the next step. -/
theorem test_fetch_word_runs (i : Instr) :
    step (State.reset.withFetchWord 32 (encode i).toNat) = exec i (State.reset.withFetchWord 32 (encode i).toNat) := by
  have h : decode (launched (BitVec.ofNat 32 (encode i).toNat) State.reset).cmd = .ok i := by cases i <;> decide
  show step (launched _ _) = exec i (launched _ _)
  rw [step_launched, complete, h]

/-- The kernel evaluates the first step after reset: BWT_ENC of the empty block (V-BWT-2). -/
theorem test_fetch_word_bwt_enc :
    statusWord (following State.reset (step (State.reset.withFetchWord 32 0x01))) = 0x0A := by decide +kernel

/-- R82, R85: a 4-byte write is little-endian; a 2-byte read at its middle. -/
theorem test_data_port_little_endian :
    (hostStep (withHost [.memRead 2 66] (hostStep (withHost [.memWrite 4 64 0x616E6162] State.reset)))).resp =
      .data 0x616E := by decide +kernel

/-- R83: the last word of memory is there, and the access one past it gets a bus error. -/
theorem test_data_port_edge :
    (hostStep (withHost [.memRead 4 65532] State.reset)).resp = .data 0 ∧
    (hostStep (withHost [.memRead 4 65536] State.reset)).resp = .busError ∧
    (hostStep (withHost [.memRead 2 65535] State.reset)).resp = .busError := by decide +kernel

/-- Program P2, lines 5 to 7: IRQ after an error with IRQ_EN = 1, and after `CLRDONE`. -/
theorem test_irq_and_acknowledge :
    irq (after .bwtDec { rotState [0x61] 1 6 true with irqEn := true }) = true ∧
    statusWord (after .bwtDec { rotState [0x61] 1 6 true with irqEn := true }) = 0x2106 ∧
    statusWord (hostStep (withHost Script.clrDone (after .bwtDec { rotState [0x61] 1 6 true with irqEn := true }))) = 0x2104 ∧
    irq (hostStep (withHost Script.clrDone (after .bwtDec { rotState [0x61] 1 6 true with irqEn := true }))) = false := by
  decide +kernel

/-- Program P5: both traces are steps of the model, by the latency: the write of SRC_LEN after the completion is
stored, and before it lost with WBUSY set. -/
theorem test_write_hazard :
    (hostStep (withHost [Script.wr .srcLen 1] (after .mtfEnc (idleState [0x61, 0x62] 2)))).srcLen = 1 ∧
    (following State.reset (step { busyState 0x3 1 [Script.wr .srcLen 1] with srcLen := 2 })).srcLen = 2 ∧
    (following State.reset (step { busyState 0x3 1 [Script.wr .srcLen 1] with srcLen := 2 })).wbusy = true := by
  decide +kernel

/-! ## Witnesses: for every statement with hypotheses, states and operands that meet them, clause by clause -/

/-- A command of the table always has a next state. -/
theorem exec_after (i : Instr) (s : State) : exec i s = .next (after i s) := by
  obtain ⟨r, -, h⟩ | ⟨e, -, h⟩ := exec_cases i s <;> simp [after, following, h]

/-- DecodeAcceptsExactlyTheThirteenWords: the last legal word, the first illegal one, the last word. -/
theorem witness_decode :
    (0x0C : Word).toNat ≤ 0x0C ∧ decode 0x0C = .ok .decompress ∧ 0x0C < (0x0D : Word).toNat ∧
    0x0C < (0xFFFFFFFF : Word).toNat := by decide

/-- StepRunsTheDecodedCommand, IllegalWordReportsIllegalCommand: the four ways the completion is next. -/
theorem witness_engine_first (w : Word) :
    EngineFirst (busyState w 5 []) ∧ EngineFirst (busyState w 5 [.memRead 1 0]) ∧
    EngineFirst (busyState w 5 [.waitIrq]) ∧ EngineFirst (busyState w 0 [.regRead 4 0]) ∧
    (busyState w 5 []).ctl = .busy ∧ decode (busyState 0x0C 5 []).cmd = .ok .decompress ∧
    decode (busyState 0x0D 5 []).cmd = .error .reservedOpcode ∧
    decode (busyState 0x100 5 []).cmd = .error .mbzNotZero :=
  ⟨.inl rfl, .inr (.inl (.inr ⟨1, 0, [], rfl⟩)), .inr (.inr (.inl ⟨[], rfl⟩)), .inr (.inr (.inr rfl)), rfl, by decide,
    by decide, by decide⟩

/-- DataPortAccessIsHeldWhileBusy: a write and a read. -/
theorem witness_data_port_pending :
    DataPortPending (busyState 0x0B 5 [.memWrite 4 65532 1]) ∧ DataPortPending (busyState 0x0B 5 [.memRead 1 0]) ∧
    (busyState 0x0B 5 [.memRead 1 0]).ctl = .busy :=
  ⟨.inl ⟨4, 65532, 1, [], rfl⟩, .inr ⟨1, 0, [], rfl⟩, rfl⟩

/-- RegisterWriteWhileBusyIsLost, and the BUSY clauses of StartBeginsTheCommand, SoftResetClearsAllButMemory and
ReadOnlyAndReservedIgnoreWrites: the offset `off` at both ends of the window, and CTRL. -/
theorem witness_write_while_busy (off : Nat) (v : Word) :
    (busyState 0x0B 1 [.regWrite 4 off v]).ctl = .busy ∧ (busyState 0x0B 1 [.regWrite 4 off v]).delay ≠ 0 ∧
    (busyState 0x0B 1 [.regWrite 4 off v]).host = .regWrite 4 off v :: [] ∧
    (0x000 % 4 = 0 ∧ 0x000 < 4096) ∧ (0xFFC % 4 = 0 ∧ 0xFFC < 4096) ∧ (0x010 % 4 = 0 ∧ 0x010 < 4096) :=
  ⟨rfl, Nat.one_ne_zero, rfl, by decide, by decide, by decide⟩

/-- The idle clauses of the same statements, of CtrlWriteStoresIrqEnable, StatusWriteClearsDoneAndWbusy and
RegisterWriteIsStored: any write is the next event of an idle state. -/
theorem witness_write_while_idle (off : Nat) (v : Word) :
    (withHost [.regWrite 4 off v] State.reset).ctl = .idle ∧
    (withHost [.regWrite 4 off v] State.reset).host = .regWrite 4 off v :: [] := ⟨rfl, rfl⟩

/-- The values written to CTRL: START alone, with IRQ_EN, SOFT_RESET with everything, IRQ_EN alone. -/
theorem witness_ctrl_values :
    ((0x1 : Word).getLsbD 0 = true ∧ (0x1 : Word).getLsbD 1 = false) ∧
    ((0x5 : Word).getLsbD 0 = true ∧ (0x5 : Word).getLsbD 1 = false) ∧ (0xFFFFFFFF : Word).getLsbD 1 = true ∧
    ((0xFFFFFFFC : Word).getLsbD 0 = false ∧ (0xFFFFFFFC : Word).getLsbD 1 = false) := by decide

/-- RegisterWriteIsStored: each offset it names is aligned and in the window, META among them, with another offset to
compare. -/
theorem witness_stored_offsets :
    (0x018 ∈ plainRw ∧ 0x03C ∈ plainRw ∧ 0x038 ∉ plainRw) ∧ (0xFFC % 4 = 0 ∧ 0xFFC < 4096 ∧ 0xFFC ≠ 0x03C) := by decide

/-- ReadOnlyAndReservedIgnoreWrites: the boundary offsets of each range; the arrays are read-only and not reserved. -/
theorem witness_ignored_offsets :
    Ignored 0x000 ∧ Ignored 0x030 ∧ Ignored 0x040 ∧ Ignored 0x400 ∧ Ignored 0xFFC ∧ Reserved 0x00C ∧ Reserved 0x01C ∧
    Reserved 0x040 ∧ Reserved 0x3FC ∧ Reserved 0xC00 ∧ ¬ Reserved 0x400 ∧ ¬ Reserved 0xBFC ∧ ¬ Ignored 0x03C := by
  unfold Ignored Reserved; omega

/-- HardwareResetKeepsMemoryOutsideTheDestination: both states of the controller. -/
theorem witness_hard_reset :
    (withHost [.hardReset] State.reset).host = .hardReset :: [] ∧ (withHost [.hardReset] State.reset).ctl = .idle ∧
    (busyState 0x0B 1 [.hardReset]).host = .hardReset :: [] ∧ (busyState 0x0B 1 [.hardReset]).ctl = .busy ∧
    (busyState 0x0B 1 [.hardReset]).delay ≠ 0 := ⟨rfl, rfl, rfl, rfl, by decide⟩

/-- ResetValues, ResetStateIsSound: parameters at both ends of their range, and a memory that is not empty. -/
theorem witness_parameters :
    Config.wf { memBytes := 1, seqMax := 1 } = true ∧ Config.wf { memBytes := 2 ^ 24, seqMax := 2 ^ 24 } = true ∧
    Memory.wf [(0, 1)] = true ∧ MemoryBounded { memBytes := 1, seqMax := 1 } [(0, 1)] := by
  unfold MemoryBounded; decide

/-- RegisterAccessAnswers: an access that is taken, and one of each kind that is not; idle, and while BUSY. -/
theorem witness_register_accesses :
    (withHost [.regRead 4 0xFFC] State.reset).host = .regRead 4 0xFFC :: [] ∧
    ((withHost [.regRead 4 0xFFC] State.reset).ctl = .busy → (withHost [.regRead 4 0xFFC] State.reset).delay ≠ 0) ∧
    (busyState 0x0B 1 [.regRead 2 0]).host = .regRead 2 0 :: [] ∧ (busyState 0x0B 1 [.regRead 2 0]).delay ≠ 0 ∧
    ((4 = 4 ∧ 0xFFC % 4 = 0 ∧ 0xFFC < 4096) ∧ ¬ (2 = 4 ∧ 0 % 4 = 0 ∧ 0 < 4096) ∧ ¬ (4 = 4 ∧ 2 % 4 = 0 ∧ 2 < 4096) ∧
      ¬ (4 = 4 ∧ 4096 % 4 = 0 ∧ 4096 < 4096)) :=
  ⟨rfl, fun h => absurd h (by decide), rfl, by decide, by decide⟩

/-- HostWaitsForIdleOrIrq: the wait for BUSY = 0 in both states of the controller, the wait for IRQ with IRQ asserted, with
IRQ_EN = 0 and with DONE = 0. -/
theorem witness_wait :
    ((withHost [.waitIdle] State.reset).host = .waitIdle :: [] ∧ (withHost [.waitIdle] State.reset).ctl = .idle) ∧
    ((busyState 0x0B 1 [.waitIdle]).host = .waitIdle :: [] ∧ (busyState 0x0B 1 [.waitIdle]).ctl = .busy ∧
      (busyState 0x0B 1 [.waitIdle]).delay ≠ 0) ∧
    (withHost [.waitIrq] State.reset).host = .waitIrq :: [] ∧
    (withHost [.waitIrq] { State.reset with irqEn := true, done := true }).ctl = .idle ∧
    irq (withHost [.waitIrq] { State.reset with irqEn := true, done := true }) = true ∧
    (withHost [.waitIrq] { State.reset with irqEn := true }).done = false ∧
    (withHost [.waitIrq] { State.reset with done := true }).irqEn = false :=
  ⟨⟨rfl, rfl⟩, ⟨rfl, rfl, Nat.one_ne_zero⟩, rfl, rfl, rfl, rfl, rfl⟩

/-- RegisterAccessAnswers: the clauses of the register map with a hypothesis; a code of 255 bits fits bits 7:0. -/
theorem witness_window_reads :
    State.reset.cfg.wf = true ∧
    (entry (tableOf [(0x41, List.replicate 255 true)]) 0x41).length ≤ 255 ∧ Reserved 0xFFC := by
  refine ⟨by decide, by decide +kernel, ?_⟩
  unfold Reserved; omega

/-- DataPortReadIsLittleEndian, DataPortWriteChangesExactlyItsBytes, BadDataPortAccessGetsABusError: the last word of
memory, and a width, an alignment and an end that are refused. -/
theorem witness_data_port :
    Memory.wf State.reset.dm = true ∧ (withHost [.memRead 4 65532] State.reset).ctl = .idle ∧
    (withHost [.memRead 4 65532] State.reset).host = .memRead 4 65532 :: [] ∧
    (withHost [.memWrite 4 65532 7] State.reset).host = .memWrite 4 65532 7 :: [] ∧
    (65532 % 4 = 0 ∧ 65532 + 4 ≤ State.reset.cfg.memBytes) ∧
    (65535 % 1 = 0 ∧ 65535 + 1 ≤ State.reset.cfg.memBytes) ∧
    (¬ ((3 = 1 ∨ 3 = 2 ∨ 3 = 4) ∧ 0 % 3 = 0 ∧ 0 + 3 ≤ State.reset.cfg.memBytes)) ∧
    (¬ ((2 = 1 ∨ 2 = 2 ∨ 2 = 4) ∧ 1 % 2 = 0 ∧ 1 + 2 ≤ State.reset.cfg.memBytes)) ∧
    ¬ ((4 = 1 ∨ 4 = 2 ∨ 4 = 4) ∧ 65536 % 4 = 0 ∧ 65536 + 4 ≤ State.reset.cfg.memBytes) := by decide

/-- IrqFollowsDoneAndEnable: the step it speaks of is there for each of its events. -/
theorem witness_irq (e : HostEvent) :
    (withHost [e] State.reset).ctl = .idle ∧ (withHost [e] State.reset).host = e :: [] ∧
    step (withHost [e] State.reset) = .next (hostStep (withHost [e] State.reset)) ∧ (0x2 : Word).getLsbD 1 = true ∧
    (0x0 : Word).getLsbD 2 = false := ⟨rfl, rfl, step_idle rfl, by decide, by decide⟩

/-- RegionBoundsAreChecked, SourceLengthIsChecked and the frame's clauses of every command: one byte past the end in
the source and in the destination, one byte too long, and a state that is ready with both regions at the end. -/
theorem witness_frame_clauses :
    (Sound { idleState [1] 1 with srcAddr := 65536 } ∧ ¬ SrcFits { idleState [1] 1 with srcAddr := 65536 }) ∧
    (Sound { idleState [1] 1 with dstAddr := 65536 } ∧ SrcFits { idleState [1] 1 with dstAddr := 65536 } ∧
      ¬ DstFits { idleState [1] 1 with dstAddr := 65536 }) ∧
    (Sound (withSeqMax 1 (idleState [1, 2] 1)) ∧ SrcFits (withSeqMax 1 (idleState [1, 2] 1)) ∧
      DstFits (withSeqMax 1 (idleState [1, 2] 1)) ∧ ¬ SrcShort (withSeqMax 1 (idleState [1, 2] 1))) ∧
    (Sound { idleState [1] 1 with srcAddr := 65535, dstAddr := 65535 } ∧
      Ready { idleState [1] 1 with srcAddr := 65535, dstAddr := 65535 }) ∧
    State.reset.cfg.memBytes ≤ State.reset.cfg.seqMax := by decide

/-- The CAPACITY clause and the commit clause of BWT_ENC, BWT_DEC, MTF_ENC, MTF_DEC, whose output has the length of the
source. -/
theorem witness_capacity :
    (Ready (idleState [1, 2] 1) ∧ (idleState [1, 2] 1).dstCap.toNat < (idleState [1, 2] 1).srcLen.toNat) ∧
    (Ready (idleState [1, 2] 2) ∧ (idleState [1, 2] 2).srcLen.toNat ≤ (idleState [1, 2] 2).dstCap.toNat) := by decide

/-- FailedCommandChangesOnlyTheRecord, RetryGivesTheSameError, ErrorsAreTheCommandsOwn, CommandWritesOnlyItsOutput: a
command that fails. -/
theorem witness_failure :
    exec .mtfEnc (idleState [1, 2] 1) = .next (after .mtfEnc (idleState [1, 2] 1)) ∧
    (after .mtfEnc (idleState [1, 2] 1)).errKind ≠ .none := ⟨exec_after _ _, by decide +kernel⟩

/-- CommandWritesOnlyItsOutput, CommandWritesOnlyItsResultRegisters, EmptyIsTheRawSide: a success of each of the four
kinds of command. -/
theorem witness_success :
    (exec .nop State.reset = .next (after .nop State.reset) ∧ (after .nop State.reset).errKind = .none) ∧
    (exec .mtfEnc (idleState [1] 1) = .next (after .mtfEnc (idleState [1] 1)) ∧
      (after .mtfEnc (idleState [1] 1)).errKind = .none) ∧
    (exec .rleDec (idleState [1, 1] 1) = .next (after .rleDec (idleState [1, 1] 1)) ∧
      (after .rleDec (idleState [1, 1] 1)).errKind = .none) ∧
    (exec .hufLoad (idleState [0, 0] 0) = .next (after .hufLoad (idleState [0, 0] 0)) ∧
      (after .hufLoad (idleState [0, 0] 0)).errKind = .none) :=
  ⟨⟨exec_after _ _, by decide +kernel⟩, ⟨exec_after _ _, by decide +kernel⟩, ⟨exec_after _ _, by decide +kernel⟩,
    ⟨exec_after _ _, by decide +kernel⟩⟩

/-- OutcomeDependsOnlyOnTheInputs: two states that agree on the inputs and differ elsewhere. -/
theorem witness_same_inputs :
    Memory.wf (idleState [1] 1).dm = true ∧ Memory.wf (Memory.write (idleState [1] 1).dm 9 9) = true ∧
    src (idleState [1] 1) = src { idleState [1] 1 with dm := Memory.write (idleState [1] 1).dm 9 9, dstLen := 7 } ∧
    (idleState [1] 1).dm ≠ Memory.write (idleState [1] 1).dm 9 9 := by decide +kernel

/-- The same for the clause on FREQ: a success of HUF_BUILD from two states that differ in FREQ. -/
theorem witness_same_inputs_freq :
    src (idleState [1] 9) = src { idleState [1] 9 with freq := Vector.replicate 256 7 } ∧
    (after .hufBuild (idleState [1] 9)).errKind = .none ∧
    (idleState [1] 9).freq ≠ Vector.replicate 256 7 := by decide +kernel

/-! ### The relations of the units -/

theorem witness_sorted_order : SortedOrder [0x62, 0x61] [1, 0] := by
  unfold SortedOrder CycLess; decide

/-- RotationOrderIsStrictTotal: a chain of three, and two equal rotations. -/
theorem witness_rotation_chain :
    CycLess [1, 2, 3] 0 1 ∧ CycLess [1, 2, 3] 1 2 ∧ CycLess [1, 1] 0 1 ∧ 1 < ([1, 1] : List Byte).length := by
  unfold CycLess; decide

/-- BwtRoundTrips: a block, and the empty one. -/
theorem witness_forward : Forward [0x62, 0x61] [0x62, 0x61] 1 true ∧ Forward [] [] 0 false :=
  ⟨.block [1, 0] (by decide) witness_sorted_order, .empty rfl⟩

/-- BWT_DEC: each outcome. -/
theorem witness_bwt_decodes :
    BwtDecodes 0 true [] (.error ⟨.invalidIndex, .bwt⟩) ∧ BwtDecodes 0 false [1] (.error ⟨.missingMetadata, .bwt⟩) ∧
    BwtDecodes 1 true [1] (.error ⟨.invalidIndex, .bwt⟩) ∧ BwtDecodes 0 false [] (.ok []) ∧
    BwtDecodes 0 true [0x62, 0x61] (.ok [0x61, 0x62]) :=
  ⟨.unused rfl rfl, .missing (by decide) rfl, .range (by decide) rfl (by decide), .empty rfl rfl,
    .walk _ (by decide) rfl (by decide) ⟨rfl, fun k => k % 2, rfl, by decide, by decide⟩⟩

/-- The states of those outcomes (the source at address 0). -/
theorem witness_bwt_dec_states :
    (Ready (rotState [] 0 0 true) ∧ src (rotState [] 0 0 true) = []) ∧
    (Ready (rotState [0x62, 0x61] 2 0 true) ∧ src (rotState [0x62, 0x61] 2 0 true) = [0x62, 0x61]) := by decide +kernel

/-- RecencyListStaysAPermutation. -/
theorem witness_recency : List.Perm ascending ascending := List.Perm.refl _

/-- RLE_ENC: the run list of a source, with its serialised form at the limit and past it, and RleRoundTrips. -/
theorem witness_runs :
    Runs [7, 7] [(2, 7)] ∧ (src (idleState [7, 7] 2) = [7, 7] ∧ Ready (idleState [7, 7] 2)) ∧
    Runs [7] [(1, 7)] ∧ Ready (withSeqMax 1 (idleState [7] 2)) ∧
    (withSeqMax 1 (idleState [7] 2)).cfg.seqMax < (pairBytes [(1, 7)]).length ∧
    (pairBytes [(2, 7)]).length ≤ (withSeqMax 2 (idleState [7, 7] 2)).cfg.seqMax ∧ [7, 7].length ≤ 2 := by
  refine ⟨⟨by decide, by unfold Spec.Maximal; decide, by decide⟩, by decide +kernel, ⟨by decide, by unfold Spec.Maximal; decide, by decide⟩,
    by decide, by decide, by decide, by decide⟩

/-- RLE_DEC: each outcome, the limit exactly met and passed by one. -/
theorem witness_rle_decodes :
    RleDecodes 9 [1] (.error ⟨.malformedRunList, .rle⟩) ∧ RleDecodes 9 [1, 7, 0, 7] (.error ⟨.malformedRunList, .rle⟩) ∧
    RleDecodes 2 [1, 7, 2, 8] (.error ⟨.lengthLimit, .rle⟩) ∧ RleDecodes 3 [1, 7, 2, 8] (.ok [7, 8, 8]) :=
  ⟨.odd rfl, .zeroCount [(1, 7)] 7 [] rfl (by decide) rfl (by decide),
    .tooLong [(1, 7)] 2 8 [] rfl (by decide) rfl (by decide) (by decide),
    .done [(1, 7), (2, 8)] (by decide) rfl (by decide)⟩

/-- The codes of a table given by one pair, and by two. -/
theorem entry_one (c : Byte) (u : BitString) (b : Byte) : entry (tableOf [(c, u)]) b = if b = c then u else [] := by
  unfold tableOf
  rw [entry_tabulate]
  by_cases h : b = c
  · simp [List.lookup, h]
  · simp [List.lookup, beq_false_of_ne h, h]

theorem entry_two (c d : Byte) (u v : BitString) (b : Byte) :
    entry (tableOf [(c, u), (d, v)]) b = if b = c then u else if b = d then v else [] := by
  unfold tableOf
  rw [entry_tabulate]
  by_cases h : b = c
  · simp [List.lookup, h]
  · by_cases h' : b = d
    · subst h'; simp [List.lookup, beq_false_of_ne h, h]
    · simp [List.lookup, beq_false_of_ne h, beq_false_of_ne h', h, h']

/-- The empty table and the degenerate table are tables of R59. -/
theorem witness_tables : TableOk (Vector.replicate 256 []) ∧ TableOk singleTable := by
  refine ⟨⟨fun b => by simp, fun b b' _ h => absurd (by simp) h⟩, ?_⟩
  have he : ∀ b : Byte, entry singleTable b = if b = 0x41 then [false] else [] := entry_one _ _
  refine ⟨fun b => by rw [he]; split <;> simp, fun b b' hne h => ?_⟩
  rw [he] at h
  rw [he, he]
  by_cases hb : b = 0x41
  · rw [if_pos hb, if_neg (fun h' => hne (hb.trans h'.symm))]; simp
  · rw [if_neg hb] at h; exact absurd rfl h

/-- HUF_BUILD: the three shapes of a built table. -/
theorem witness_built :
    Built (fun b => ([] : List Byte).count b) (Vector.replicate 256 []) ∧
    Built (fun b => ([0x41, 0x41] : List Byte).count b) singleTable ∧
    Built (fun b => ([0x41, 0x42] : List Byte).count b) (tableOf [(0x41, [false]), (0x42, [true])]) := by
  refine ⟨.empty (by decide +kernel) (fun b => by simp), .single ⟨2, 0x41, .leaf 0x41⟩ (by decide +kernel) (fun b => ?_),
    .tree (.node (.leaf 0x41) (.leaf 0x42)) (by decide +kernel) ?_ (fun b h => ?_) (fun b h => ?_)⟩
  · rw [singleTable, entry_one]
    by_cases h : b = 0x41
    · subst h; rfl
    · have hm : b ∉ ([0x41, 0x41] : List Byte) := fun hm =>
        h ((List.mem_cons.mp hm).elim id List.mem_singleton.mp)
      rw [if_neg h, if_neg (by rw [List.count_eq_zero_of_not_mem hm]; decide)]
  · have hl : leaves (fun b => ([0x41, 0x42] : List Byte).count b) = [⟨1, 0x41, .leaf 0x41⟩, ⟨1, 0x42, .leaf 0x42⟩] := by
      decide +kernel
    rw [hl]
    exact .merge 0 _ ⟨1, 0x41, .leaf 0x41⟩ ⟨1, 0x42, .leaf 0x42⟩ [] _ (List.Perm.refl _)
      (by unfold NodeBefore; decide) (by simp) (.root _ _)
  · have hm : b ∉ ([0x41, 0x42] : List Byte) := List.count_eq_zero.mp h
    rw [entry_two, if_neg (fun e => hm (by rw [e]; decide)), if_neg (fun e => hm (by rw [e]; decide))]
  · have hm : b ∈ ([0x41, 0x42] : List Byte) := List.count_pos_iff.mp h
    rw [entry_two]
    rcases List.mem_cons.mp hm with rfl | hm
    · exact .left _ _ _ _ (.leaf _)
    · rw [List.mem_singleton.mp hm]
      exact .right _ _ _ _ (.leaf _)

/-- HUF_BUILD: the table of the empty block has two bytes; the capacity one short, and enough. -/
theorem witness_huf_build :
    serial (Vector.replicate 256 []) = [0, 0] ∧ src (idleState [] 1) = [] ∧ Ready (idleState [] 1) ∧
    (idleState [] 1).dstCap.toNat < ([0, 0] : List Byte).length ∧
    ([0, 0] : List Byte).length ≤ (idleState [] 2).dstCap.toNat := by decide +kernel

/-- SerialisedTableParsesBack: the degenerate table and bytes that follow it. -/
theorem witness_serial : serial singleTable ++ [7] = [1, 0, 0x41, 1, 0, 7] := by decide +kernel

/-- HUF_LOAD and DECOMPRESS: each outcome of the parse; 01 01 announces 257 entries (V-HT-28). -/
theorem witness_parses :
    Parses true [0] (.error ⟨.missingMetadata, .hufTree⟩) ∧
    Parses true [1, 1] (.error ⟨.malformedCodeTable, .hufTree⟩) ∧
    Parses true [1, 0, 0x41, 1, 0] (.ok (singleTable, [])) ∧
    Parses false [1, 0, 0x41, 1, 0, 7] (.ok (singleTable, [7])) := by
  refine ⟨.short (by decide), .bad (by decide) ?_, .table _ [] witness_tables.2 (by decide +kernel) (fun _ => rfl),
    .table _ [7] witness_tables.2 (by decide +kernel) (fun h => nomatch h)⟩
  intro ct rest _ h
  exfalso
  have hl : (coded ct).length ≤ 256 := (List.length_filter_le _ _).trans (by simp [ascending])
  simp only [serial, List.cons_append, List.nil_append, List.cons.injEq] at h
  have h0 := congrArg BitVec.toNat h.1
  have h1 := congrArg BitVec.toNat h.2.1
  simp only [BitVec.toNat_ofNat] at h0 h1
  simp at h0 h1
  omega

/-- The states of the parse outcomes of HUF_LOAD. -/
theorem witness_huf_load :
    (src (idleState [0] 0) = [0] ∧ SrcFits (idleState [0] 0) ∧ SrcShort (idleState [0] 0)) ∧
    src (idleState [1, 0, 0x41, 1, 0] 0) = [1, 0, 0x41, 1, 0] ∧ SrcFits (idleState [1, 0, 0x41, 1, 0] 0) := by
  decide +kernel

/-- UnpackInvertsPack: a bit past the nine bits of a string, in its second byte. -/
theorem witness_padding : (List.replicate 9 true).length ≤ 9 ∧ 9 < 8 * (packed (List.replicate 9 true)).length := by
  decide

/-- HUF_ENC: no table; a byte with no code; a payload past the limit (nine bits with SEQ_MAX = 1); and one that fits, with a
capacity that is short and one that is not. -/
theorem witness_huf_enc :
    ((idleState [0x41] 1).ctValid = false ∧ Ready (idleState [0x41] 1)) ∧
    ((tableState singleTable [0x42] 1 0).ctValid = true ∧ Ready (tableState singleTable [0x42] 1 0) ∧
      ¬ Coded singleTable [0x42] ∧ src (tableState singleTable [0x42] 1 0) = [0x42]) ∧
    (Coded (tableOf [(0x41, List.replicate 9 true)]) [0x41] ∧
      1 < (packed (codeOf (tableOf [(0x41, List.replicate 9 true)]) [0x41])).length ∧
      Ready (withSeqMax 1 (tableState (tableOf [(0x41, List.replicate 9 true)]) [0x41] 2 0))) ∧
    (Coded singleTable [0x41] ∧ (packed (codeOf singleTable [0x41])).length = 1 ∧
      (tableState singleTable [0x41] 0 0).dstCap.toNat < 1 ∧ 1 ≤ (tableState singleTable [0x41] 1 0).dstCap.toNat) := by
  decide +kernel

/-- HUF_DEC, DecoderOutcomesAreUnique, HuffmanCodeRoundTrips: each outcome under the degenerate table. -/
theorem witness_huf_decodes :
    HufDecodes singleTable 5 9 [0] (.error ⟨.malformedBitStream, .hufBits⟩) ∧
    HufDecodes singleTable 5 3 [0x10] (.error ⟨.malformedBitStream, .hufBits⟩) ∧
    HufDecodes singleTable 5 3 [0x20] (.error ⟨.malformedBitStream, .hufBits⟩) ∧
    HufDecodes singleTable 2 3 [0] (.error ⟨.lengthLimit, .hufBits⟩) ∧
    HufDecodes singleTable 3 3 [0] (.ok [0x41, 0x41, 0x41]) ∧ Coded singleTable [0x41, 0x41] := by
  have pad : ∀ p : Byte, p = 0 ∨ p = 0x20 → ∀ i, 3 ≤ i → i < 8 * [p].length → bitAt [p] i = false := by
    intro p hp i h3 h8
    have h8' : i < 8 := by simpa using h8
    rcases hp with rfl | rfl <;> interval_cases i <;> decide
  refine ⟨.badLength (by decide), .badPadding 3 (by decide) (by decide) (by decide) (by decide),
    .broken [0x41, 0x41] [true] (by decide) (pad 0x20 (.inr rfl)) (by decide +kernel) (by decide) (by decide +kernel) (by decide) ?_,
    .tooLong [0x41, 0x41] 0x41 [] (by decide) (pad 0 (.inl rfl)) (by decide +kernel) rfl (by decide +kernel),
    .done [0x41, 0x41, 0x41] (by decide) (pad 0 (.inl rfl)) (by decide +kernel) (by decide) (by decide +kernel),
    by decide +kernel⟩
  intro b hb hp
  rw [singleTable, entry_one] at hb hp
  by_cases h : b = 0x41
  · rw [if_pos h] at hp; revert hp; decide
  · exact hb (if_neg h)

/-- The states of those outcomes. -/
theorem witness_huf_dec :
    Sound (tableState singleTable [0] 3 3) ∧ Ready (tableState singleTable [0] 3 3) ∧
    (tableState singleTable [0] 3 3).ctValid = true ∧ src (tableState singleTable [0] 3 3) = [0] ∧
    (idleState [0] 3).ctValid = false := by decide +kernel

/-- COMPRESS of the one byte 01 (V-ORC-4): each stage, with SEQ_MAX = 1 for the limit at RLE, and a capacity one short. -/
theorem witness_compress :
    (Ready (idleState [1] 6) ∧ src (idleState [1] 6) = [1]) ∧ Forward [1] [1] 0 true ∧ Mtf [1] [1] ∧
    Runs [1] [(1, 1)] ∧ Built (fun b => (pairBytes [(1, 1)]).count b) (tableOf [(1, [false])]) ∧
    (withSeqMax 1 (idleState [1] 6)).cfg.seqMax < (pairBytes [(1, 1)]).length ∧
    serial (tableOf [(1, [false])]) ++ packed (codeOf (tableOf [(1, [false])]) (pairBytes [(1, 1)])) = [1, 0, 1, 1, 0, 0] ∧
    (idleState [1] 5).dstCap.toNat < 6 := by
  refine ⟨by decide +kernel, .block [0] (by decide) (by unfold SortedOrder CycLess; decide),
    ⟨rfl, .cons _ 1 1 [] (by decide) (.nil _)⟩, ⟨by decide, by unfold Spec.Maximal; decide, by decide⟩,
    .single ⟨2, 1, .leaf 1⟩ (by decide +kernel) (fun b => ?_), by decide, by decide +kernel, by decide⟩
  rw [entry_one]
  by_cases h : b = 1
  · subst h; rfl
  · have hm : b ∉ pairBytes [(1, 1)] := fun hm => h ((List.mem_cons.mp hm).elim id List.mem_singleton.mp)
    rw [if_neg h, if_neg (by rw [List.count_eq_zero_of_not_mem hm]; decide)]

/-- DECOMPRESS: the parse fails; then, for the blob 01 00 41 01 00 00, the unpacker fails (N = 9), or the RLE decoder does
(N = 1, V-ORC-17); then, for the blob 01 00 41 01 00, the BWT stage fails (V-ORC-21), or all succeed. -/
theorem witness_decompress :
    Parses false [0] (.error ⟨.missingMetadata, .hufTree⟩) ∧
    Parses false [1, 0, 0x41, 1, 0, 0] (.ok (singleTable, [0])) ∧
    HufDecodes singleTable 65536 9 [0] (.error ⟨.malformedBitStream, .hufBits⟩) ∧
    HufDecodes singleTable 65536 1 [0] (.ok [0x41]) ∧ RleDecodes 65536 [0x41] (.error ⟨.malformedRunList, .rle⟩) ∧
    Parses false [1, 0, 0x41, 1, 0] (.ok (singleTable, [])) ∧ HufDecodes singleTable 65536 0 [] (.ok []) ∧
    RleDecodes 65536 [] (.ok []) ∧ Mtf [] [] ∧ BwtDecodes 0 true [] (.error ⟨.invalidIndex, .bwt⟩) ∧
    BwtDecodes 0 false [] (.ok []) := by
  refine ⟨.short (by decide), .table _ [0] witness_tables.2 (by decide +kernel) (fun h => nomatch h),
    .badLength (by decide), .done [0x41] (by decide) (fun i h1 h8 => ?_) (by decide +kernel) (by decide) (by decide +kernel),
    .odd (by decide), .table _ [] witness_tables.2 (by decide +kernel) (fun h => nomatch h),
    .done [] (by decide) (fun i _ h => absurd h (Nat.not_lt_zero i)) (by decide) (by decide) (by decide),
    .done [] (by simp) rfl (by decide), ⟨rfl, .nil _⟩, .unused rfl rfl, .empty rfl rfl⟩
  have h8' : i < 8 := by simpa using h8
  interval_cases i <;> decide

/-- The states of those blobs. -/
theorem witness_decompress_states :
    (Ready (rotState [1, 0, 0x41, 1, 0, 0] 3 0 true) ∧ src (rotState [1, 0, 0x41, 1, 0, 0] 3 0 true) = [1, 0, 0x41, 1, 0, 0]) ∧
    (Ready (rotState [1, 0, 0x41, 1, 0] 0 0 false) ∧ src (rotState [1, 0, 0x41, 1, 0] 0 0 false) = [1, 0, 0x41, 1, 0]) ∧
    src (rotState [0] 0 0 false) = [0] := by decide +kernel

/-- DecompressInvertsCompress: COMPRESS of the byte 01, and DECOMPRESS of the blob it wrote. -/
theorem witness_round_trip :
    Sound (idleState [1] 6) ∧ Ready (idleState [1] 6) ∧
    exec .compress (idleState [1] 6) = .next (after .compress (idleState [1] 6)) ∧
    (after .compress (idleState [1] 6)).errKind = .none ∧
    Sound { rotState [1, 0, 1, 1, 0, 0] 1 0 true with payloadBits := 2 } ∧
    BitVec.ofNat 32 6 = (after .compress (idleState [1] 6)).dstLen ∧
    src { rotState [1, 0, 1, 1, 0, 0] 1 0 true with payloadBits := 2 } =
      bytesAt (after .compress (idleState [1] 6)).dm 0x100 6 ∧
    (0 : Word) = (after .compress (idleState [1] 6)).rotIdx ∧ true = (after .compress (idleState [1] 6)).rotValid ∧
    (2 : Word) = (after .compress (idleState [1] 6)).payloadBits ∧
    Ready { rotState [1, 0, 1, 1, 0, 0] 1 0 true with payloadBits := 2 } := by
  refine ⟨by decide, by decide, exec_after _ _, ?_⟩
  decide +kernel

/-- EveryStepKeepsTheInvariant: a sound state that is BUSY, with a memory that is not empty and a pending write. -/
theorem witness_invariant : Invariant { busyState 0x0B 1 [.regWrite 4 0x024 1] with dm := [(65535, 1)] } where
  cfgOk := by decide
  memWf := by decide
  memBounded := by unfold MemoryBounded; decide
  tableOk := witness_tables.1
  noTable := fun _ b => ⟨entry_replicate _ b, entry_replicate _ b⟩
  busyClear := fun _ => ⟨rfl, rfl, rfl, rfl, rfl⟩
  recordPair := ⟨fun _ => rfl, fun _ => rfl⟩
  emptyOnSuccess := fun _ => rfl
  stageReported := fun h => nomatch h
  dstLenOk := by decide

end Sys2Proof.Tests
end

section
/-! PROOFS. The register file of 10_state.md: the values after a reset (R64), the layout of STATUS (R36 to R44) and the
interrupt output (R62). -/

namespace Sys2Proof.Machine

open Sys2Proof.Spec

/-! ## The register map, read backwards -/

/-- The register found at an aligned offset has that offset: with `regAt_offset`, the map of R31 is one to one. -/
theorem offset_of_regAt {off : Nat} {r : Reg} (ha : off % 4 = 0) (h : regAt off = some r) : r.offset = off := by
  unfold regAt at h
  split_ifs at h with hf hc
  · obtain rfl := Option.some.inj h
    rw [Reg.offset_freq, BitVec.toNat_ofNat]; omega
  · obtain rfl := Option.some.inj h
    rw [Reg.offset_codeLen, BitVec.toNat_ofNat]; omega
  · have hoff : (r.offset == off) = true := List.find?_some (p := fun x => Reg.offset x == off) h
    exact beq_iff_eq.mp hoff

theorem writeOffset_status (v : Word) (s : State) : writeOffset 0x014 v s = writeStatus v s :=
  writeOffset_offset .status v s

theorem writeOffset_ctrl (v : Word) (s : State) : writeOffset 0x010 v s = writeCtrl v s :=
  writeOffset_offset .ctrl v s

/-- While IDLE a register write at an admitted offset is the next step (R157). -/
theorem step_regWrite_idle {s : State} {off : Nat} {v : Word} {rest : List HostEvent} (hc : s.ctl = .idle)
    (hh : s.host = .regWrite 4 off v :: rest) (ho : regAccessOk 4 off = true) :
    step s = .next (answered .ok (writeOffset off v s)) := by
  rw [step_idle hc, hostStep_regWrite_idle hc hh ho]

/-! ## The resets -/

theorem registersReset_resetRegisters (s : State) : RegistersReset (resetRegisters s) :=
  ⟨rfl, rfl, rfl, rfl, rfl, rfl, rfl, rfl, rfl, rfl, rfl, rfl, rfl, rfl, rfl, rfl,
    entry_replicate _, entry_replicate _, rfl, rfl⟩

theorem registersReset_powerOn (cfg : Config) (dm : Memory) : RegistersReset (State.powerOn cfg dm) :=
  registersReset_resetRegisters (State.powerOn cfg dm)

/-- Abandoning a command changes more than the registers only in the data memory and the count of draws, of which
`RegistersReset` does not speak. -/
theorem registersReset_hardReset (s : State) : RegistersReset (hardReset s) := by
  unfold hardReset
  cases s.ctl with
  | idle => exact registersReset_resetRegisters s
  | busy => exact registersReset_resetRegisters s

theorem irq_of_registersReset {t : State} (ht : RegistersReset t) : irq t = false := by
  obtain ⟨hen, -⟩ := ht
  rw [irq, hen, Bool.false_and]

theorem statusWord_of_registersReset {t : State} (ht : RegistersReset t) : statusWord t = 0 := by
  obtain ⟨-, hdone, hempty, hct, hwb, hkind, hstage, -, -, -, -, -, -, -, -, -, -, -, hctl, -⟩ := ht
  rw [statusWord, busy, err, hdone, hempty, hct, hwb, hkind, hstage, hctl]
  rfl

/-- What each register reads after a reset (R64): the three constants of R32 to R34, and 0. -/
def readAfterReset (cfg : Config) : Reg → Nat
  | .id => 0x4D4C4331
  | .capMem => cfg.memBytes
  | .capSeq => cfg.seqMax
  | _ => 0

theorem toNat_readReg_of_registersReset {t : State} (ht : RegistersReset t) (hcfg : t.cfg.wf = true) (r : Reg) :
    (readReg r t).toNat = readAfterReset t.cfg r := by
  have hstatus := statusWord_of_registersReset ht
  obtain ⟨hen, -, -, -, -, -, -, hcmd, hsa, hsl, hda, hdc, hdl, hrot, hrv, hpay, hfreq, hcode, -, -⟩ := ht
  simp only [Config.wf, Bool.and_eq_true, decide_eq_true_eq] at hcfg
  cases r with
  | id => rfl
  | capMem => exact Nat.mod_eq_of_lt (by omega)
  | capSeq => exact Nat.mod_eq_of_lt (by omega)
  | status => simp [readReg, readAfterReset, hstatus]
  | freq b => simp [readReg, readAfterReset, hfreq]
  | codeLen b => simp [readReg, readAfterReset, hcode]
  | _ => simp [readReg, readAfterReset, *]

/-- `readAfterReset` by window offset, as R64 lists it. -/
theorem readAfterReset_eq_ite (cfg : Config) (r : Reg) :
    readAfterReset cfg r =
      if r.offset = 0x000 then 0x4D4C4331 else if r.offset = 0x004 then cfg.memBytes
      else if r.offset = 0x008 then cfg.seqMax else 0 := by
  cases r with
  | freq b => rw [Reg.offset_freq, if_neg (by omega), if_neg (by omega), if_neg (by omega)]; rfl
  | codeLen b => rw [Reg.offset_codeLen, if_neg (by omega), if_neg (by omega), if_neg (by omega)]; rfl
  | _ => rfl

/-- What an aligned window offset reads after a reset, whether a register stands there or not. -/
theorem toNat_readOffset_of_registersReset {t : State} (ht : RegistersReset t) (hcfg : t.cfg.wf = true) {off : Nat}
    (ha : off % 4 = 0) :
    (readOffset off t).toNat =
      if off = 0x000 then 0x4D4C4331 else if off = 0x004 then t.cfg.memBytes
      else if off = 0x008 then t.cfg.seqMax else 0 := by
  cases hr : regAt off with
  | some r =>
    obtain rfl := offset_of_regAt ha hr
    rw [readOffset_offset, toNat_readReg_of_registersReset ht hcfg, readAfterReset_eq_ite]
  | none =>
    have hne (r : Reg) : off ≠ r.offset := by
      rintro rfl
      rw [regAt_offset] at hr
      cases hr
    have hid : off ≠ 0x000 := hne .id
    have hmem : off ≠ 0x004 := hne .capMem
    have hseq : off ≠ 0x008 := hne .capSeq
    rw [readOffset, hr, if_neg hid, if_neg hmem, if_neg hseq]
    rfl

/-- Settles O11: every reset state has `RegistersReset`, which fixes IRQ and what each register reads; the offsets with
no register read 0. -/
theorem resetValues : Obligations.ResetValues := by
  refine ⟨fun cfg dm hcfg => ?_, fun s => ?_⟩
  · have ht := registersReset_powerOn cfg dm
    exact ⟨ht, irq_of_registersReset ht, fun off ha _ => toNat_readOffset_of_registersReset ht hcfg ha⟩
  · have ht := registersReset_hardReset s
    exact ⟨ht, irq_of_registersReset ht⟩

/-! ## STATUS -/

theorem readOffset_status (s : State) : readOffset 0x014 s = statusWord s :=
  readOffset_of_offset (r := .status) s rfl

theorem ErrKind.code_le (k : ErrKind) : k.code ≤ 10 := by cases k <;> decide

theorem Stage.code_le (g : Stage) : g.code ≤ 6 := by cases g <;> decide

/-- The range of each summand of STATUS, before its weight. -/
theorem statusFields_le (s : State) :
    (busy s).toNat ≤ 1 ∧ s.done.toNat ≤ 1 ∧ (err s).toNat ≤ 1 ∧ s.empty.toNat ≤ 1 ∧ s.ctValid.toNat ≤ 1 ∧
      s.wbusy.toNat ≤ 1 ∧ s.errKind.code ≤ 10 ∧ s.errStage.code ≤ 6 :=
  ⟨Bool.toNat_le _, Bool.toNat_le _, Bool.toNat_le _, Bool.toNat_le _, Bool.toNat_le _, Bool.toNat_le _,
    s.errKind.code_le, s.errStage.code_le⟩

/-- The fields of STATUS fill 16 bits, so the word holds their sum whole. -/
theorem toNat_statusWord (s : State) :
    (statusWord s).toNat =
      (busy s).toNat + 2 * s.done.toNat + 4 * (err s).toNat + 8 * s.empty.toNat + 16 * s.ctValid.toNat
        + 32 * s.wbusy.toNat + 256 * s.errKind.code + 4096 * s.errStage.code := by
  have hb := statusFields_le s
  exact Nat.mod_eq_of_lt (by omega)

theorem getLsbD_of_toNat_div {w : Word} {i : Nat} {b : Bool} (h : w.toNat / 2 ^ i % 2 = b.toNat) : w.getLsbD i = b := by
  rw [BitVec.getLsbD, Nat.testBit_eq_decide_div_mod_eq, h]
  cases b <;> rfl

/-- Settles O13: STATUS is a sum of weighted fields, and each field stays below the next one's weight. -/
theorem statusReadsItsFields : Obligations.StatusReadsItsFields := by
  intro s
  have hb := statusFields_le s
  simp only [readOffset_status, BitVec.extractLsb'_toNat, Nat.shiftRight_eq_div_pow]
  have hw := toNat_statusWord s
  refine ⟨getLsbD_of_toNat_div (b := busy s) ?_, getLsbD_of_toNat_div ?_, getLsbD_of_toNat_div (b := err s) ?_,
    getLsbD_of_toNat_div ?_, getLsbD_of_toNat_div ?_, getLsbD_of_toNat_div ?_, ?_, ?_, ?_, ?_, rfl, rfl⟩
  all_goals omega

/-! ## The interrupt output -/

@[simp] theorem irq_answered (r : Response) (s : State) : irq (answered r s) = irq s := rfl

@[simp] theorem irq_commit (i : Instr) (r : Result) (s : State) : irq (commit i r s) = s.irqEn := by
  simp [irq]

@[simp] theorem irq_raiseError (e : CmdError) (s : State) : irq (raiseError e s) = s.irqEn := by
  simp [irq]

/-- The completion of a command, in success and in failure, asserts IRQ exactly when it is enabled (R350). -/
theorem exists_exec_irq (i : Instr) (s : State) : ∃ t, exec i s = .next t ∧ irq t = s.irqEn := by
  obtain ⟨r, -, h⟩ | ⟨e, -, h⟩ := exec_cases i s
  · exact ⟨_, h, irq_commit i r s⟩
  · exact ⟨_, h, irq_raiseError e s⟩

/-- The return of R352 clears IRQ. -/
theorem irq_writeStatus {v : Word} (s : State) (h : v.getLsbD 1 = true) : irq (writeStatus v s) = false := by
  simp [irq, writeStatus_eq, h]

/-- The soft reset, START, and a write that clears IRQ_EN each clear IRQ (R350). -/
theorem irq_writeCtrl {v : Word} (s : State) (h : v.getLsbD 0 = true ∨ v.getLsbD 1 = true ∨ v.getLsbD 2 = false) :
    irq (writeCtrl v s) = false := by
  cases h1 : v.getLsbD 1 with
  | true =>
    rw [writeCtrl_softReset s h1]
    exact irq_of_registersReset (registersReset_resetRegisters s)
  | false =>
    cases h0 : v.getLsbD 0 with
    | true => simp [writeCtrl_start s h1 h0, irq]
    | false =>
      have h2 : v.getLsbD 2 = false := by
        rw [h0, h1] at h
        simpa using h
      simp only [writeCtrl_store s h1 h0, irq, h2, Bool.false_and]

/-- While IDLE the hardware reset is the next step. -/
theorem step_hardReset_idle {s : State} {rest : List HostEvent} (hc : s.ctl = .idle)
    (hh : s.host = .hardReset :: rest) : step s = .next { hardReset s with host := rest } := by
  rw [step_idle hc, hostStep, hh]

/-- Settles O21: a completion sets DONE and leaves IRQ_EN, and each clearing event of R350 leaves DONE or IRQ_EN 0. -/
theorem irqFollowsDoneAndEnable : Obligations.IrqFollowsDoneAndEnable := by
  refine fun s => ⟨rfl, fun i => exists_exec_irq i s, fun v rest t hc ht => ?_⟩
  refine ⟨fun hh h => ?_, fun hh h => ?_, fun hh => ?_⟩
  · cases (step_regWrite_idle hc hh (regAccessOk_offset .status)).symm.trans ht
    rw [irq_answered, writeOffset_status]
    exact irq_writeStatus s h
  · cases (step_regWrite_idle hc hh (regAccessOk_offset .ctrl)).symm.trans ht
    rw [irq_answered, writeOffset_ctrl]
    exact irq_writeCtrl s h
  · cases (step_hardReset_idle hc hh).symm.trans ht
    exact irq_of_registersReset (registersReset_hardReset s)

end Sys2Proof.Machine
end

section
/-! PROOFS. The frame of 40_command_common.md: the region checks (R148), the errors of the bodies (R341), the abort
(R152, R154), EMPTY (R155) and NOP (R160). -/

namespace Sys2Proof.Machine

open Sys2Proof.Spec

/-! ## The operands a command has, and its regions -/

theorem readsSrc_iff (i : Instr) : readsSrc i = true ↔ i ≠ .nop := by
  cases i <;> decide

theorem writesDst_iff (i : Instr) : writesDst i = true ↔ i ≠ .nop ∧ i ≠ .hufLoad := by
  cases i <;> decide

theorem srcInBounds_iff (s : State) : srcInBounds s = true ↔ SrcFits s := decide_eq_true_iff

theorem dstInBounds_iff (s : State) : dstInBounds s = true ↔ DstFits s := decide_eq_true_iff

@[simp] theorem length_sourceSeq (s : State) : (sourceSeq s).length = s.srcLen.toNat :=
  Memory.length_readBytes _ _ _

theorem sourceOf_of_ne_nop {i : Instr} (s : State) (h : i ≠ .nop) : sourceOf i s = sourceSeq s :=
  if_pos ((readsSrc_iff i).mpr h)

/-! ## The ways the frame fails (R145) -/

/-- The abort of the model is the one of R154. -/
theorem raiseError_eq_aborted (e : CmdError) (s : State) : raiseError e s = aborted e.kind e.stage s := rfl

theorem exec_aborts_of_frame_error {i : Instr} {s : State} {k : ErrKind} {g : Stage}
    (h : frame i (bodyOf i) s = .error ⟨k, g⟩) : exec i s = .next (aborted k g s) := by
  rw [exec_of_frame_error h, raiseError_eq_aborted]

theorem frame_of_not_srcFits {i : Instr} (body : Body) {s : State} (hi : i ≠ .nop) (h : ¬ SrcFits s) :
    frame i body s = .error ⟨.badRegion, .ctrl⟩ := by
  rw [← srcInBounds_iff, Bool.not_eq_true] at h
  have hr := (readsSrc_iff i).mpr hi
  simp [frame, hr, h, raise]

theorem frame_of_not_dstFits {i : Instr} (body : Body) {s : State} (hi : i ≠ .nop) (hl : i ≠ .hufLoad)
    (hs : SrcFits s) (h : ¬ DstFits s) : frame i body s = .error ⟨.badRegion, .ctrl⟩ := by
  rw [← srcInBounds_iff] at hs
  rw [← dstInBounds_iff, Bool.not_eq_true] at h
  have hw := (writesDst_iff i).mpr ⟨hi, hl⟩
  simp [frame, hs, hw, h, raise]

theorem capacityCheck_error {i : Instr} {s : State} {r : Result} {e : CmdError} (h : capacityCheck i s r = .error e) :
    writesDst i = true ∧ s.dstCap.toNat < r.out.length ∧ e = ⟨.capacity, .ctrl⟩ := by
  unfold capacityCheck raise at h
  split at h
  · next hc =>
    cases h
    simpa using hc
  · cases h

/-- The five ways the frame fails, in check order. -/
theorem frame_error {i : Instr} {body : Body} {s : State} {e : CmdError} (h : frame i body s = .error e) :
    (readsSrc i = true ∧ ¬ SrcFits s ∧ e = ⟨.badRegion, .ctrl⟩) ∨
    (writesDst i = true ∧ ¬ DstFits s ∧ e = ⟨.badRegion, .ctrl⟩) ∨
    (readsSrc i = true ∧ ¬ SrcShort s ∧ e = ⟨.lengthLimit, .ctrl⟩) ∨
    body (operandsOf s) (sourceOf i s) = .error e ∨
    (∃ r, body (operandsOf s) (sourceOf i s) = .ok r ∧ writesDst i = true ∧
      s.dstCap.toNat < r.out.length ∧ e = ⟨.capacity, .ctrl⟩) := by
  simp only [← srcInBounds_iff, ← dstInBounds_iff]
  unfold frame raise at h
  split_ifs at h with hsrc hdst hlen
  · cases h
    exact .inl (by simpa using hsrc)
  · cases h
    exact .inr (.inl (by simpa using hdst))
  · cases h
    exact .inr (.inr (.inl (by simpa using hlen)))
  · cases hb : body (operandsOf s) (sourceOf i s) with
    | error e' =>
      rw [hb] at h
      cases h
      exact .inr (.inr (.inr (.inl rfl)))
    | ok r =>
      rw [hb] at h
      exact .inr (.inr (.inr (.inr ⟨r, rfl, capacityCheck_error h⟩)))

/-! ## The errors of the units (R341) -/

theorem lim_error {n : Nat} {x : List Byte} {g : Stage} {e : CmdError} (h : lim n x g = .error e) :
    e = ⟨.lengthLimit, g⟩ := by
  unfold lim raise at h
  split at h <;> cases h
  rfl

theorem bwtDecode_error {i : Word} {v : Bool} {l : List Byte} {e : CmdError} (h : bwtDecode i v l = .error e) :
    e = ⟨.invalidIndex, .bwt⟩ ∨ e = ⟨.missingMetadata, .bwt⟩ := by
  unfold bwtDecode raise at h
  split_ifs at h <;> cases h
  · exact .inl rfl
  · exact .inr rfl
  · exact .inl rfl

theorem rleExpand_error {seqMax len : Nat} {t : List Byte} {e : CmdError} (h : rleExpand seqMax len t = .error e) :
    e = ⟨.malformedRunList, .rle⟩ ∨ e = ⟨.lengthLimit, .rle⟩ := by
  fun_induction rleExpand seqMax len t with
  | case1 => cases h; exact .inl rfl
  | case2 => cases h; exact .inr rfl
  | case3 _ _ _ _ _ _ _ hrec ih => cases h; exact ih hrec
  | case4 | case5 => cases h

theorem rleDecode_error {seqMax : Nat} {t : List Byte} {e : CmdError} (h : rleDecode seqMax t = .error e) :
    e = ⟨.malformedRunList, .rle⟩ ∨ e = ⟨.lengthLimit, .rle⟩ := by
  unfold rleDecode at h
  split at h
  · cases h; exact .inl rfl
  · exact rleExpand_error h

theorem hufWalk_error {es : List (Byte × BitString)} {seqMax len : Nat} {u w : BitString} {e : CmdError}
    (h : hufWalk es seqMax u len w = .error e) :
    e = ⟨.malformedBitStream, .hufBits⟩ ∨ e = ⟨.lengthLimit, .hufBits⟩ := by
  fun_induction hufWalk es seqMax u len w with
  | case1 | case6 => cases h
  | case2 | case3 => cases h; exact .inl rfl
  | case4 => cases h; exact .inr rfl
  | case5 _ _ _ _ _ _ _ _ _ hrec ih => cases h; exact ih hrec
  | case7 _ _ _ _ _ _ ih => exact ih h

theorem hufDecode_error {ct : CodeTable} {seqMax n : Nat} {p : List Byte} {e : CmdError}
    (h : hufDecode ct seqMax n p = .error e) :
    e = ⟨.malformedBitStream, .hufBits⟩ ∨ e = ⟨.lengthLimit, .hufBits⟩ := by
  unfold hufDecode at h
  split_ifs at h
  · cases h; exact .inl rfl
  · cases h; exact .inl rfl
  · exact hufWalk_error h

theorem parseEntries_error {n lo : Nat} {t : List Byte} {e : CmdError} (h : parseEntries n lo t = .error e) :
    e = ⟨.malformedCodeTable, .hufTree⟩ := by
  fun_induction parseEntries n lo t with
  | case1 | case6 => cases h
  | case2 | case3 | case4 | case7 => cases h; rfl
  | case5 _ _ _ _ _ _ _ _ _ hrec ih => cases h; exact ih hrec

theorem parseTable_error {exact : Bool} {t : List Byte} {e : CmdError} (h : parseTable exact t = .error e) :
    e = ⟨.missingMetadata, .hufTree⟩ ∨ e = ⟨.malformedCodeTable, .hufTree⟩ := by
  unfold parseTable at h
  split_ifs at h
  · cases h; exact .inl rfl
  · cases h; exact .inr rfl
  · split at h
    · next hp => cases h; exact .inr (parseEntries_error hp)
    · split_ifs at h <;> cases h <;> exact .inr rfl

/-! ## The errors of the bodies and of the frame -/

/-- A body raises only errors of its command's list, and never at CTRL: the frame alone raises there (R318). -/
theorem bodyOf_error {i : Instr} {o : Operands} {x : List Byte} {e : CmdError} (h : bodyOf i o x = .error e) :
    (e.kind, e.stage) ∈ errorsOf i ∧ e.stage ≠ .ctrl := by
  cases i with
  | nop | bwtEnc | mtfEnc | mtfDec | hufBuild => cases h
  | bwtDec =>
    simp only [bodyOf, bwtDecBody] at h
    split at h <;> cases h
    next hb => obtain rfl | rfl := bwtDecode_error hb <;> decide
  | rleEnc =>
    simp only [bodyOf, rleEncBody] at h
    split at h <;> cases h
    next hl => obtain rfl := lim_error hl; decide
  | rleDec =>
    simp only [bodyOf, rleDecBody] at h
    split at h <;> cases h
    next hd => obtain rfl | rfl := rleDecode_error hd <;> decide
  | hufLoad =>
    simp only [bodyOf, hufLoadBody] at h
    split at h <;> cases h
    next hp => obtain rfl | rfl := parseTable_error hp <;> decide
  | hufEnc =>
    simp only [bodyOf, hufEncBody] at h
    split_ifs at h
    · cases h; decide
    · cases h; decide
    · split at h <;> cases h
      next hl => obtain rfl := lim_error hl; decide
  | hufDec =>
    simp only [bodyOf, hufDecBody] at h
    split_ifs at h
    · cases h; decide
    · split at h <;> cases h
      next hd => obtain rfl | rfl := hufDecode_error hd <;> decide
  | compress =>
    simp only [bodyOf, compressBody] at h
    split at h
    · next hl => cases h; obtain rfl := lim_error hl; decide
    · split at h <;> cases h
      next hl => obtain rfl := lim_error hl; decide
  | decompress =>
    simp only [bodyOf, decompressBody] at h
    split at h
    · next hp => cases h; obtain rfl | rfl := parseTable_error hp <;> decide
    · split at h
      · next hd => cases h; obtain rfl | rfl := hufDecode_error hd <;> decide
      · split at h
        · next hr => cases h; obtain rfl | rfl := rleDecode_error hr <;> decide
        · split at h <;> cases h
          next hb => obtain rfl | rfl := bwtDecode_error hb <;> decide

theorem badRegion_mem_errorsOf {i : Instr} (h : readsSrc i = true) : (.badRegion, .ctrl) ∈ errorsOf i := by
  revert h; cases i <;> decide

theorem lengthLimit_mem_errorsOf {i : Instr} (h : readsSrc i = true) : (.lengthLimit, .ctrl) ∈ errorsOf i := by
  revert h; cases i <;> decide

theorem capacity_mem_errorsOf {i : Instr} (h : writesDst i = true) : (.capacity, .ctrl) ∈ errorsOf i := by
  revert h; cases i <;> decide

/-- Every error of the frame is in its command's list (R341). -/
theorem frame_error_mem {i : Instr} {s : State} {e : CmdError} (h : frame i (bodyOf i) s = .error e) :
    (e.kind, e.stage) ∈ errorsOf i := by
  obtain ⟨hr, -, rfl⟩ | ⟨hw, -, rfl⟩ | ⟨hr, -, rfl⟩ | hb | ⟨_, -, hw, -, rfl⟩ := frame_error h
  · exact badRegion_mem_errorsOf hr
  · exact badRegion_mem_errorsOf ((readsSrc_iff i).mpr ((writesDst_iff i).mp hw).1)
  · exact lengthLimit_mem_errorsOf hr
  · exact (bodyOf_error hb).1
  · exact capacity_mem_errorsOf hw

/-- Code 0 stands for success alone (R341). -/
theorem kind_ne_none_of_mem_errorsOf {i : Instr} {k : ErrKind} {g : Stage} (h : (k, g) ∈ errorsOf i) : k ≠ .none := by
  rintro rfl
  cases i <;> simp [errorsOf] at h

/-- BAD_REGION is an error of the frame (R148). -/
theorem stage_of_badRegion {i : Instr} {g : Stage} (h : (.badRegion, g) ∈ errorsOf i) : g = .ctrl := by
  cases i <;> simp [errorsOf] at h <;> exact h

theorem bodyOf_error_ne_badRegion {i : Instr} {o : Operands} {x : List Byte} {e : CmdError}
    (h : bodyOf i o x = .error e) : e.kind ≠ .badRegion := by
  obtain ⟨hmem, hstage⟩ := bodyOf_error h
  intro hk
  rw [hk] at hmem
  exact hstage (stage_of_badRegion hmem)

/-- Settles O22: the two checks come first, and in bounds neither a later check nor a body reports BAD_REGION. -/
theorem regionBoundsAreChecked : Obligations.RegionBoundsAreChecked := by
  intro i s hi
  refine ⟨fun hs => ?_, fun hs hd hl => ?_, fun hs hd => ?_⟩
  · exact exec_aborts_of_frame_error (frame_of_not_srcFits _ hi hs)
  · exact exec_aborts_of_frame_error (frame_of_not_dstFits _ hi hl hs hd)
  · obtain ⟨r, -, hr⟩ | ⟨e, hf, he⟩ := exec_cases i s
    · exact ⟨_, hr, by simp⟩
    · refine ⟨_, he, ?_⟩
      rw [raiseError_errKind]
      obtain ⟨-, hns, -⟩ | ⟨hw, hnd, -⟩ | ⟨-, -, rfl⟩ | hb | ⟨_, -, -, -, rfl⟩ := frame_error hf
      · exact absurd hs hns
      · exact absurd hd (not_or.mpr ⟨hnd, ((writesDst_iff i).mp hw).2⟩)
      · decide
      · exact bodyOf_error_ne_badRegion hb
      · decide

/-! ## Failure (R152) and success (R153) -/

/-- A completion that leaves an error kind recorded an error of the frame. -/
theorem exec_failed {i : Instr} {s t : State} (h : exec i s = .next t) (hk : t.errKind ≠ .none) :
    ∃ e, frame i (bodyOf i) s = .error e ∧ t = raiseError e s := by
  obtain ⟨r, -, hr⟩ | ⟨e, hf, he⟩ := exec_cases i s
  · cases hr.symm.trans h
    exact absurd (commit_errKind i r s) hk
  · cases he.symm.trans h
    exact ⟨e, hf, rfl⟩

/-- A completion that leaves no error kind committed the result of the body. -/
theorem exec_succeeded {i : Instr} {s t : State} (h : exec i s = .next t) (hk : t.errKind = .none) :
    ∃ r, frame i (bodyOf i) s = .ok r ∧ t = commit i r s := by
  obtain ⟨r, hf, hr⟩ | ⟨e, hf, he⟩ := exec_cases i s
  · cases hr.symm.trans h
    exact ⟨r, hf, rfl⟩
  · cases he.symm.trans h
    exact absurd hk (kind_ne_none_of_mem_errorsOf (frame_error_mem hf))

/-- Settles O24: the state is the one `raiseError` makes, whose record is the error's own. -/
theorem failedCommandChangesOnlyTheRecord : Obligations.FailedCommandChangesOnlyTheRecord := by
  intro i s t h hk
  obtain ⟨e, -, rfl⟩ := exec_failed h hk
  exact raiseError_eq_aborted e s

/-! ## The entries of a parsed table -/

@[simp] theorem length_byteBits (b : Byte) : (byteBits b).length = 8 := by simp [byteBits]

@[simp] theorem length_unpack (p : List Byte) : (unpack p).length = 8 * p.length := by
  induction p with
  | nil => rfl
  | cons b p ih =>
    rw [unpack, List.flatMap_cons, List.length_append, ← unpack, ih, length_byteBits, List.length_cons]
    omega

/-- A code of a positive length is not empty when the bytes it is read from are there. -/
theorem take_unpack_ne_nil {n : Nat} {t : List Byte} (hn : n ≠ 0) (ht : ceil8 n ≤ t.length) :
    (unpack (t.take (ceil8 n))).take n ≠ [] := by
  rw [← List.length_pos_iff, List.length_take, length_unpack, List.length_take]
  unfold ceil8 at *
  omega

/-- The entry loop reads the number of entries it was asked for, each with a code (R252: a length of 0 is an error). -/
theorem parseEntries_ok {n lo : Nat} {t rest : List Byte} {es : List (Byte × BitString)}
    (h : parseEntries n lo t = .ok (es, rest)) : es.length = n ∧ ∀ q ∈ es, q.2 ≠ [] := by
  fun_induction parseEntries n lo t generalizing es rest with
  | case1 => cases h; simp
  | case2 | case3 | case4 | case5 | case7 => cases h
  | case6 n lo b len t hhead hlong _ es' rest' hrec ih =>
    cases h
    obtain ⟨hlen, hes⟩ := ih hrec
    have hn : len.toNat ≠ 0 := fun h0 => hhead (.inr (BitVec.eq_of_toNat_eq h0))
    exact ⟨congrArg (· + 1) hlen, List.forall_mem_cons.mpr ⟨take_unpack_ne_nil hn (Nat.le_of_not_lt hlong), hes⟩⟩

@[simp] theorem entry_tableOf (es : List (Byte × BitString)) (b : Byte) :
    entry (tableOf es) b = (es.lookup b).getD [] := entry_tabulate _ b

/-- With a code in every entry, a table has no code exactly when it has no entry. -/
theorem tableOf_empty_iff {es : List (Byte × BitString)} (hes : ∀ q ∈ es, q.2 ≠ []) :
    (∀ b, entry (tableOf es) b = []) ↔ es.length = 0 := by
  cases es with
  | nil => simp
  | cons q es =>
    have hq : entry (tableOf (q :: es)) q.1 = q.2 := by
      rw [entry_tableOf, List.lookup_cons_self, Option.getD_some]
    refine ⟨fun h => absurd (hq.symm.trans (h q.1)) (hes q List.mem_cons_self), fun h => ?_⟩
    cases h

/-- The count of a parsed table is 0 exactly when the table has no code. -/
theorem parseTable_count {exact : Bool} {x : List Byte} {p : ParsedTable} (h : parseTable exact x = .ok p) :
    p.count = 0 ↔ ∀ b, entry p.ct b = [] := by
  unfold parseTable raise at h
  split_ifs at h
  split at h
  · cases h
  · next hp =>
    obtain ⟨hlen, hes⟩ := parseEntries_ok hp
    split_ifs at h
    cases h
    rw [tableOf_empty_iff hes, hlen]

/-! ## EMPTY (R155) -/

theorem emptyFlag_iff (x : List Byte) : emptyFlag x = true ↔ x.length = 0 := by
  rw [emptyFlag, List.isEmpty_iff_length_eq_zero]

/-- The raw side of a command that encodes or builds is its source. -/
theorem bodyOf_empty_of_encodes {i : Instr} {o : Operands} {x : List Byte} {r : Result}
    (hi : i = .bwtEnc ∨ i = .mtfEnc ∨ i = .rleEnc ∨ i = .hufBuild ∨ i = .hufEnc ∨ i = .compress)
    (h : bodyOf i o x = .ok r) : r.empty = emptyFlag x := by
  obtain rfl | rfl | rfl | rfl | rfl | rfl := hi
  · cases h; rfl
  · cases h; rfl
  · simp only [bodyOf, rleEncBody] at h
    split at h <;> cases h
    rfl
  · cases h; rfl
  · simp only [bodyOf, hufEncBody, raise] at h
    split_ifs at h
    split at h <;> cases h
    rfl
  · simp only [bodyOf, compressBody] at h
    split at h
    · cases h
    · split at h <;> cases h
      rfl

/-- The raw side of a command that decodes is its output. -/
theorem bodyOf_empty_of_decodes {i : Instr} {o : Operands} {x : List Byte} {r : Result}
    (hi : i = .bwtDec ∨ i = .mtfDec ∨ i = .rleDec ∨ i = .hufDec ∨ i = .decompress)
    (h : bodyOf i o x = .ok r) : r.empty = emptyFlag r.out := by
  obtain rfl | rfl | rfl | rfl | rfl := hi
  · simp only [bodyOf, bwtDecBody] at h
    split at h <;> cases h
    rfl
  · cases h; rfl
  · simp only [bodyOf, rleDecBody] at h
    split at h <;> cases h
    rfl
  · simp only [bodyOf, hufDecBody, raise] at h
    split_ifs at h
    split at h <;> cases h
    rfl
  · simp only [bodyOf, decompressBody] at h
    split at h
    · cases h
    · split at h
      · cases h
      · split at h
        · cases h
        · split at h <;> cases h
          rfl

theorem bodyOf_hufLoad_ok {o : Operands} {x : List Byte} {r : Result} (h : bodyOf .hufLoad o x = .ok r) :
    ∃ p, parseTable true x = .ok p ∧ r = ⟨[], none, none, some (p.ct, noFreq), p.count == 0⟩ := by
  simp only [bodyOf, hufLoadBody] at h
  split at h <;> cases h
  exact ⟨_, ‹_›, rfl⟩

/-- DST_LEN holds the length of a committed output whole, since DST_CAP bounds it (R151). -/
theorem commit_dstLen_eq_zero_iff {i : Instr} {r : Result} {s : State} (h : r.out.length ≤ s.dstCap.toNat) :
    (commit i r s).dstLen = 0 ↔ r.out.length = 0 := by
  have hlt : r.out.length < 2 ^ 32 := h.trans_lt s.dstCap.isLt
  rw [commit_dstLen, ← BitVec.toNat_inj, BitVec.toNat_ofNat, Nat.mod_eq_of_lt hlt]
  rfl

/-- Settles O31, by the raw side of each body. -/
theorem emptyIsTheRawSide : Obligations.EmptyIsTheRawSide := by
  intro i s t h hk
  obtain ⟨r, hf, rfl⟩ := exec_succeeded h hk
  obtain ⟨-, hout, hb⟩ := frame_ok hf
  rw [commit_empty]
  refine ⟨fun hi => ?_, fun hi => ?_, fun hi => ?_, fun hi => ?_⟩
  · subst hi
    cases hb
    rfl
  · have hnop : i ≠ .nop := by rintro rfl; simp at hi
    rw [bodyOf_empty_of_encodes hi hb, emptyFlag_iff, sourceOf_of_ne_nop s hnop, length_sourceSeq, ← BitVec.toNat_inj]
    rfl
  · have hw : i ≠ .nop ∧ i ≠ .hufLoad := by constructor <;> rintro rfl <;> simp at hi
    rw [bodyOf_empty_of_decodes hi hb, emptyFlag_iff,
      commit_dstLen_eq_zero_iff (hout ((writesDst_iff i).mpr hw)).2]
  · subst hi
    obtain ⟨p, hp, rfl⟩ := bodyOf_hufLoad_ok hb
    rw [commit_ct, beq_iff_eq]
    exact parseTable_count hp

/-! ## NOP (R160) -/

theorem frame_nop (s : State) : frame .nop (bodyOf .nop) s = .ok (Result.plain [] false) := rfl

/-- Settles O32: NOP reads no source and writes no destination, so its frame has nothing to check. -/
theorem nopCompletes : Obligations.NopCompletes := fun s => exec_of_frame_ok (frame_nop s)

end Sys2Proof.Machine
end

section
/-! PROOFS. The frame around a body (R143 to R154) of a command that reads the source and writes the destination:
the errors before the body, the error of the body, and the delivery of its output. -/

namespace Sys2Proof.Machine

open Sys2Proof.Spec

theorem frame_of_not_srcShort {i : Instr} (body : Body) {s : State} (hi : i ≠ .nop) (hs : SrcFits s)
    (hd : i = .hufLoad ∨ DstFits s) (h : ¬ SrcShort s) : frame i body s = .error ⟨.lengthLimit, .ctrl⟩ := by
  have hr := (readsSrc_iff i).mpr hi
  have hw : (writesDst i && !dstInBounds s) = false := by
    obtain rfl | hd := hd
    · rfl
    · rw [(dstInBounds_iff s).mpr hd, Bool.not_true, Bool.and_false]
  simp [frame, hr, (srcInBounds_iff s).mpr hs, hw, Nat.lt_of_not_le h, raise]

/-- The errors that the frame finds before it runs the body (R145), whatever the body. -/
theorem frameErrors_of_writesDst {i : Instr} (h : writesDst i = true) (s : State) : FrameErrors i s := by
  obtain ⟨hi, hl⟩ := (writesDst_iff i).mp h
  exact ⟨fun hs => exec_aborts_of_frame_error (frame_of_not_srcFits _ hi hs),
    fun hs hd => exec_aborts_of_frame_error (frame_of_not_dstFits _ hi hl hs hd),
    fun hs hd hn => exec_aborts_of_frame_error (frame_of_not_srcShort _ hi hs (.inr hd) hn)⟩

/-- The run of bytes the model reads is the one of R15. -/
theorem bytesAt_eq_readBytes (m : Memory) (a n : Nat) : bytesAt m a n = m.readBytes a n := by
  refine List.ext_getElem? fun k => ?_
  by_cases hk : k < n
  · rw [Memory.getElem?_readBytes m a n k hk, bytesAt, List.getElem?_map, List.getElem?_range hk, Option.map_some]
  · rw [List.getElem?_eq_none (by simp [bytesAt]; omega), List.getElem?_eq_none (by simp; omega)]

@[simp] theorem length_src (s : State) : (src s).length = s.srcLen.toNat := by simp [src, bytesAt]

theorem sourceOf_eq_src {i : Instr} (s : State) (h : i ≠ .nop) : sourceOf i s = src s := by
  rw [sourceOf_of_ne_nop s h, sourceSeq, src, bytesAt_eq_readBytes]

/-- In a ready state the frame runs the body on the source and then checks the capacity. -/
theorem frame_of_ready {i : Instr} (body : Body) {s : State} (h : writesDst i = true) (hs : Ready s) :
    frame i body s = body (operandsOf s) (src s) >>= capacityCheck i s := by
  obtain ⟨hsrc, hdst, hlen⟩ := hs
  obtain ⟨hi, -⟩ := (writesDst_iff i).mp h
  rw [frame_of_checks body (fun _ => ⟨(srcInBounds_iff s).mpr hsrc, hlen⟩) (fun _ => (dstInBounds_iff s).mpr hdst),
    sourceOf_eq_src s hi]
  cases body (operandsOf s) (src s) <;> rfl

theorem exec_of_body_error {i : Instr} {s : State} {e : CmdError} (h : writesDst i = true) (hs : Ready s)
    (hb : bodyOf i (operandsOf s) (src s) = .error e) : exec i s = .next (aborted e.kind e.stage s) := by
  refine exec_aborts_of_frame_error ?_
  rw [frame_of_ready _ h hs, hb]
  rfl

theorem readOffset_dstLen (s : State) : readOffset 0x030 s = s.dstLen :=
  readOffset_of_offset (r := .dstLen) s rfl

/-- What a commit writes (R153): DST_CAP bounds the output, so DST_LEN holds its length whole. -/
theorem wrote_commit {i : Instr} {r : Result} {s : State} (h : writesDst i = true) (hm : Memory.wf s.dm = true)
    (hc : r.out.length ≤ s.dstCap.toNat) : Wrote s (commit i r s) r.out := by
  have hlen : (commit i r s).dstLen.toNat = r.out.length := by
    rw [commit_dstLen, BitVec.toNat_ofNat]
    exact Nat.mod_eq_of_lt (hc.trans_lt s.dstCap.isLt)
  refine ⟨hlen, ?_, ?_, read_commit_outside i r s⟩
  · rw [readOffset_dstLen, hlen]
  · rw [bytesAt_eq_readBytes]
    exact readBytes_commit r h hm

/-- A command whose body succeeds in a ready state delivers the body's result (R151, R153); `more` is what its result
registers hold. -/
theorem delivers_of_body_ok {i : Instr} {s : State} {r : Result} {more : State → Prop} (h : writesDst i = true)
    (hm : Memory.wf s.dm = true) (hs : Ready s) (hb : bodyOf i (operandsOf s) (src s) = .ok r)
    (hmore : more (commit i r s)) : Delivers i s r.out r.empty more := by
  have hf : frame i (bodyOf i) s = capacityCheck i s r := by
    rw [frame_of_ready _ h hs, hb]
    rfl
  constructor
  · intro hc
    exact exec_aborts_of_frame_error (hf.trans (capacityCheck_of_lt h hc))
  · intro hc
    exact ⟨commit i r s, exec_of_frame_ok (hf.trans (capacityCheck_of_le fun _ => hc)),
      ⟨rfl, rfl, rfl, rfl, rfl, rfl⟩, wrote_commit h hm hc, hmore⟩

/-- EMPTY by the source length, for a raw side as long as the source (R155). -/
theorem emptyFlag_of_length_eq {x : List Byte} {s : State} (h : x.length = s.srcLen.toNat) :
    emptyFlag x = (s.srcLen == 0) := by
  rw [Bool.eq_iff_iff, emptyFlag_iff, h, beq_iff_eq, ← BitVec.toNat_inj]
  rfl

end Sys2Proof.Machine
end

section
/-! PROOFS. The BWT engine of 41_bwt.md: the order of the rotations (R172) and the engine's sort, BWT_ENC (R180), the LF
walk (R177) and BWT_DEC (R181). -/

namespace Sys2Proof.Machine

open Sys2Proof.Spec

/-! ## The order of the rotations -/

/-- What R172 compares two rotations by: the bytes in lexicographic order, then the start position. -/
def rotationKey (t : List Byte) (i : Nat) : Lex (Fin t.length → Nat) ×ₗ Nat :=
  toLex (toLex fun k => (t.getD ((i + k) % t.length) 0).toNat, i)

/-- The lexicographic order by its first difference, with the positions as numbers. -/
theorem toLex_fin_lt_iff {n : Nat} (f g : Nat → Nat) :
    (toLex fun k : Fin n => f k) < (toLex fun k : Fin n => g k) ↔ ∃ k < n, (∀ k' < k, f k' = g k') ∧ f k < g k := by
  constructor
  · rintro ⟨k, heq, hlt⟩
    exact ⟨k, k.isLt, fun k' hk' => heq ⟨k', hk'.trans k.isLt⟩ hk', hlt⟩
  · rintro ⟨k, hk, heq, hlt⟩
    exact ⟨⟨k, hk⟩, fun k' hk' => heq k' hk', hlt⟩

/-- The order of R172 is that of the keys, so it inherits the laws of a linear order. -/
theorem cycLess_iff_rotationKey_lt (t : List Byte) (i j : Nat) :
    CycLess t i j ↔ rotationKey t i < rotationKey t j := by
  rw [rotationKey, rotationKey, Prod.Lex.toLex_lt_toLex,
    toLex_fin_lt_iff (fun k => (t.getD ((i + k) % t.length) 0).toNat) (fun k => (t.getD ((j + k) % t.length) 0).toNat)]
  simp only [CycLess, toLex_inj, funext_iff, Fin.forall_iff, BitVec.toNat_inj]

theorem rotationKey_inj {t : List Byte} {i j : Nat} : rotationKey t i = rotationKey t j ↔ i = j :=
  ⟨fun h => congrArg (fun x => (ofLex x).2) h, fun h => h ▸ rfl⟩

/-- The engine's comparison of two lists that begin with `f 0, …, f (n - 1)` and `g 0, …, g (n - 1)`: the first
difference decides, and without one the start positions do. -/
theorem rotationLe_iff (i j : Nat) {n : Nat} {x y : List Byte} {f g : Nat → Byte}
    (hx : ∀ k < n, x[k]? = some (f k)) (hy : ∀ k < n, y[k]? = some (g k)) :
    rotationLe i j n x y = true ↔
      (∃ k < n, (∀ k' < k, f k' = g k') ∧ (f k).toNat < (g k).toNat) ∨ ((∀ k < n, f k = g k) ∧ i ≤ j) := by
  induction n generalizing x y f g with
  | zero => simp [rotationLe]
  | succ n ih =>
    obtain ⟨a, x, rfl⟩ : ∃ a x', x = a :: x' := List.exists_cons_of_ne_nil (by rintro rfl; simpa using hx 0)
    obtain ⟨b, y, rfl⟩ : ∃ b y', y = b :: y' := List.exists_cons_of_ne_nil (by rintro rfl; simpa using hy 0)
    simp only [Nat.forall_lt_succ_left, List.getElem?_cons_zero, List.getElem?_cons_succ, Option.some.injEq] at hx hy
    obtain ⟨rfl, hx⟩ := hx
    obtain ⟨rfl, hy⟩ := hy
    rw [rotationLe, Nat.exists_lt_succ_left]
    simp only [Nat.forall_lt_succ_left]
    split
    · next h => simp [h, ih hx hy]
    · next h => simp [h]

/-- A rotation is a run of the block written twice (R171). -/
theorem getElem?_drop_append_self {t : List Byte} {i k : Nat} (hi : i < t.length) (hk : k < t.length) :
    ((t ++ t).drop i)[k]? = some (t.getD ((i + k) % t.length) 0) := by
  have hmod : (i + k) % t.length < t.length := Nat.mod_lt _ (by omega)
  rw [List.getElem?_drop, List.getD_eq_getElem _ _ hmod, ← List.getElem?_eq_getElem hmod]
  by_cases h : i + k < t.length
  · rw [List.getElem?_append_left h, Nat.mod_eq_of_lt h]
  · rw [List.getElem?_append_right (by omega), Nat.mod_eq_sub_mod (by omega), Nat.mod_eq_of_lt (by omega)]

theorem rotationLe_rotations_iff {t : List Byte} {i j : Nat} (hi : i < t.length) (hj : j < t.length) :
    rotationLe i j t.length ((t ++ t).drop i) ((t ++ t).drop j) = true ↔ i = j ∨ CycLess t i j := by
  rw [rotationLe_iff i j (fun k => getElem?_drop_append_self hi) (fun k => getElem?_drop_append_self hj),
    Nat.le_iff_lt_or_eq, and_or_left, ← or_assoc, or_comm]
  refine or_congr_left (and_iff_right_of_imp ?_)
  rintro rfl k -
  rfl

theorem rotationLe_rotations_iff_key {t : List Byte} {i j : Nat} (hi : i < t.length) (hj : j < t.length) :
    rotationLe i j t.length ((t ++ t).drop i) ((t ++ t).drop j) = true ↔ rotationKey t i ≤ rotationKey t j := by
  rw [rotationLe_rotations_iff hi hj, cycLess_iff_rotationKey_lt, le_iff_eq_or_lt, rotationKey_inj]

/-- Settles O45: R172 orders the rotations by a key of a linear order, and no two of them share one. -/
theorem rotationOrderIsStrictTotal : Obligations.RotationOrderIsStrictTotal := by
  intro t
  refine ⟨fun i j hi hj => rotationLe_rotations_iff hi hj, ?_⟩
  simp only [cycLess_iff_rotationKey_lt]
  exact ⟨fun i => lt_irrefl _, fun i j k => lt_trans, fun i j _ _ hij => lt_or_gt_of_ne (rotationKey_inj.not.mpr hij)⟩

/-! ## The sort -/

theorem sortedOrder_eq_insertionSort (t : List Byte) :
    sortedOrder t = (List.range t.length).insertionSort (fun i j => rotationKey t i ≤ rotationKey t j) := by
  rw [sortedOrder, rotations, ← List.map_insertionSort (r := fun i j => rotationKey t i ≤ rotationKey t j),
    List.map_map]
  · exact List.map_id _
  · intro i hi j hj
    exact (rotationLe_rotations_iff_key (List.mem_range.mp hi) (List.mem_range.mp hj)).symm

theorem sortedOrder_perm (t : List Byte) : (sortedOrder t).Perm (List.range t.length) := by
  rw [sortedOrder_eq_insertionSort]
  exact List.perm_insertionSort _ _

/-- The order that the engine's sort computes is the sorted order of R173. -/
theorem sortedOrder_sorted (t : List Byte) : SortedOrder t (sortedOrder t) := by
  refine ⟨sortedOrder_perm t, ?_⟩
  have hle : (sortedOrder t).Pairwise (fun i j => rotationKey t i ≤ rotationKey t j) := by
    have : Std.Total (fun i j => rotationKey t i ≤ rotationKey t j) := ⟨fun i j => le_total _ _⟩
    have : IsTrans Nat (fun i j => rotationKey t i ≤ rotationKey t j) := ⟨fun i j k => le_trans⟩
    rw [sortedOrder_eq_insertionSort]
    exact List.pairwise_insertionSort _ _
  have hnodup : (sortedOrder t).Nodup := (sortedOrder_perm t).nodup_iff.mpr List.nodup_range
  refine hle.imp₂ (fun i j hij hne => ?_) hnodup
  rw [cycLess_iff_rotationKey_lt]
  exact lt_of_le_of_ne hij (rotationKey_inj.not.mpr hne)

theorem length_bwtLast (t : List Byte) : (bwtLast t).length = t.length := by
  rw [bwtLast, List.length_map, (sortedOrder_perm t).length_eq, List.length_range]

/-- The engine's transform and index are the forward transform of R174, and of R180 for the empty block. -/
theorem forward_bwtLast (t : List Byte) : Forward t (bwtLast t) (bwtRot t).1 (bwtRot t).2 := by
  by_cases ht : t = []
  · subst ht
    exact .empty rfl
  · rw [bwtRot, if_neg (mt List.length_eq_zero_iff.mp ht)]
    exact .block _ ht (sortedOrder_sorted t)

theorem bwtRot_fst_le (t : List Byte) : (bwtRot t).1 ≤ t.length := by
  unfold bwtRot
  split
  · exact Nat.zero_le _
  · exact List.idxOf_le_length.trans_eq (by rw [(sortedOrder_perm t).length_eq, List.length_range])

theorem bodyOf_bwtEnc (o : Operands) (x : List Byte) :
    bodyOf .bwtEnc o x = .ok { Result.plain (bwtLast x) (emptyFlag x) with rot := some (bwtRot x) } := rfl

/-- Settles O33: the body has no error of its own, and its result is the forward transform; the index is at most the
length of the source, so ROT_IDX holds it whole. -/
theorem bwtEncTransforms : Obligations.BwtEncTransforms := by
  rintro s ⟨-, hm⟩
  refine ⟨frameErrors_of_writesDst rfl s, fun hs => ⟨bwtLast (src s), _, _, forward_bwtLast (src s), ?_, ?_⟩⟩
  · rw [length_bwtLast, length_src]
  · have hidx : (bwtRot (src s)).1 < 2 ^ 32 :=
      ((bwtRot_fst_le _).trans_eq (length_src s)).trans_lt s.srcLen.isLt
    rw [← emptyFlag_of_length_eq (length_src s)]
    exact delivers_of_body_ok rfl hm hs (bodyOf_bwtEnc _ _) ⟨Nat.mod_eq_of_lt hidx, rfl⟩

/-! ## The LF walk -/

/-- Positions below `n`, each with its byte, are the first `n` bytes. -/
theorem map_getD_range {l : List Byte} {n : Nat} (h : n ≤ l.length) :
    (List.range n).map (fun q => l.getD q 0) = l.take n := by
  refine List.ext_getElem (by simp [h]) fun q hq _ => ?_
  have hq : q < n := by simpa using hq
  simp [List.getElem?_eq_getElem (hq.trans_le h)]

/-- The engine counts over the bytes, the rule over their positions (R176). -/
theorem smallerCount_eq_smaller (l : List Byte) (c : Byte) : smallerCount l c = smaller l c := by
  have h := map_getD_range (le_refl l.length)
  rw [List.take_length] at h
  calc smallerCount l c
      = ((List.range l.length).map fun q => l.getD q 0).countP (fun b => decide (b.toNat < c.toNat)) := by
        rw [h, smallerCount]
    _ = smaller l c := List.countP_map

theorem occurrence_eq_occ {l : List Byte} {p : Nat} (hp : p < l.length) : occurrence l p = occ l p := by
  rw [occurrence, ← map_getD_range hp, List.count_eq_countP, List.countP_map, occ]
  rfl

theorem lastToFirst_eq_lf {l : List Byte} {p : Nat} (hp : p < l.length) : lastToFirst l p = lf l p := by
  rw [lastToFirst, smallerCount_eq_smaller, occurrence_eq_occ hp, lf]

/-- LF stays in the block: the bytes smaller than `L[p]` and those equal to it are together at most all of them. -/
theorem lastToFirst_lt {l : List Byte} {p : Nat} (hp : p < l.length) : lastToFirst l p < l.length := by
  have hocc : occurrence l p ≤ l.countP (fun b => ¬ decide (b.toNat < (l.getD p 0).toNat)) := by
    refine ((List.take_sublist _ _).count_le _).trans (List.countP_mono_left fun b _ hb => ?_)
    simp [beq_iff_eq.mp hb]
  have hall := l.length_eq_countP_add_countP (fun b => decide (b.toNat < (l.getD p 0).toNat))
  rw [lastToFirst, smallerCount]
  omega

/-- The last `m` steps of the walk of R177 along the positions `p`, with the bytes of the earlier steps put out, give
the whole output. -/
theorem lfWalk_of_walk {l out : List Byte} {p : Nat → Nat} (hlen : out.length = l.length)
    (hlt : ∀ k < l.length, p k < l.length) (hp : ∀ k < l.length, p (k + 1) = lf l (p k))
    (hout : ∀ k < l.length, out.getD (l.length - 1 - k) 0 = l.getD (p k) 0) {m : Nat}
    (hm : m ≤ l.length) : lfWalk l m (p (l.length - m)) (out.drop m) = out := by
  induction m with
  | zero => rfl
  | succ m ih =>
    have hk : l.length - (m + 1) < l.length := by omega
    have hnext := hp _ hk
    have hbyte := hout _ hk
    rw [show l.length - (m + 1) + 1 = l.length - m by omega, ← lastToFirst_eq_lf (hlt _ hk)] at hnext
    rw [show l.length - 1 - (l.length - (m + 1)) = m by omega, List.getD_eq_getElem _ _ (by omega)] at hbyte
    rw [lfWalk, ← hnext, ← hbyte, ← List.drop_eq_getElem_cons]
    exact ih (by omega)

theorem bwtInverse_of_walk {l out : List Byte} {i : Nat} (hi : i < l.length) (h : Walk l i out) :
    bwtInverse l i = out := by
  obtain ⟨hlen, p, rfl, hp, hout⟩ := h
  have hlt : ∀ k < l.length, p k < l.length := by
    intro k hk
    induction k with
    | zero => exact hi
    | succ k ih =>
      have hpk := ih (by omega)
      rw [hp k (by omega), ← lastToFirst_eq_lf hpk]
      exact lastToFirst_lt hpk
  have hwalk := lfWalk_of_walk hlen hlt hp hout le_rfl
  rwa [Nat.sub_self, ← hlen, List.drop_length, hlen] at hwalk

theorem bwtDecode_of_bwtDecodes {i : Word} {v : Bool} {l : List Byte} {o : Except CmdError (List Byte)}
    (h : BwtDecodes i.toNat v l o) : bwtDecode i v l = o := by
  cases h with
  | unused hl hv => simp [bwtDecode, hl, hv, raise]
  | missing hl hv => simp [bwtDecode, hl, hv, raise]
  | range hl hv hi => simp [bwtDecode, hl, hv, hi, raise]
  | empty hl hv => simp [bwtDecode, hl, hv]
  | walk out hl hv hi hw => simp [bwtDecode, hl, hv, Nat.not_le.mpr hi, bwtInverse_of_walk hi hw]

theorem length_of_bwtDecodes {i : Nat} {v : Bool} {l out : List Byte} (h : BwtDecodes i v l (.ok out)) :
    out.length = l.length := by
  cases h with
  | empty hl _ => rw [hl]
  | walk _ _ _ _ hw => exact hw.1

theorem bodyOf_bwtDec (o : Operands) (x : List Byte) :
    bodyOf .bwtDec o x =
      (bwtDecode o.rotIdx o.rotValid x).map fun out => Result.plain out (emptyFlag out) := by
  rw [bodyOf, bwtDecBody]
  cases bwtDecode o.rotIdx o.rotValid x <;> rfl

/-- Settles O34: the outcome of R181 is the one the body computes, and an output is as long as the source. -/
theorem bwtDecInverts : Obligations.BwtDecInverts := by
  rintro s ⟨-, hm⟩
  refine ⟨frameErrors_of_writesDst rfl s, fun hs o ho => ?_⟩
  have hdec : bwtDecode (operandsOf s).rotIdx (operandsOf s).rotValid (src s) = o := bwtDecode_of_bwtDecodes ho
  have hbody := bodyOf_bwtDec (operandsOf s) (src s)
  rw [hdec] at hbody
  cases o with
  | error e => exact exec_of_body_error rfl hs hbody
  | ok out =>
    rw [← emptyFlag_of_length_eq ((length_of_bwtDecodes ho).trans (length_src s))]
    exact delivers_of_body_ok rfl hm hs hbody trivial

end Sys2Proof.Machine
end

section
/-! PROOFS. The MTF transducer of 42_mtf.md: the move to the front (R202), the encode and decode steps (R203, R204),
MTF_ENC (R205) and MTF_DEC (R206). -/

namespace Sys2Proof.Machine

open Sys2Proof.Spec

/-! ## The move to the front -/

theorem front_eq_cons_eraseIdx {r : List Byte} {j : Nat} {c : Byte} (h : r[j]? = some c) :
    front r j = c :: r.eraseIdx j := by
  rw [front, List.getD_eq_getElem?_getD, h, Option.getD_some, List.eraseIdx_eq_take_drop_succ]

theorem front_perm {r : List Byte} {j : Nat} (h : j < r.length) : (front r j).Perm r := by
  rw [front_eq_cons_eraseIdx (List.getElem?_eq_getElem h)]
  exact List.getElem_cons_eraseIdx_perm h

/-! ## The RecencyList -/

theorem length_of_perm_ascending {r : List Byte} (h : r.Perm ascending) : r.length = 256 :=
  h.length_eq.trans length_allBytes

theorem mem_of_perm_ascending {r : List Byte} (h : r.Perm ascending) (c : Byte) : c ∈ r :=
  h.mem_iff.mpr (mem_allBytes c)

theorem front_perm_ascending {r : List Byte} (h : r.Perm ascending) {j : Nat} (hj : j < 256) :
    (front r j).Perm ascending :=
  (front_perm (hj.trans_eq (length_of_perm_ascending h).symm)).trans h

theorem idxOf_lt_of_perm_ascending {r : List Byte} (h : r.Perm ascending) (c : Byte) : r.idxOf c < 256 :=
  (List.idxOf_lt_length_of_mem (mem_of_perm_ascending h c)).trans_eq (length_of_perm_ascending h)

/-- The index of a byte fits in a byte, so the encoder emits it whole. -/
theorem toNat_idxOf {r : List Byte} (h : r.Perm ascending) (c : Byte) :
    (BitVec.ofNat 8 (r.idxOf c)).toNat = r.idxOf c :=
  Nat.mod_eq_of_lt (idxOf_lt_of_perm_ascending h c)

/-! ## The steps -/

/-- A step of R203 and R204, with the model's move to the front. -/
theorem mtfRun_cons_of_front {r : List Byte} {c j : Byte} {rest : List (Byte × Byte)} (h : r[j.toNat]? = some c)
    (hrest : MtfRun (front r j.toNat) rest) : MtfRun r ((c, j) :: rest) :=
  .cons r c j rest h (front_eq_cons_eraseIdx h ▸ hrest)

theorem length_mtfEncodeFrom (r t : List Byte) : (mtfEncodeFrom r t).length = t.length := by
  induction t generalizing r with
  | nil => rfl
  | cons c t ih => rw [mtfEncodeFrom, List.length_cons, ih, List.length_cons]

theorem length_mtfDecodeFrom (r t : List Byte) : (mtfDecodeFrom r t).length = t.length := by
  induction t generalizing r with
  | nil => rfl
  | cons j t ih => rw [mtfDecodeFrom, List.length_cons, ih, List.length_cons]

/-- Every byte has an index in the RecencyList, and the move to the front leaves a RecencyList. -/
theorem mtfRun_mtfEncodeFrom {r : List Byte} (hr : r.Perm ascending) (t : List Byte) :
    MtfRun r (t.zip (mtfEncodeFrom r t)) := by
  induction t generalizing r with
  | nil => exact .nil r
  | cons c t ih =>
    have hidx := toNat_idxOf hr c
    refine mtfRun_cons_of_front ?_ ?_
    · rw [hidx]
      exact List.getElem?_idxOf (mem_of_perm_ascending hr c)
    · rw [hidx]
      exact ih (front_perm_ascending hr (idxOf_lt_of_perm_ascending hr c))

/-- Every index names a byte of the RecencyList, so the decoder has no input it cannot run (R206). -/
theorem mtfRun_mtfDecodeFrom {r : List Byte} (hr : r.Perm ascending) (t : List Byte) :
    MtfRun r ((mtfDecodeFrom r t).zip t) := by
  induction t generalizing r with
  | nil => exact .nil r
  | cons j t ih =>
    have hj : j.toNat < r.length := j.isLt.trans_eq (length_of_perm_ascending hr).symm
    refine mtfRun_cons_of_front ?_ (ih (front_perm_ascending hr j.isLt))
    rw [List.getElem?_eq_getElem hj, List.getD_eq_getElem _ _ hj]

/-! ## The transducers and their commands -/

theorem length_mtfDecode (x : List Byte) : (mtfDecode x).length = x.length := length_mtfDecodeFrom _ x

theorem mtf_mtfEncode (x : List Byte) : Mtf x (mtfEncode x) :=
  ⟨(length_mtfEncodeFrom _ x).symm, mtfRun_mtfEncodeFrom (.refl ascending) x⟩

theorem mtf_mtfDecode (x : List Byte) : Mtf (mtfDecode x) x :=
  ⟨length_mtfDecode x, mtfRun_mtfDecodeFrom (.refl ascending) x⟩

theorem bodyOf_mtfEnc (o : Operands) (x : List Byte) :
    bodyOf .mtfEnc o x = .ok (Result.plain (mtfEncode x) (emptyFlag x)) := rfl

theorem bodyOf_mtfDec (o : Operands) (x : List Byte) :
    bodyOf .mtfDec o x = .ok (Result.plain (mtfDecode x) (emptyFlag (mtfDecode x))) := rfl

/-- Settles O35: the body has no error of its own, and its output is the encoding of the source. -/
theorem mtfEncEmitsIndices : Obligations.MtfEncEmitsIndices := by
  rintro s ⟨-, hm⟩
  refine ⟨frameErrors_of_writesDst rfl s, fun hs => ⟨mtfEncode (src s), mtf_mtfEncode (src s), ?_⟩⟩
  rw [← emptyFlag_of_length_eq (length_src s)]
  exact delivers_of_body_ok rfl hm hs (bodyOf_mtfEnc _ _) trivial

/-- Settles O36: the body has no error of its own, and its output is the decoding of the source and as long as it. -/
theorem mtfDecEmitsBytes : Obligations.MtfDecEmitsBytes := by
  rintro s ⟨-, hm⟩
  refine ⟨frameErrors_of_writesDst rfl s, fun hs => ⟨mtfDecode (src s), mtf_mtfDecode (src s), ?_⟩⟩
  rw [← emptyFlag_of_length_eq ((length_mtfDecode _).trans (length_src s))]
  exact delivers_of_body_ok rfl hm hs (bodyOf_mtfDec _ _) trivial

end Sys2Proof.Machine
end

section
/-! PROOFS. The RLE unit of 43_rle.md: the run list (R221) and its serialised form (R222), RLE_ENC (R225), the decoder
(R223) and RLE_DEC (R226). -/

namespace Sys2Proof.Machine

open Sys2Proof.Spec

/-! ## Pair lists -/

@[simp] theorem pairBytes_nil : pairBytes [] = [] := rfl

@[simp] theorem pairBytes_cons (k : Nat) (c : Byte) (ps : List (Nat × Byte)) :
    pairBytes ((k, c) :: ps) = BitVec.ofNat 8 k :: c :: pairBytes ps := rfl

theorem pairBytes_append (ps qs : List (Nat × Byte)) : pairBytes (ps ++ qs) = pairBytes ps ++ pairBytes qs :=
  List.flatMap_append

@[simp] theorem expand_nil : expand [] = [] := rfl

@[simp] theorem expand_cons (k : Nat) (c : Byte) (ps : List (Nat × Byte)) :
    expand ((k, c) :: ps) = List.replicate k c ++ expand ps := rfl

theorem length_pairBytes (ps : List (Nat × Byte)) : (pairBytes ps).length = 2 * ps.length := by
  induction ps with
  | nil => rfl
  | cons p ps ih =>
    obtain ⟨k, c⟩ := p
    rw [pairBytes_cons, List.length_cons, List.length_cons, ih, List.length_cons]
    omega

theorem countsOk_cons {k : Nat} {c : Byte} {ps : List (Nat × Byte)} :
    CountsOk ((k, c) :: ps) ↔ (1 ≤ k ∧ k ≤ 255) ∧ CountsOk ps := List.forall_mem_cons

/-- A count of R221 fits in its byte. -/
theorem toNat_count {k : Nat} (h : k ≤ 255) : (BitVec.ofNat 8 k).toNat = k := Nat.mod_eq_of_lt (by omega)

/-! ## The encoder -/

theorem runs_singleton {k : Nat} (c : Byte) (hk : 1 ≤ k ∧ k ≤ 255) : Runs (List.replicate k c) [(k, c)] :=
  ⟨countsOk_cons.mpr ⟨hk, List.forall_mem_nil _⟩, .singleton _, List.append_nil _⟩

/-- A pair may stand before a run list that begins with another byte value, and a full one before any (R224). -/
theorem runs_cons {k j : Nat} {c x : Byte} {t : List Byte} {ps : List (Nat × Byte)} (hk : 1 ≤ k ∧ k ≤ 255)
    (hc : c = x → k = 255) (h : Runs t ((j, x) :: ps)) :
    Runs (List.replicate k c ++ t) ((k, c) :: (j, x) :: ps) := by
  obtain ⟨hcounts, hmax, rfl⟩ := h
  exact ⟨countsOk_cons.mpr ⟨hk, hcounts⟩, .cons_cons hc hmax, rfl⟩

/-- The inner loop with `k` bytes `c` read emits the run list of these bytes and the rest, and its first pair is one
of `c`. -/
theorem exists_runs_rleRun (c : Byte) {k : Nat} (hk : 1 ≤ k ∧ k ≤ 255) (t : List Byte) :
    ∃ j ps, Runs (List.replicate k c ++ t) ((j, c) :: ps) ∧ pairBytes ((j, c) :: ps) = rleRun c k t := by
  induction t generalizing c k with
  | nil => exact ⟨k, [], by simpa using runs_singleton c hk, rfl⟩
  | cons x t ih =>
    by_cases h : x = c ∧ k < 255
    · obtain ⟨rfl, hlt⟩ := h
      obtain ⟨j, ps, hruns, hbytes⟩ := ih x (k := k + 1) (by omega)
      rw [List.replicate_succ', List.append_assoc] at hruns
      exact ⟨j, ps, hruns, by rw [hbytes, rleRun, if_pos ⟨rfl, hlt⟩]⟩
    · obtain ⟨j, ps, hruns, hbytes⟩ := ih x (k := 1) (by omega)
      refine ⟨k, (j, x) :: ps, runs_cons hk (fun hcx => ?_) hruns, ?_⟩
      · have hfull : ¬ k < 255 := fun hlt => h ⟨hcx.symm, hlt⟩
        omega
      · rw [pairBytes_cons, hbytes, rleRun, if_neg h]

/-- The encoder emits the serialised run list (R221, R222). -/
theorem exists_runs_rleEncode (t : List Byte) : ∃ ps, Runs t ps ∧ pairBytes ps = rleEncode t := by
  cases t with
  | nil => exact ⟨[], ⟨List.forall_mem_nil _, .nil, rfl⟩, rfl⟩
  | cons c t =>
    obtain ⟨j, ps, hruns, hbytes⟩ := exists_runs_rleRun c (k := 1) (by omega) t
    exact ⟨(j, c) :: ps, hruns, hbytes⟩

theorem lim_of_lt {n : Nat} {x : List Byte} (g : Stage) (h : n < x.length) : lim n x g = .error ⟨.lengthLimit, g⟩ :=
  if_pos h

theorem lim_of_le {n : Nat} {x : List Byte} (g : Stage) (h : x.length ≤ n) : lim n x g = .ok x :=
  if_neg (Nat.not_lt.mpr h)

theorem bodyOf_rleEnc (o : Operands) (x : List Byte) :
    bodyOf .rleEnc o x = (lim o.seqMax (rleEncode x) .rle).map fun out => Result.plain out (emptyFlag x) := by
  rw [bodyOf, rleEncBody]
  cases lim o.seqMax (rleEncode x) .rle <;> rfl

/-- Settles O37: the encoder's output is the serialised run list, and SEQ_MAX is compared with its length. -/
theorem rleEncEmitsRuns : Obligations.RleEncEmitsRuns := by
  rintro s ⟨-, hm⟩
  refine ⟨frameErrors_of_writesDst rfl s, fun hs => ?_⟩
  obtain ⟨ps, hruns, hbytes⟩ := exists_runs_rleEncode (src s)
  have hbody := bodyOf_rleEnc (operandsOf s) (src s)
  rw [← hbytes] at hbody
  refine ⟨ps, hruns, fun hlt => ?_, fun hle => ?_⟩
  · rw [lim_of_lt (n := (operandsOf s).seqMax) .rle hlt] at hbody
    exact exec_of_body_error rfl hs hbody
  · rw [lim_of_le (n := (operandsOf s).seqMax) .rle hle] at hbody
    rw [← emptyFlag_of_length_eq (length_src s)]
    exact delivers_of_body_ok rfl hm hs hbody trivial

/-! ## The decoder -/

theorem rleExpand_zero (n len : Nat) (c : Byte) (t : List Byte) :
    rleExpand n len (0 :: c :: t) = .error ⟨.malformedRunList, .rle⟩ := by
  rw [rleExpand, if_pos rfl]
  rfl

/-- The decoder's step over a pair that the encoder may emit. -/
theorem rleExpand_count {n len k : Nat} (hk : 1 ≤ k ∧ k ≤ 255) (c : Byte) (t : List Byte) :
    rleExpand n len (BitVec.ofNat 8 k :: c :: t) =
      if n < len + k then .error ⟨.lengthLimit, .rle⟩
      else (rleExpand n (len + k) t).map (List.replicate k c ++ ·) := by
  have hne : BitVec.ofNat 8 k ≠ 0 := by
    rw [Ne, ← BitVec.toNat_inj, toNat_count hk.2]
    exact Nat.ne_of_gt hk.1
  rw [rleExpand, if_neg hne, toNat_count hk.2]
  cases rleExpand n (len + k) t <;> rfl

/-- Pairs that pass the decoder's two checks are expanded, and the decoder goes on with the bytes after them. -/
theorem rleExpand_pairBytes_append {n len : Nat} {ps : List (Nat × Byte)} (hps : CountsOk ps)
    (hlen : len + (expand ps).length ≤ n) (t : List Byte) :
    rleExpand n len (pairBytes ps ++ t) = (rleExpand n (len + (expand ps).length) t).map (expand ps ++ ·) := by
  induction ps generalizing len with
  | nil =>
    change rleExpand n len t = (rleExpand n len t).map id
    cases rleExpand n len t <;> rfl
  | cons p ps ih =>
    obtain ⟨k, c⟩ := p
    obtain ⟨hk, hps⟩ := countsOk_cons.mp hps
    rw [expand_cons, List.length_append, List.length_replicate, ← Nat.add_assoc] at hlen ⊢
    rw [pairBytes_cons, List.cons_append, List.cons_append, rleExpand_count hk, if_neg (by omega), ih hps hlen]
    cases rleExpand n (len + k + (expand ps).length) t with
    | error e => rfl
    | ok out => exact congrArg Except.ok (List.append_assoc _ _ _).symm

theorem rleDecode_of_odd {n : Nat} {t : List Byte} (h : t.length % 2 = 1) :
    rleDecode n t = .error ⟨.malformedRunList, .rle⟩ := if_pos h

/-- A sequence of even length that begins with pairs that pass the decoder's checks. -/
theorem rleDecode_pairBytes_append {n : Nat} {ps : List (Nat × Byte)} {t : List Byte}
    (heven : (pairBytes ps ++ t).length % 2 = 0) (hps : CountsOk ps) (hlen : (expand ps).length ≤ n) :
    rleDecode n (pairBytes ps ++ t) = (rleExpand n (expand ps).length t).map (expand ps ++ ·) := by
  rw [rleDecode, if_neg (by omega), rleExpand_pairBytes_append (len := 0) hps (by rwa [Nat.zero_add]), Nat.zero_add]

/-- The outcome of R223 is the one the unit's decoder computes. -/
theorem rleDecode_of_rleDecodes {n : Nat} {t : List Byte} {o : Except CmdError (List Byte)} (h : RleDecodes n t o) :
    rleDecode n t = o := by
  cases h with
  | odd hodd => exact rleDecode_of_odd hodd
  | zeroCount ps c rest heven hps ht hlen =>
    subst ht
    rw [rleDecode_pairBytes_append heven hps hlen, rleExpand_zero]
    rfl
  | tooLong ps k c rest heven hps ht hlen hlong =>
    obtain ⟨hps, hk⟩ := List.forall_mem_append.mp hps
    simp only [pairBytes_append, pairBytes_cons, pairBytes_nil, List.append_assoc, List.cons_append,
      List.nil_append] at ht
    subst ht
    rw [rleDecode_pairBytes_append heven hps hlen, rleExpand_count (countsOk_cons.mp hk).1, if_pos hlong]
    rfl
  | done ps hps ht hlen =>
    subst ht
    have heven : (pairBytes ps ++ []).length % 2 = 0 := by
      rw [List.append_nil, length_pairBytes, Nat.mul_mod_right]
    have h := rleDecode_pairBytes_append heven hps hlen
    simpa [rleExpand, Except.map] using h

theorem bodyOf_rleDec (o : Operands) (x : List Byte) :
    bodyOf .rleDec o x = (rleDecode o.seqMax x).map fun out => Result.plain out (emptyFlag out) := by
  rw [bodyOf, rleDecBody]
  cases rleDecode o.seqMax x <;> rfl

/-- Settles O38: the outcome of R223 is the one the body computes. -/
theorem rleDecExpandsPairs : Obligations.RleDecExpandsPairs := by
  rintro s ⟨-, hm⟩
  refine ⟨frameErrors_of_writesDst rfl s, fun hs o ho => ?_⟩
  have hdec : rleDecode (operandsOf s).seqMax (src s) = o := rleDecode_of_rleDecodes ho
  have hbody := bodyOf_rleDec (operandsOf s) (src s)
  rw [hdec] at hbody
  cases o with
  | error e => exact exec_of_body_error rfl hs hbody
  | ok out => exact delivers_of_body_ok rfl hm hs hbody trivial

end Sys2Proof.Machine
end

section
/-! PROOFS. The packing of bit strings (R281, R282): the packer is the rule's, unpacking gives the packed bits back with
zero bits after them, and only the packing of a bit string unpacks to it and zero bits. -/

namespace Sys2Proof.Machine

open Sys2Proof.Spec

/-! ## Padded beginnings of a list -/

theorem takeD_add {α : Type} (m n : Nat) (l : List α) (a : α) :
    l.takeD (m + n) a = l.takeD m a ++ (l.drop m).takeD n a := by
  induction m generalizing l with
  | zero => simp
  | succ m ih => cases l <;> simp [Nat.succ_add, ih]

theorem takeD_eq_append_replicate {α : Type} {n : Nat} {l : List α} (a : α) (h : l.length ≤ n) :
    l.takeD n a = l ++ List.replicate (n - l.length) a := by
  obtain ⟨k, rfl⟩ := Nat.exists_eq_add_of_le h
  rw [takeD_add, List.takeD_eq_take a le_rfl, List.take_length, List.drop_length, List.takeD_nil,
    Nat.add_sub_cancel_left]

theorem getD_takeD {α : Type} {n i : Nat} (l : List α) (a : α) (h : i < n) : (l.takeD n a).getD i a = l.getD i a := by
  induction n generalizing l i with
  | zero => omega
  | succ n ih =>
    cases i with
    | zero => cases l <;> simp
    | succ i =>
      cases l with
      | nil => simp
      | cons x l => exact ih l (Nat.lt_of_succ_lt_succ h)

/-! ## One byte -/

/-- A byte is packed from the first eight bits, the missing ones 0 (R281). -/
theorem packByte_takeD (w : BitString) : packByte (w.takeD 8 false) = packByte w := by
  refine congrArg (BitVec.ofNat 8) (List.foldl_ext _ _ 0 fun acc i hi => ?_)
  rw [getD_takeD w false (List.mem_range.mp hi)]

theorem byteBits_packByte_eight : ∀ b₀ b₁ b₂ b₃ b₄ b₅ b₆ b₇ : Bool,
    byteBits (packByte [b₀, b₁, b₂, b₃, b₄, b₅, b₆, b₇]) = [b₀, b₁, b₂, b₃, b₄, b₅, b₆, b₇] := by decide

theorem byteBits_packByte (w : BitString) : byteBits (packByte w) = w.takeD 8 false := by
  rw [← packByte_takeD w]
  exact byteBits_packByte_eight ..

theorem packByte_byteBits : ∀ b : Byte, packByte (byteBits b) = b := by decide

theorem packByte_byteBits_append (b : Byte) (w : BitString) : packByte (byteBits b ++ w) = b := by
  rw [← packByte_takeD, List.takeD_left' (length_byteBits b), packByte_byteBits]

/-- The model's accumulation of a byte is the sum of R281: bit `i` of the string has weight `2 ^ (7 - i)`. -/
theorem packByte_eq_sum (w : BitString) :
    packByte w = BitVec.ofNat 8 ((List.range 8).map fun i => if w.getD i false then 2 ^ (7 - i) else 0).sum := by
  have weight (b : Bool) (n : Nat) : (if b then n else 0) = b.toNat * n := by cases b <;> simp
  refine congrArg (BitVec.ofNat 8) ?_
  simp only [List.range_succ, List.range_zero, List.nil_append, List.cons_append, List.foldl_cons, List.foldl_nil,
    List.map_cons, List.map_nil, List.sum_cons, List.sum_nil, weight]
  ring

/-! ## Byte sequences -/

theorem packBytes_eq_map (n : Nat) (w : BitString) :
    packBytes n w = (List.range n).map fun j => packByte (w.drop (8 * j)) := by
  induction n generalizing w with
  | zero => rfl
  | succ n ih => simp [packBytes, ih, List.range_succ_eq_map, Function.comp_def, Nat.mul_add, Nat.add_comm]

@[simp] theorem length_packBytes (n : Nat) (w : BitString) : (packBytes n w).length = n := by
  simp [packBytes_eq_map]

@[simp] theorem length_pack (w : BitString) : (pack w).length = ceil8 w.length := length_packBytes _ w

/-- The model's packing is the one of R281. -/
theorem pack_eq_packed (w : BitString) : pack w = packed w := by
  rw [pack, packBytes_eq_map, packed, ceil8]
  refine List.map_congr_left fun j _ => ?_
  simp [packByte_eq_sum]

theorem unpack_cons (b : Byte) (p : List Byte) : unpack (b :: p) = byteBits b ++ unpack p := rfl

theorem unpack_packBytes (n : Nat) (w : BitString) : unpack (packBytes n w) = w.takeD (8 * n) false := by
  induction n generalizing w with
  | zero => rfl
  | succ n ih => rw [packBytes, unpack_cons, byteBits_packByte, ih, ← takeD_add, Nat.mul_succ, Nat.add_comm]

theorem packBytes_unpack (p : List Byte) : packBytes p.length (unpack p) = p := by
  induction p with
  | nil => rfl
  | cons b p ih =>
    rw [unpack_cons, List.length_cons, packBytes, packByte_byteBits_append, List.drop_left' (length_byteBits b), ih]

theorem unpack_injective : Function.Injective unpack := by
  intro p q h
  have hlen : p.length = q.length := by
    have := congrArg List.length h
    rw [length_unpack, length_unpack] at this
    omega
  rw [← packBytes_unpack p, h, hlen, packBytes_unpack]

/-- Unpacking gives the packed bits back, and zero bits up to a whole number of bytes (R282). -/
theorem unpack_pack (w : BitString) :
    unpack (pack w) = w ++ List.replicate (8 * ceil8 w.length - w.length) false := by
  rw [pack, unpack_packBytes, takeD_eq_append_replicate false (by unfold ceil8; omega)]

theorem take_unpack_pack (w : BitString) : (unpack (pack w)).take w.length = w := by
  rw [unpack_pack, List.take_left]

theorem drop_unpack_pack (w : BitString) : ∀ x ∈ (unpack (pack w)).drop w.length, x = false := by
  rw [unpack_pack, List.drop_left]
  exact fun x hx => List.eq_of_mem_replicate hx

/-- Bytes of which all bits after the first `n` are 0 are the packing of these `n` bits. -/
theorem pack_take_unpack {p : List Byte} {n : Nat} (hp : p.length = ceil8 n)
    (hpad : ∀ x ∈ (unpack p).drop n, x = false) : pack ((unpack p).take n) = p := by
  have hlen : (unpack p).length = 8 * ceil8 n := by rw [length_unpack, hp]
  have htake : ((unpack p).take n).length = n := by
    rw [List.length_take, hlen]
    unfold ceil8
    omega
  have hdrop : (unpack p).drop n = List.replicate (8 * ceil8 n - n) false :=
    List.eq_replicate_iff.mpr ⟨by rw [List.length_drop, hlen], hpad⟩
  refine unpack_injective ?_
  rw [unpack_pack, htake, ← hdrop, List.take_append_drop]

end Sys2Proof.Machine
end

section
/-! PROOFS. The serialised code table (R250 to R252) and HUF_LOAD (R261): the entries of a table are the lists that the
parser's loop accepts, and the parser accepts exactly the serialisations of the tables of R59. -/

namespace Sys2Proof.Machine

open Sys2Proof.Spec

/-! ## The entries of a table -/

/-- The entry lists of R250 with byte values from `lo` on: ascending, with codes of 1 to 255 bits. -/
def EntriesFrom (lo : Nat) (es : List (Byte × BitString)) : Prop :=
  es.Pairwise (fun p q => p.1.toNat < q.1.toNat) ∧ ∀ q ∈ es, lo ≤ q.1.toNat ∧ 1 ≤ q.2.length ∧ q.2.length ≤ 255

theorem entriesFrom_nil (lo : Nat) : EntriesFrom lo [] := ⟨.nil, List.forall_mem_nil _⟩

theorem entriesFrom_cons {lo : Nat} {b : Byte} {u : BitString} {es : List (Byte × BitString)} :
    EntriesFrom lo ((b, u) :: es) ↔
      lo ≤ b.toNat ∧ (1 ≤ u.length ∧ u.length ≤ 255) ∧ EntriesFrom (b.toNat + 1) es := by
  simp only [EntriesFrom, List.pairwise_cons, List.forall_mem_cons]
  constructor
  · rintro ⟨⟨hlt, hes⟩, ⟨hlo, hu⟩, hall⟩
    exact ⟨hlo, hu, hes, fun q hq => ⟨hlt q hq, (hall q hq).2⟩⟩
  · rintro ⟨hlo, hu, hes, hall⟩
    exact ⟨⟨fun q hq => (hall q hq).1, hes⟩, ⟨hlo, hu⟩,
      fun q hq => ⟨hlo.trans (Nat.le_of_succ_le (hall q hq).1), (hall q hq).2⟩⟩

theorem allBytes_ascending : allBytes.Pairwise (fun b c => b.toNat < c.toNat) := by
  rw [allBytes, List.pairwise_map]
  refine List.pairwise_lt_range.imp_of_mem fun {i j} hi hj hij => ?_
  rw [BitVec.toNat_ofNat, BitVec.toNat_ofNat, Nat.mod_eq_of_lt (List.mem_range.mp hi),
    Nat.mod_eq_of_lt (List.mem_range.mp hj)]
  exact hij

theorem mem_codeEntries {ct : CodeTable} {b : Byte} {u : BitString} :
    (b, u) ∈ codeEntries ct ↔ entry ct b = u ∧ u ≠ [] := by
  simp [codeEntries]

theorem codeEntries_eq_map (ct : CodeTable) : codeEntries ct = (coded ct).map fun b => (b, entry ct b) := by
  rw [codeEntries, List.filter_map]
  rfl

theorem entriesFrom_codeEntries {ct : CodeTable} (h : ∀ b, (entry ct b).length ≤ 255) :
    EntriesFrom 0 (codeEntries ct) := by
  refine ⟨List.Pairwise.filter _ (List.pairwise_map.mpr allBytes_ascending), fun q hq => ?_⟩
  obtain ⟨hq, hne⟩ := mem_codeEntries.mp hq
  exact ⟨Nat.zero_le _, List.length_pos_iff.mpr hne, hq ▸ h q.1⟩

/-- In a list with each byte at most once, the code looked up is the one listed. -/
theorem lookup_eq_some_iff_mem {lo : Nat} {es : List (Byte × BitString)} (hes : EntriesFrom lo es) {b : Byte}
    {u : BitString} : es.lookup b = some u ↔ (b, u) ∈ es := by
  induction es generalizing lo with
  | nil => simp
  | cons q es ih =>
    obtain ⟨c, v⟩ := q
    obtain ⟨-, -, hes'⟩ := entriesFrom_cons.mp hes
    rw [List.lookup_cons, List.mem_cons, Prod.mk.injEq]
    by_cases hbc : b = c
    · subst hbc
      have hnot : (b, u) ∉ es := fun hmem => Nat.lt_irrefl _ (hes'.2 _ hmem).1
      simp [hnot, eq_comm]
    · simp [hbc, beq_false_of_ne hbc, ih hes']

theorem entry_tableOf_eq_iff {lo : Nat} {es : List (Byte × BitString)} (hes : EntriesFrom lo es) {b : Byte}
    {u : BitString} (hu : u ≠ []) : entry (tableOf es) b = u ↔ (b, u) ∈ es := by
  rw [entry_tableOf, ← lookup_eq_some_iff_mem hes]
  cases es.lookup b with
  | none => simp [hu.symm]
  | some v => simp

theorem length_entry_tableOf_le {lo : Nat} {es : List (Byte × BitString)} (hes : EntriesFrom lo es) (b : Byte) :
    (entry (tableOf es) b).length ≤ 255 := by
  by_cases hb : entry (tableOf es) b = []
  · rw [hb]
    exact Nat.zero_le _
  · exact (hes.2 _ ((entry_tableOf_eq_iff hes hb).mp rfl)).2.2

/-- The entries of the table of an ascending list are the list. -/
theorem codeEntries_tableOf {es : List (Byte × BitString)} (hes : EntriesFrom 0 es) :
    codeEntries (tableOf es) = es := by
  have hlen (b : Byte) : (entry (tableOf es) b).length ≤ 255 := length_entry_tableOf_le hes b
  have : Std.Irrefl fun p q : Byte × BitString => p.1.toNat < q.1.toNat := ⟨fun _ => Nat.lt_irrefl _⟩
  have : Std.Antisymm fun p q : Byte × BitString => p.1.toNat < q.1.toNat :=
    ⟨fun _ _ hpq hqp => absurd (hpq.trans hqp) (Nat.lt_irrefl _)⟩
  refine (entriesFrom_codeEntries hlen).1.eq_of_mem_iff hes.1 fun q => ?_
  rw [mem_codeEntries]
  constructor
  · rintro ⟨hq, hne⟩
    exact (entry_tableOf_eq_iff hes hne).mp hq
  · intro hq
    have hne : q.2 ≠ [] := List.length_pos_iff.mp (hes.2 q hq).2.1
    exact ⟨(entry_tableOf_eq_iff hes hne).mpr hq, hne⟩

/-- A table is the table of its entries. -/
theorem tableOf_codeEntries {ct : CodeTable} (h : ∀ b, (entry ct b).length ≤ 255) :
    tableOf (codeEntries ct) = ct := by
  have hes := entriesFrom_codeEntries h
  refine table_ext fun b => ?_
  by_cases hb : entry ct b = []
  · by_contra hne
    rw [hb] at hne
    exact hne ((mem_codeEntries.mp ((entry_tableOf_eq_iff hes hne).mp rfl)).1.symm.trans hb)
  · exact (entry_tableOf_eq_iff hes hb).mpr (mem_codeEntries.mpr ⟨rfl, hb⟩)

/-! ## Codes of which none begins another -/

theorem codesPrefixFree_iff (cs : List BitString) :
    codesPrefixFree cs = true ↔ cs.Pairwise (fun c d => ¬ c <+: d ∧ ¬ d <+: c) := by
  induction cs with
  | nil => simp [codesPrefixFree]
  | cons c cs ih =>
    simp only [codesPrefixFree, Bool.and_eq_true, List.all_eq_true, Bool.not_eq_true', Bool.eq_false_iff, Ne,
      List.isPrefixOf_iff_prefix, ih, List.pairwise_cons]

/-- The parser's test of the entries' codes is the condition of R59 on a table with codes of at most 255 bits. -/
theorem tableOk_iff (ct : CodeTable) :
    TableOk ct ↔ (∀ b, (entry ct b).length ≤ 255) ∧ codesPrefixFree ((codeEntries ct).map Prod.snd) = true := by
  refine and_congr_right fun hlen => ?_
  have hes := entriesFrom_codeEntries hlen
  rw [codesPrefixFree_iff, List.pairwise_map]
  constructor
  · refine fun h => hes.1.imp_of_mem fun {p q} hp hq hpq => ?_
    obtain ⟨hpe, hpne⟩ := mem_codeEntries.mp hp
    obtain ⟨hqe, hqne⟩ := mem_codeEntries.mp hq
    have hne : p.1 ≠ q.1 := fun heq => Nat.lt_irrefl _ (heq ▸ hpq)
    rw [← hpe] at hpne ⊢
    rw [← hqe] at hqne ⊢
    exact ⟨h _ _ hne hpne, h _ _ hne.symm hqne⟩
  · intro h b b' hne hb hpre
    have hb' : entry ct b' ≠ [] := fun hnil => hb (List.prefix_nil.mp (hnil ▸ hpre))
    have : Std.Symm fun p q : Byte × BitString => ¬ p.2 <+: q.2 ∧ ¬ q.2 <+: p.2 := ⟨fun _ _ hpq => hpq.symm⟩
    exact (h.forall (mem_codeEntries.mpr ⟨rfl, hb⟩) (mem_codeEntries.mpr ⟨rfl, hb'⟩)
      (fun heq => hne (congrArg Prod.fst heq))).1 hpre

/-! ## The serialiser -/

/-- The model's serialisation is the one of R250. -/
theorem serialize_eq_serial (ct : CodeTable) : serialize ct = serial ct := by
  have hcount (n : Nat) : BitVec.ofNat 8 n = BitVec.ofNat 8 (n % 256) :=
    BitVec.eq_of_toNat_eq (by rw [BitVec.toNat_ofNat, BitVec.toNat_ofNat, Nat.mod_mod_of_dvd _ (dvd_refl _)])
  simp only [serialize, codeEntries_eq_map, List.length_map, List.flatMap_map, serializeEntry, bytesOf, serial,
    pack_eq_packed, ← hcount]

theorem serialize_tableOf {es : List (Byte × BitString)} (hes : EntriesFrom 0 es) :
    serialize (tableOf es) = bytesOf 2 es.length ++ es.flatMap serializeEntry := by
  rw [serialize, codeEntries_tableOf hes]

theorem length_codeEntries (ct : CodeTable) : (codeEntries ct).length = (coded ct).length := by
  rw [codeEntries_eq_map, List.length_map]

theorem length_coded_le (ct : CodeTable) : (coded ct).length ≤ 256 :=
  (List.length_filter_le _ _).trans_eq length_allBytes

/-! ## The entry loop of the parser -/

/-- The loop's step over a serialised entry (R252). -/
theorem parseEntries_serializeEntry_append {n lo : Nat} {b : Byte} {u : BitString} (hb : lo ≤ b.toNat)
    (hu : 1 ≤ u.length ∧ u.length ≤ 255) (t : List Byte) :
    parseEntries (n + 1) lo (serializeEntry (b, u) ++ t) =
      (parseEntries n (b.toNat + 1) t).map fun p => ((b, u) :: p.1, p.2) := by
  have hlen : (BitVec.ofNat 8 u.length).toNat = u.length := toNat_count hu.2
  have hne : BitVec.ofNat 8 u.length ≠ 0 := fun h0 => by
    have := congrArg BitVec.toNat h0
    rw [hlen] at this
    exact absurd this (Nat.ne_of_gt hu.1)
  have htake : (pack u ++ t).take (ceil8 u.length) = pack u := List.take_left' (length_pack u)
  have hpad : ((unpack (pack u)).drop u.length).any id = false := by
    simpa using drop_unpack_pack u
  have hlong : ¬ (pack u ++ t).length < ceil8 u.length := by
    rw [List.length_append, length_pack]
    omega
  rw [serializeEntry, List.cons_append, List.cons_append, parseEntries, hlen,
    if_neg (not_or.mpr ⟨Nat.not_lt.mpr hb, hne⟩), if_neg hlong, htake, hpad, if_neg Bool.false_ne_true,
    List.drop_left' (length_pack u), take_unpack_pack]
  cases parseEntries n (b.toNat + 1) t <;> rfl

/-- The loop reads back an ascending list of entries and leaves the bytes after it. -/
theorem parseEntries_flatMap_append {lo : Nat} {es : List (Byte × BitString)} (hes : EntriesFrom lo es)
    (rest : List Byte) : parseEntries es.length lo (es.flatMap serializeEntry ++ rest) = .ok (es, rest) := by
  induction es generalizing lo with
  | nil => rfl
  | cons q es ih =>
    obtain ⟨b, u⟩ := q
    obtain ⟨hb, hu, hes⟩ := entriesFrom_cons.mp hes
    rw [List.flatMap_cons, List.append_assoc, List.length_cons, parseEntries_serializeEntry_append hb hu, ih hes]
    rfl

/-- The loop accepts only serialised ascending entries. -/
theorem eq_flatMap_of_parseEntries {n lo : Nat} {t rest : List Byte} {es : List (Byte × BitString)}
    (h : parseEntries n lo t = .ok (es, rest)) : EntriesFrom lo es ∧ t = es.flatMap serializeEntry ++ rest := by
  fun_induction parseEntries n lo t generalizing es rest with
  | case1 lo t =>
    cases h
    exact ⟨entriesFrom_nil lo, rfl⟩
  | case2 | case3 | case4 | case5 | case7 => cases h
  | case6 n lo b len t hhead hlong hpad es' rest' hrec ih =>
    cases h
    obtain ⟨hes, htail⟩ := ih hrec
    rw [not_or, Nat.not_lt] at hhead
    have hne : len.toNat ≠ 0 := fun h0 => hhead.2 (BitVec.eq_of_toNat_eq h0)
    have hlt : len.toNat < 256 := len.isLt
    have hcode : (t.take (ceil8 len.toNat)).length = ceil8 len.toNat :=
      List.length_take_of_le (Nat.le_of_not_lt hlong)
    have hbits : ((unpack (t.take (ceil8 len.toNat))).take len.toNat).length = len.toNat := by
      rw [List.length_take, length_unpack, hcode]
      unfold ceil8
      omega
    have hpack : pack ((unpack (t.take (ceil8 len.toNat))).take len.toNat) = t.take (ceil8 len.toNat) :=
      pack_take_unpack hcode (by simpa using hpad)
    refine ⟨entriesFrom_cons.mpr ⟨hhead.1, by omega, hes⟩, ?_⟩
    rw [List.flatMap_cons, serializeEntry, hbits, hpack, BitVec.ofNat_toNat, BitVec.setWidth_eq, List.append_assoc,
      List.cons_append, List.cons_append, ← htail, List.take_append_drop]

/-! ## The parser -/

theorem bytesOf_littleEndian (v : List Byte) : bytesOf v.length (littleEndian v) = v := by
  induction v with
  | nil => rfl
  | cons b v ih =>
    have hb : b.toNat < 256 := b.isLt
    rw [littleEndian, List.length_cons, bytesOf, Nat.add_mul_div_left _ _ (by decide), Nat.div_eq_of_lt hb,
      Nat.zero_add, ih]
    congr 1
    refine BitVec.eq_of_toNat_eq ?_
    rw [BitVec.toNat_ofNat, Nat.add_mul_mod_self_left, Nat.mod_eq_of_lt hb]

/-- The parser reads back a serialised table of R59 and the bytes after it, unless an exact parse finds some (R252). -/
theorem parseTable_serial_append {ct : CodeTable} (hct : TableOk ct) {exact : Bool} {rest : List Byte}
    (hrest : exact = true → rest = []) :
    parseTable exact (serial ct ++ rest) = .ok ⟨ct, rest, (coded ct).length⟩ := by
  obtain ⟨hlen, hfree⟩ := (tableOk_iff ct).mp hct
  have hle := length_coded_le ct
  have hexact : (exact && !rest.isEmpty) = false := by
    cases exact with
    | false => rfl
    | true => rw [hrest rfl]; rfl
  have hcount : littleEndian (bytesOf 2 (coded ct).length) = (coded ct).length := by
    rw [littleEndian_bytesOf]
    omega
  have hloop := parseEntries_flatMap_append (entriesFrom_codeEntries hlen) rest
  rw [length_codeEntries] at hloop
  rw [← serialize_eq_serial, serialize, length_codeEntries, List.append_assoc, parseTable,
    if_neg (by rw [List.length_append, length_bytesOf]; omega), List.take_left' (length_bytesOf ..),
    List.drop_left' (length_bytesOf ..), hcount, if_neg (by omega), hloop]
  simp only [hfree, hexact, Bool.not_true, Bool.false_eq_true, if_false, tableOf_codeEntries hlen]

/-- The parser accepts only serialised tables of R59, followed by nothing in an exact parse. -/
theorem eq_serial_of_parseTable {exact : Bool} {t : List Byte} {p : ParsedTable} (h : parseTable exact t = .ok p) :
    TableOk p.ct ∧ t = serial p.ct ++ p.rest ∧ (exact = true → p.rest = []) ∧ p.count = (coded p.ct).length := by
  unfold parseTable raise at h
  split_ifs at h with hshort hmany
  split at h
  · cases h
  next es rest hloop =>
    split_ifs at h with hfree hexact
    cases h
    obtain ⟨hes, htail⟩ := eq_flatMap_of_parseEntries hloop
    have hcount : es.length = littleEndian (t.take 2) := (parseEntries_ok hloop).1
    have hhead : bytesOf 2 (littleEndian (t.take 2)) = t.take 2 := by
      have h2 : (t.take 2).length = 2 := List.length_take_of_le (Nat.le_of_not_lt hshort)
      simpa only [h2] using bytesOf_littleEndian (t.take 2)
    refine ⟨(tableOk_iff _).mpr ⟨length_entry_tableOf_le hes, ?_⟩, ?_, fun hx => ?_, ?_⟩
    · rw [codeEntries_tableOf hes]
      simpa using hfree
    · rw [← serialize_eq_serial, serialize_tableOf hes, hcount, hhead, List.append_assoc, ← htail,
        List.take_append_drop]
    · simpa [hx] using hexact
    · rw [← hcount, ← length_codeEntries, codeEntries_tableOf hes]

/-- A source of at least two bytes fails to parse with one error kind only (R252). -/
theorem parseTable_error_of_le {exact : Bool} {t : List Byte} {e : CmdError} (ht : 2 ≤ t.length)
    (h : parseTable exact t = .error e) : e = ⟨.malformedCodeTable, .hufTree⟩ := by
  rw [parseTable, if_neg (Nat.not_lt.mpr ht)] at h
  split_ifs at h
  · cases h; rfl
  · split at h
    next hloop => cases h; exact parseEntries_error hloop
    next => split_ifs at h <;> cases h <;> rfl

/-- The outcome of R252 is the one the parser computes. -/
theorem parseTable_of_parses {exact : Bool} {t : List Byte} {o : Except CmdError (CodeTable × List Byte)}
    (h : Parses exact t o) : (parseTable exact t).map (fun p => (p.ct, p.rest)) = o := by
  cases h with
  | short hlen => rw [parseTable, if_pos hlen]; rfl
  | table ct rest hct ht hrest => rw [ht, parseTable_serial_append hct hrest]; rfl
  | bad hlen hno =>
    cases hp : parseTable exact t with
    | error e =>
      rw [parseTable_error_of_le hlen hp]
      rfl
    | ok p =>
      obtain ⟨hct, ht, hrest, -⟩ := eq_serial_of_parseTable hp
      exact absurd hrest (hno p.ct p.rest hct ht)

/-! ## The installed table -/

theorem readOffset_freq (b : Byte) (s : State) : readOffset (0x400 + 4 * b.toNat) s = entry s.freq b :=
  readOffset_of_offset s (Reg.offset_freq b)

theorem toNat_readOffset_codeLen {s : State} {b : Byte} (h : (entry s.ct b).length ≤ 255) :
    (readOffset (0x800 + 4 * b.toNat) s).toNat = (entry s.ct b).length := by
  rw [readOffset_of_offset s (Reg.offset_codeLen b), readReg, BitVec.toNat_setWidth, toNat_count h]
  omega

/-- A commit installs the table of its result, and the window shows it when the numbers fit (R153, R254). -/
theorem installed_commit {i : Instr} {r : Result} {s : State} {ct : CodeTable} {f : Vector Nat 256}
    (hr : r.huf = some (ct, f)) (hct : ∀ b, (entry ct b).length ≤ 255) (hf : ∀ b, entry f b < 2 ^ 32) :
    Installed (commit i r s) ct (entry f) := by
  have hctc : (commit i r s).ct = ct := by rw [commit_ct, hr]
  have hfreq (b : Byte) : (entry (commit i r s).freq b).toNat = entry f b := by
    rw [commit_freq, hr, entry_map, BitVec.toNat_ofNat, Nat.mod_eq_of_lt (hf b)]
  refine ⟨hctc, by rw [commit_ctValid, hr], hfreq, fun b => ?_, fun b => ?_⟩
  · rw [readOffset_freq, hfreq]
  · rw [toNat_readOffset_codeLen (hctc ▸ hct b), hctc]

/-! ## HUF_LOAD (R261) -/

theorem entry_noFreq (b : Byte) : entry noFreq b = 0 := entry_tabulate _ b

/-- HUF_LOAD has no destination region to check, and its output is empty. -/
theorem frame_hufLoad {s : State} (hs : SrcFits s) (hlen : SrcShort s) :
    frame .hufLoad (bodyOf .hufLoad) s = bodyOf .hufLoad (operandsOf s) (src s) := by
  have hw : writesDst .hufLoad ≠ true := by decide
  rw [frame_of_checks _ (fun _ => ⟨(srcInBounds_iff s).mpr hs, hlen⟩) (fun h => absurd h hw),
    sourceOf_eq_src (i := .hufLoad) s nofun]
  cases bodyOf .hufLoad (operandsOf s) (src s) with
  | error e => rfl
  | ok r => exact capacityCheck_of_le fun h => absurd h hw

theorem bodyOf_hufLoad (o : Operands) (x : List Byte) :
    bodyOf .hufLoad o x = (parseTable true x).map fun p =>
      { Result.plain [] (p.count == 0) with huf := some (p.ct, noFreq) } := by
  rw [bodyOf, hufLoadBody]
  cases parseTable true x <;> rfl

/-- Settles O40: the parser's outcome is the one of R252, and the commit of a table writes no memory. -/
theorem hufLoadInstallsTheParsedTable : Obligations.HufLoadInstallsTheParsedTable := by
  intro s _
  refine ⟨fun hs => exec_aborts_of_frame_error (frame_of_not_srcFits _ nofun hs),
    fun hs hl => exec_aborts_of_frame_error (frame_of_not_srcShort _ nofun hs (.inl rfl) hl), fun hs hl o ho => ?_⟩
  have hframe := (frame_hufLoad hs hl).trans (bodyOf_hufLoad _ _)
  have hparse := parseTable_of_parses ho
  cases hp : parseTable true (src s) with
  | error e =>
    rw [hp] at hframe hparse
    subst hparse
    exact exec_aborts_of_frame_error hframe
  | ok p =>
    rw [hp] at hframe hparse
    subst hparse
    obtain ⟨hct, -, -, hcount⟩ := eq_serial_of_parseTable hp
    refine ⟨_, exec_of_frame_ok hframe, ⟨rfl, rfl, ?_, rfl, rfl, rfl⟩, rfl, readOffset_dstLen _, rfl, ?_⟩
    · change (p.count == 0) = (coded p.ct).isEmpty
      rw [hcount, Bool.eq_iff_iff, beq_iff_eq, List.length_eq_zero_iff, List.isEmpty_iff]
    · rw [← funext entry_noFreq]
      exact installed_commit rfl hct.1 fun b => by rw [entry_noFreq]; decide

end Sys2Proof.Machine
end

section
/-! PROOFS. The tree builder (R241 to R248) and HUF_BUILD (R260): the engine's pool stays in the order of R243, so its
merges are the rule's, and the tree it ends with has one leaf for each byte that occurs. -/

namespace Sys2Proof.Machine

open Sys2Proof.Spec

/-! ## The order of the pool (R243) -/

/-- Weight and key of a node, to be compared lexicographically. -/
def poolRank (x : PoolNode) : Nat ×ₗ Nat := toLex (x.weight, x.key)

theorem poolLe_iff (x y : PoolNode) : poolLe x y = true ↔ poolRank x ≤ poolRank y := by
  simp [poolLe, poolRank, Prod.Lex.toLex_le_toLex]

theorem poolLe_total : Std.Total fun x y => poolLe x y = true :=
  ⟨fun x y => by simpa only [poolLe_iff] using le_total (poolRank x) (poolRank y)⟩

theorem poolLe_trans : IsTrans PoolNode fun x y => poolLe x y = true :=
  ⟨fun x y z => by simpa only [poolLe_iff] using le_trans⟩

/-- On nodes with different keys the engine's comparison is the strict order of R243. -/
theorem nodeBefore_of_poolLe {x y : PoolNode} (h : poolLe x y = true) (hkey : x.key ≠ y.key) : NodeBefore x y := by
  simp only [poolLe, Bool.or_eq_true, Bool.and_eq_true, decide_eq_true_eq] at h
  exact h.imp_right fun h => ⟨h.1, lt_of_le_of_ne h.2 hkey⟩

/-- A pool before merge number `k`, in the order of R243: its keys are those of leaves and of earlier merges. -/
structure PoolOk (k : Nat) (pool : List PoolNode) : Prop where
  sorted : pool.Pairwise fun x y => poolLe x y = true
  keys : pool.Pairwise fun x y => x.key ≠ y.key
  bound : ∀ x ∈ pool, x.key < 256 + k

theorem PoolOk.tail {k : Nat} {x : PoolNode} {pool : List PoolNode} (h : PoolOk k (x :: pool)) : PoolOk k pool :=
  ⟨h.sorted.of_cons, h.keys.of_cons, fun y hy => h.bound y (List.mem_cons_of_mem x hy)⟩

/-- The first node of a pool is the one that R243 extracts. -/
theorem PoolOk.nodeBefore {k : Nat} {x : PoolNode} {pool : List PoolNode} (h : PoolOk k (x :: pool)) :
    ∀ y ∈ pool, NodeBefore x y := fun _ hy =>
  nodeBefore_of_poolLe (List.rel_of_pairwise_cons h.sorted hy) (List.rel_of_pairwise_cons h.keys hy)

/-- The merged node goes to its place in the order, and its key is a new one. -/
theorem PoolOk.orderedInsert {k : Nat} {pool : List PoolNode} (h : PoolOk k pool) {x : PoolNode}
    (hx : x.key = 256 + k) : PoolOk (k + 1) (pool.orderedInsert (fun x y => poolLe x y = true) x) := by
  have := poolLe_total
  have := poolLe_trans
  have hperm := List.perm_orderedInsert (fun x y => poolLe x y = true) x pool
  refine ⟨h.sorted.orderedInsert x pool, ?_, fun y hy => ?_⟩
  · refine (hperm.pairwise_iff Ne.symm).mpr (List.pairwise_cons.mpr ⟨fun y hy => ?_, h.keys⟩)
    rw [hx]
    exact Nat.ne_of_gt (h.bound y hy)
  · obtain rfl | hy := List.mem_cons.mp (hperm.mem_iff.mp hy)
    · omega
    · exact Nat.lt_succ_of_lt (h.bound y hy)

theorem leafPool_perm (f : Vector Nat 256) : (leafPool f).Perm (leaves (entry f)) := List.perm_insertionSort _ _

theorem poolOk_leafPool (f : Vector Nat 256) : PoolOk 0 (leafPool f) := by
  have := poolLe_total
  have := poolLe_trans
  refine ⟨List.pairwise_insertionSort _ _, ?_, fun x hx => ?_⟩
  · refine ((leafPool_perm f).pairwise_iff Ne.symm).mpr ?_
    rw [leaves, List.pairwise_map]
    exact (allBytes_ascending.filter _).imp Nat.ne_of_lt
  · obtain ⟨b, -, rfl⟩ := List.mem_map.mp ((leafPool_perm f).mem_iff.mp hx)
    exact b.isLt

/-! ## The merges -/

/-- The merges do not depend on the order in which a pool is listed. -/
theorem merges_of_perm {k : Nat} {pool pool' : List PoolNode} {root : HufTree} (h : Merges k pool root)
    (hp : pool'.Perm pool) : Merges k pool' root := by
  cases h with
  | root _ n => rw [List.perm_singleton.mp hp]; exact .root k n
  | merge _ _ a c rest _ hperm ha hc hrest => exact .merge k pool' a c rest root (hp.trans hperm) ha hc hrest

/-- The engine's merges of an ordered pool are those of R243: one fewer than the pool has nodes reach the root. -/
theorem mergePool_eq_root {n k : Nat} {pool : List PoolNode} (hpool : PoolOk k pool) (hne : pool ≠ [])
    (hn : pool.length ≤ n + 1) : ∃ root, mergePool n k pool = [root] ∧ Merges k pool root.tree := by
  induction n generalizing k pool with
  | zero =>
    obtain ⟨x, rfl⟩ := List.length_eq_one_iff.mp (Nat.le_antisymm hn (List.length_pos_iff.mpr hne))
    exact ⟨x, rfl, .root k x⟩
  | succ n ih =>
    match pool, hpool, hne, hn with
    | [x], _, _, _ => exact ⟨x, rfl, .root k x⟩
    | a :: c :: pool, hpool, _, hn =>
      have hperm := List.perm_orderedInsert (fun x y => poolLe x y = true)
        { weight := a.weight + c.weight, key := 256 + k, tree := .node a.tree c.tree } pool
      obtain ⟨root, hroot, hmerges⟩ := ih (hpool.tail.tail.orderedInsert rfl)
        (List.ne_nil_of_mem (hperm.mem_iff.mpr List.mem_cons_self))
        (hperm.length_eq.trans_le (Nat.le_of_succ_le_succ hn))
      exact ⟨root, hroot, .merge k _ a c pool _ (.refl _) hpool.nodeBefore hpool.tail.nodeBefore
        (merges_of_perm hmerges hperm.symm)⟩

/-! ## The leaves of a tree -/

/-- The leaves of a tree from left to right. -/
def treeLeaves : HufTree → List Byte
  | .leaf b => [b]
  | .node l r => treeLeaves l ++ treeLeaves r

/-- The root of the merges has the leaves of the pool. -/
theorem treeLeaves_of_merges {k : Nat} {pool : List PoolNode} {root : HufTree} (h : Merges k pool root) :
    (treeLeaves root).Perm (pool.flatMap fun x => treeLeaves x.tree) := by
  induction h with
  | root k n => simp
  | merge k pool a c rest root hperm _ _ _ ih =>
    refine ih.trans (.trans ?_ (hperm.flatMap_right _).symm)
    simp [treeLeaves]

theorem treeLeaves_of_merges_leaves {f : Byte → Nat} {k : Nat} {root : HufTree} (h : Merges k (leaves f) root) :
    (treeLeaves root).Perm (ascending.filter fun b => decide (f b > 0)) := by
  simpa [leaves, List.flatMap_map, treeLeaves] using treeLeaves_of_merges h

theorem treeLeaves_ne_nil (t : HufTree) : treeLeaves t ≠ [] := by
  induction t with
  | leaf b => exact List.cons_ne_nil b []
  | node l r ihl _ => exact List.append_ne_nil_of_left_ne_nil ihl _

/-- A code is shorter than the number of leaves: every node on its way has a leaf on the other side. -/
theorem length_lt_of_codeIn {t : HufTree} {b : Byte} {u : BitString} (h : CodeIn t b u) :
    u.length < (treeLeaves t).length := by
  induction h with
  | leaf b => exact Nat.one_pos
  | left l r b u _ ih =>
    have := List.length_pos_iff.mpr (treeLeaves_ne_nil r)
    rw [treeLeaves, List.length_append, List.length_cons]
    omega
  | right l r b u _ ih =>
    have := List.length_pos_iff.mpr (treeLeaves_ne_nil l)
    rw [treeLeaves, List.length_append, List.length_cons]
    omega

/-! ## The codes of a tree (R245) -/

/-- The codes listed below a node of code `v` are those of R245 after `v`. -/
theorem codeIn_of_mem_treeCodes {t : HufTree} {v u : BitString} {b : Byte} (h : (b, u) ∈ treeCodes t v) :
    ∃ w, u = v ++ w ∧ CodeIn t b w := by
  induction t generalizing v with
  | leaf c =>
    obtain ⟨rfl, rfl⟩ := Prod.mk.inj (List.mem_singleton.mp h)
    exact ⟨[], (List.append_nil _).symm, .leaf _⟩
  | node l r ihl ihr =>
    obtain h | h := List.mem_append.mp h
    · obtain ⟨w, rfl, hw⟩ := ihl h
      exact ⟨false :: w, List.append_assoc .., .left l r b w hw⟩
    · obtain ⟨w, rfl, hw⟩ := ihr h
      exact ⟨true :: w, List.append_assoc .., .right l r b w hw⟩

theorem map_fst_treeCodes (t : HufTree) (v : BitString) : (treeCodes t v).map Prod.fst = treeLeaves t := by
  induction t generalizing v with
  | leaf b => rfl
  | node l r ihl ihr => rw [treeCodes, List.map_append, ihl, ihr, treeLeaves]

/-- A byte has the empty code in a table or one listed for it. -/
theorem entry_tableOf_cases (es : List (Byte × BitString)) (b : Byte) :
    (b ∉ es.map Prod.fst ∧ entry (tableOf es) b = []) ∨ (b, entry (tableOf es) b) ∈ es := by
  rw [entry_tableOf]
  cases h : es.lookup b with
  | none =>
    refine .inl ⟨fun hmem => ?_, rfl⟩
    obtain ⟨q, hq, rfl⟩ := List.mem_map.mp hmem
    simpa using List.lookup_eq_none_iff.mp h q hq
  | some u =>
    obtain ⟨es₁, es₂, rfl, -⟩ := List.lookup_eq_some_iff.mp h
    exact .inr (List.mem_append_right es₁ List.mem_cons_self)

/-! ## The built table (R248) -/

theorem mem_filter_ascending_iff {f : Byte → Nat} {b : Byte} :
    b ∈ (ascending.filter fun b => decide (f b > 0)) ↔ f b > 0 := by
  rw [List.mem_filter, decide_eq_true_iff]
  exact and_iff_right (mem_allBytes b)

theorem built_of_single {f : Byte → Nat} {x : PoolNode} (h : leaves f = [x]) :
    Built f (tableOf (treeCodes x.tree [false])) := by
  refine .single x h fun c => ?_
  obtain ⟨b, hb, rfl⟩ := List.map_eq_singleton_iff.mp h
  have hpos : f c > 0 ↔ c = b := by rw [← mem_filter_ascending_iff, hb, List.mem_singleton]
  simp only [entry_tableOf, treeCodes, List.lookup_cons, hpos]
  by_cases hc : c = b
  · simp [hc]
  · simp [hc, beq_false_of_ne hc]

theorem built_of_merges {f : Byte → Nat} {root : HufTree} (hlen : 2 ≤ (leaves f).length)
    (h : Merges 0 (leaves f) root) : Built f (tableOf (treeCodes root [])) := by
  have hleaf (b : Byte) : b ∈ (treeCodes root []).map Prod.fst ↔ f b > 0 := by
    rw [map_fst_treeCodes, (treeLeaves_of_merges_leaves h).mem_iff, mem_filter_ascending_iff]
  refine .tree root hlen h (fun b hb => ?_) fun b hb => ?_
  · obtain ⟨-, hnil⟩ | hmem := entry_tableOf_cases (treeCodes root []) b
    · exact hnil
    · exact absurd ((hleaf b).mp (List.mem_map_of_mem hmem)) (by omega)
  · obtain ⟨hnot, -⟩ | hmem := entry_tableOf_cases (treeCodes root []) b
    · exact absurd ((hleaf b).mpr hb) hnot
    · obtain ⟨w, hw, hcode⟩ := codeIn_of_mem_treeCodes hmem
      rwa [hw]

/-- The table that the engine builds is the one of R248. -/
theorem built_buildCodes (f : Vector Nat 256) : Built (entry f) (buildCodes f) := by
  have hperm := leafPool_perm f
  have hpool := poolOk_leafPool f
  rw [buildCodes]
  split
  · next h =>
    rw [h] at hperm
    exact .empty (List.nil_perm.mp hperm) fun b => entry_tableOf [] b
  · next x h =>
    rw [h] at hperm
    exact built_of_single (List.perm_singleton.mp hperm.symm)
  · next hnil hone =>
    obtain ⟨root, hroot, hmerges⟩ := mergePool_eq_root hpool hnil (Nat.le_succ _)
    have hlen : 1 < (leafPool f).length :=
      lt_of_le_of_ne (List.length_pos_iff.mpr hnil) fun h1 =>
        let ⟨x, hx⟩ := List.length_eq_one_iff.mp h1.symm
        hone x hx
    rw [hroot]
    exact built_of_merges (hperm.length_eq ▸ hlen) (merges_of_perm hmerges hperm.symm)

/-- A built table has codes of at most 255 bits (R246). -/
theorem length_entry_le_of_built {f : Byte → Nat} {ct : CodeTable} (h : Built f ct) (b : Byte) :
    (entry ct b).length ≤ 255 := by
  cases h with
  | empty _ hct => rw [hct]; exact Nat.zero_le _
  | single n _ hct => rw [hct]; split <;> simp
  | tree root _ hmerges hzero hpos =>
    obtain hb | hb := Nat.eq_zero_or_pos (f b)
    · rw [hzero b hb]; exact Nat.zero_le _
    · have hlt := length_lt_of_codeIn (hpos b hb)
      rw [(treeLeaves_of_merges_leaves hmerges).length_eq] at hlt
      exact Nat.le_of_lt_succ (hlt.trans_le ((List.length_filter_le _ _).trans_eq length_allBytes))

/-! ## HUF_BUILD (R260) -/

theorem entry_freqOf (x : List Byte) (b : Byte) : entry (freqOf x) b = x.count b := entry_tabulate _ b

theorem bodyOf_hufBuild (o : Operands) (x : List Byte) :
    bodyOf .hufBuild o x = .ok { Result.plain (serialize (buildCodes (freqOf x))) (emptyFlag x) with
      huf := some (buildCodes (freqOf x), freqOf x) } := rfl

/-- Settles O39: the body's table is the built one of R248, and its serialisation is the output. -/
theorem hufBuildInstallsTheBuiltTable : Obligations.HufBuildInstallsTheBuiltTable := by
  rintro s ⟨-, hm⟩
  refine ⟨frameErrors_of_writesDst rfl s, fun hs => ⟨buildCodes (freqOf (src s)), ?_⟩⟩
  have hbuilt := built_buildCodes (freqOf (src s))
  have hfreq (b : Byte) : entry (freqOf (src s)) b < 2 ^ 32 := by
    rw [entry_freqOf]
    exact (List.count_le_length.trans_eq (length_src s)).trans_lt s.srcLen.isLt
  rw [← funext (entry_freqOf (src s)), ← serialize_eq_serial, ← emptyFlag_of_length_eq (length_src s)]
  exact ⟨hbuilt, delivers_of_body_ok rfl hm hs (bodyOf_hufBuild _ _)
    (installed_commit rfl (length_entry_le_of_built hbuilt) hfreq)⟩

end Sys2Proof.Machine
end

section
/-! PROOFS. The Huffman bitstream packer/unpacker of 45_huffman_bits.md: HUF_ENC (R290), and HUF_DEC (R291) with the bit
loop of R286, which reads one code after another because no code of a table of R59 begins another. -/

namespace Sys2Proof.Machine

open Sys2Proof.Spec

/-! ## HUF_ENC (R290) -/

theorem hufEncode_eq_codeOf (ct : CodeTable) (x : List Byte) : hufEncode ct x = codeOf ct x := rfl

/-- The encoder's test for a byte with no code. -/
theorem any_isEmpty_iff_not_coded (ct : CodeTable) (x : List Byte) :
    (x.any fun b => (entry ct b).isEmpty) = true ↔ ¬ Coded ct x := by
  simp [Coded]

theorem bodyOf_hufEnc_of_noTable {o : Operands} (h : o.ctValid = false) (x : List Byte) :
    bodyOf .hufEnc o x = .error ⟨.missingMetadata, .hufBits⟩ := by
  rw [bodyOf, hufEncBody, h]
  rfl

theorem bodyOf_hufEnc_of_not_coded {o : Operands} {x : List Byte} (h : o.ctValid = true) (hx : ¬ Coded o.ct x) :
    bodyOf .hufEnc o x = .error ⟨.symbolNotInTable, .hufBits⟩ := by
  rw [bodyOf, hufEncBody, h, if_neg (by decide), if_pos ((any_isEmpty_iff_not_coded o.ct x).mpr hx)]
  rfl

/-- With a code for every byte only the length of the payload is left to check. -/
theorem bodyOf_hufEnc_of_coded {o : Operands} {x : List Byte} (h : o.ctValid = true) (hx : Coded o.ct x) :
    bodyOf .hufEnc o x = (lim o.seqMax (packed (codeOf o.ct x)) .hufBits).map fun out =>
      { Result.plain out (emptyFlag x) with bits := some (codeOf o.ct x).length } := by
  rw [bodyOf, hufEncBody, h, if_neg (by decide), if_neg (mt (any_isEmpty_iff_not_coded o.ct x).mp (not_not.mpr hx)),
    hufEncode_eq_codeOf, pack_eq_packed]
  cases lim o.seqMax (packed (codeOf o.ct x)) .hufBits <;> rfl

theorem bodyOf_hufEnc_of_long {o : Operands} {x : List Byte} (h : o.ctValid = true) (hx : Coded o.ct x)
    (hlt : o.seqMax < (packed (codeOf o.ct x)).length) :
    bodyOf .hufEnc o x = .error ⟨.lengthLimit, .hufBits⟩ := by
  rw [bodyOf_hufEnc_of_coded h hx, lim_of_lt _ hlt]
  rfl

theorem bodyOf_hufEnc_of_fits {o : Operands} {x : List Byte} (h : o.ctValid = true) (hx : Coded o.ct x)
    (hle : (packed (codeOf o.ct x)).length ≤ o.seqMax) :
    bodyOf .hufEnc o x = .ok { Result.plain (packed (codeOf o.ct x)) (emptyFlag x) with
      bits := some (codeOf o.ct x).length } := by
  rw [bodyOf_hufEnc_of_coded h hx, lim_of_le _ hle]
  rfl

theorem seqMax_le_of_wf {cfg : Config} (h : cfg.wf = true) : cfg.seqMax ≤ 2 ^ 24 := by
  simp only [Config.wf, Bool.and_eq_true, decide_eq_true_eq] at h
  omega

/-- A payload within SEQ_MAX has so few bits that PAYLOAD_BITS holds their number whole. -/
theorem length_lt_of_length_packed_le {cfg : Config} (hcfg : cfg.wf = true) {w : BitString}
    (hw : (packed w).length ≤ cfg.seqMax) : w.length < 2 ^ 32 := by
  have hmax := seqMax_le_of_wf hcfg
  rw [← pack_eq_packed, length_pack, ceil8] at hw
  omega

/-- Settles O41: the body's checks are those of R290 in order, and SEQ_MAX bounds the bit count it reports. -/
theorem hufEncPacksTheCodes : Obligations.HufEncPacksTheCodes := by
  rintro s ⟨hcfg, hm⟩
  refine ⟨frameErrors_of_writesDst rfl s, fun hs => ⟨fun hv => ?_, fun hv hx => ?_, fun hv hx => ?_⟩⟩
  · exact exec_of_body_error rfl hs (bodyOf_hufEnc_of_noTable hv _)
  · exact exec_of_body_error rfl hs (bodyOf_hufEnc_of_not_coded hv hx)
  · refine ⟨fun hlt => exec_of_body_error rfl hs (bodyOf_hufEnc_of_long hv hx hlt), fun hle => ?_⟩
    rw [← emptyFlag_of_length_eq (length_src s)]
    exact delivers_of_body_ok rfl hm hs (bodyOf_hufEnc_of_fits hv hx hle)
      (Nat.mod_eq_of_lt (length_lt_of_length_packed_le hcfg hle))

/-! ## The bits of a payload (R282, R287) -/

theorem byteBits_eq_map_bitAt (b : Byte) (p : List Byte) : byteBits b = (List.range 8).map (bitAt (b :: p)) := by
  refine List.map_congr_left fun i hi => ?_
  have hi : i < 8 := List.mem_range.mp hi
  rw [bitAt, Nat.div_eq_of_lt hi, Nat.mod_eq_of_lt hi, List.getD_cons_zero]

theorem bitAt_cons_add (b : Byte) (p : List Byte) (i : Nat) : bitAt (b :: p) (8 + i) = bitAt p i := by
  rw [bitAt, Nat.add_div_left i (by decide), Nat.add_mod_left, List.getD_cons_succ, bitAt]

/-- The model's unpacking is the one of R282. -/
theorem unpack_eq_bitsOf (p : List Byte) : unpack p = bitsOf p := by
  induction p with
  | nil => rfl
  | cons b p ih =>
    rw [unpack_cons, ih, bitsOf, bitsOf, List.length_cons, Nat.mul_succ, Nat.add_comm, List.range_add, List.map_append,
      List.map_map, ← byteBits_eq_map_bitAt]
    exact congrArg _ (List.map_congr_left fun i _ => (bitAt_cons_add b p i).symm)

/-- The decoder's test for a padding bit of 1. -/
theorem any_drop_unpack_iff (p : List Byte) (n : Nat) :
    ((unpack p).drop n).any id = true ↔ ∃ i, n ≤ i ∧ i < 8 * p.length ∧ bitAt p i = true := by
  rw [unpack_eq_bitsOf, bitsOf, ← List.map_drop, List.range_eq_range', List.drop_range', List.any_map,
    List.any_eq_true]
  simp only [Nat.zero_add, Nat.mul_one, List.mem_range'_1]
  constructor
  · rintro ⟨i, ⟨hn, hi⟩, hb⟩
    exact ⟨i, hn, by omega, hb⟩
  · rintro ⟨i, hn, hi, hb⟩
    exact ⟨i, ⟨hn, by omega⟩, hb⟩

/-- Behind the framing of R287 the decoder is the bit loop on the first `n` bits. -/
theorem hufDecode_of_framed (ct : CodeTable) (m : Nat) {n : Nat} {p : List Byte} (hlen : p.length = (n + 7) / 8)
    (hpad : ∀ i, n ≤ i → i < 8 * p.length → bitAt p i = false) :
    hufDecode ct m n p = hufWalk (codeEntries ct) m [] 0 ((bitsOf p).take n) := by
  have hany : ¬ ((unpack p).drop n).any id = true := by
    rw [any_drop_unpack_iff]
    rintro ⟨i, hn, hi, hb⟩
    exact Bool.false_ne_true ((hpad i hn hi).symm.trans hb)
  rw [hufDecode, ceil8, if_neg (not_not.mpr hlen), if_neg hany, unpack_eq_bitsOf]

/-! ## The trie of a table (R285) -/

/-- Two codes of a table of R59 of which one begins the other are those of one byte. -/
theorem TableOk.eq_of_prefix {ct : CodeTable} (h : TableOk ct) {b c : Byte} (hb : entry ct b ≠ [])
    (hpre : entry ct b <+: entry ct c) : b = c :=
  by_contra fun hne => h.2 b c hne hb hpre

theorem trieNode_of_prefix {ct : CodeTable} {b : Byte} {u : BitString} (hb : entry ct b ≠ [])
    (h : u <+: entry ct b) : trieNode (codeEntries ct) u = true := by
  rw [trieNode, Bool.or_eq_true, List.any_eq_true]
  exact .inr ⟨(b, entry ct b), mem_codeEntries.mpr ⟨rfl, hb⟩, List.isPrefixOf_iff_prefix.mpr h⟩

/-- A leaf is a code. -/
theorem entry_of_trieLeaf {ct : CodeTable} {u : BitString} {b : Byte}
    (h : trieLeaf (codeEntries ct) u = some b) : entry ct b = u ∧ u ≠ [] := by
  obtain ⟨⟨c, v⟩, hfind, rfl⟩ := Option.map_eq_some_iff.mp h
  obtain rfl : v = u := beq_iff_eq.mp (List.find?_some hfind :)
  exact mem_codeEntries.mp (List.mem_of_find?_eq_some hfind)

theorem trieLeaf_ne_none {ct : CodeTable} {b : Byte} (hb : entry ct b ≠ []) :
    trieLeaf (codeEntries ct) (entry ct b) ≠ none := by
  rw [trieLeaf, Ne, Option.map_eq_none_iff, List.find?_eq_none]
  exact fun h => h _ (mem_codeEntries.mpr ⟨rfl, hb⟩) (beq_self_eq_true _)

/-- Every code is the leaf of its byte. -/
theorem trieLeaf_entry {ct : CodeTable} (h : TableOk ct) {b : Byte} (hb : entry ct b ≠ []) :
    trieLeaf (codeEntries ct) (entry ct b) = some b := by
  obtain ⟨c, hc⟩ := Option.ne_none_iff_exists'.mp (trieLeaf_ne_none hb)
  obtain rfl : b = c := h.eq_of_prefix hb ((entry_of_trieLeaf hc).1 ▸ List.prefix_rfl)
  exact hc

/-- A node with a child is no leaf. -/
theorem trieLeaf_of_inner {ct : CodeTable} (h : TableOk ct) {b : Byte} {u v : BitString}
    (hb : u ++ v = entry ct b) (hv : v ≠ []) : trieLeaf (codeEntries ct) u = none := by
  refine Option.eq_none_iff_forall_ne_some.mpr fun c hc => ?_
  obtain ⟨rfl, hne⟩ := entry_of_trieLeaf hc
  obtain rfl := h.eq_of_prefix hne ⟨v, hb⟩
  exact hv (List.append_right_eq_self.mp hb)

/-! ## The bit loop (R286) -/

theorem hufWalk_missing {es : List (Byte × BitString)} {u : BitString} {x : Bool}
    (hnode : trieNode es (u ++ [x]) = false) (m len : Nat) (w : BitString) :
    hufWalk es m u len (x :: w) = .error ⟨.malformedBitStream, .hufBits⟩ := by
  rw [hufWalk, hnode]
  rfl

theorem hufWalk_inner {es : List (Byte × BitString)} {u : BitString} {x : Bool}
    (hnode : trieNode es (u ++ [x]) = true) (hleaf : trieLeaf es (u ++ [x]) = none) (m len : Nat) (w : BitString) :
    hufWalk es m u len (x :: w) = hufWalk es m (u ++ [x]) len w := by
  rw [hufWalk, hnode, hleaf]
  rfl

theorem hufWalk_leaf {es : List (Byte × BitString)} {u : BitString} {x : Bool} {b : Byte}
    (hnode : trieNode es (u ++ [x]) = true) (hleaf : trieLeaf es (u ++ [x]) = some b) (m len : Nat) (w : BitString) :
    hufWalk es m u len (x :: w) =
      if m < len + 1 then .error ⟨.lengthLimit, .hufBits⟩ else (hufWalk es m [] (len + 1) w).map (b :: ·) := by
  rw [hufWalk, hnode, hleaf]
  cases hufWalk es m [] (len + 1) w <;> rfl

/-- From a node on the way to the leaf of `b` the loop follows the rest of the code and puts out `b`. -/
theorem hufWalk_code_append {ct : CodeTable} (h : TableOk ct) {b : Byte} {u v : BitString}
    (hb : u ++ v = entry ct b) (hv : v ≠ []) (m len : Nat) (w : BitString) :
    hufWalk (codeEntries ct) m u len (v ++ w) =
      if m < len + 1 then .error ⟨.lengthLimit, .hufBits⟩
      else (hufWalk (codeEntries ct) m [] (len + 1) w).map (b :: ·) := by
  have hne : entry ct b ≠ [] := hb ▸ List.append_ne_nil_of_right_ne_nil u hv
  induction v generalizing u with
  | nil => exact absurd rfl hv
  | cons x v ih =>
    rw [List.append_cons] at hb
    have hnode := trieNode_of_prefix hne ⟨v, hb⟩
    by_cases hv' : v = []
    · subst hv'
      rw [List.append_nil] at hb
      exact hufWalk_leaf hnode (hb ▸ trieLeaf_entry h hne) m len w
    · rw [List.cons_append, hufWalk_inner hnode (trieLeaf_of_inner h hb hv')]
      exact ih hb hv'

theorem codeOf_cons (ct : CodeTable) (b : Byte) (x : List Byte) : codeOf ct (b :: x) = entry ct b ++ codeOf ct x := rfl

/-- The loop puts out the bytes whose codes it finds, up to SEQ_MAX of them, and goes on with the bits after them. -/
theorem hufWalk_codeOf_append {ct : CodeTable} (h : TableOk ct) {m len : Nat} {x : List Byte} (hx : Coded ct x)
    (hlen : len + x.length ≤ m) (w : BitString) :
    hufWalk (codeEntries ct) m [] len (codeOf ct x ++ w) =
      (hufWalk (codeEntries ct) m [] (len + x.length) w).map (x ++ ·) := by
  induction x generalizing len with
  | nil =>
    change hufWalk (codeEntries ct) m [] len w = (hufWalk (codeEntries ct) m [] len w).map id
    cases hufWalk (codeEntries ct) m [] len w <;> rfl
  | cons b x ih =>
    obtain ⟨hb, hx⟩ := List.forall_mem_cons.mp hx
    have hcount : len + (b :: x).length = len + 1 + x.length := by rw [List.length_cons]; omega
    rw [hcount] at hlen ⊢
    rw [codeOf_cons, List.append_assoc, hufWalk_code_append h (List.nil_append _) hb, if_neg (by omega), ih hx hlen]
    cases hufWalk (codeEntries ct) m [] (len + 1 + x.length) w <;> rfl

/-- Bits that no code begins end in a missing child or inside a code. -/
theorem hufWalk_broken {ct : CodeTable} {u w : BitString} (hne : u ++ w ≠ [])
    (hno : ∀ b, entry ct b ≠ [] → ¬ entry ct b <+: u ++ w) (m len : Nat) :
    hufWalk (codeEntries ct) m u len w = .error ⟨.malformedBitStream, .hufBits⟩ := by
  induction w generalizing u with
  | nil =>
    rw [List.append_nil] at hne
    exact if_neg hne
  | cons x w ih =>
    rw [List.append_cons] at hne hno
    cases hnode : trieNode (codeEntries ct) (u ++ [x]) with
    | false => exact hufWalk_missing hnode m len w
    | true =>
      cases hleaf : trieLeaf (codeEntries ct) (u ++ [x]) with
      | none => rw [hufWalk_inner hnode hleaf, ih hne hno]
      | some b =>
        obtain ⟨hb, hnil⟩ := entry_of_trieLeaf hleaf
        exact absurd ⟨w, by rw [hb]⟩ (hno b (hb ▸ hnil))

/-! ## HUF_DEC (R291) -/

/-- The outcome of R286 and R287 is the one the unit's decoder computes. -/
theorem hufDecode_of_hufDecodes {ct : CodeTable} (h : TableOk ct) {m n : Nat} {p : List Byte}
    {o : Except CmdError (List Byte)} (ho : HufDecodes ct m n p o) : hufDecode ct m n p = o := by
  cases ho with
  | badLength hlen => exact if_pos hlen
  | badPadding i hlen hn hi hb =>
    rw [hufDecode, ceil8, if_neg (not_not.mpr hlen), if_pos ((any_drop_unpack_iff p n).mpr ⟨i, hn, hi, hb⟩)]
    rfl
  | broken x rest hlen hpad hx hle hbits hne hno =>
    rw [hufDecode_of_framed ct m hlen hpad, hbits, hufWalk_codeOf_append h hx (by omega),
      hufWalk_broken (u := []) hne hno]
    rfl
  | tooLong x b rest hlen hpad hx hle hbits =>
    obtain ⟨hx, hb⟩ := List.forall_mem_append.mp hx
    rw [List.forall_mem_singleton] at hb
    rw [codeOf, List.flatMap_append, List.flatMap_singleton, List.append_assoc, ← codeOf] at hbits
    rw [hufDecode_of_framed ct m hlen hpad, hbits, hufWalk_codeOf_append h hx (by omega),
      hufWalk_code_append h (List.nil_append _) hb, if_pos (by omega)]
    rfl
  | done x hlen hpad hx hle hbits =>
    have hwalk := hufWalk_codeOf_append h hx (m := m) (len := 0) (by omega) []
    rw [List.append_nil, ← hbits] at hwalk
    rw [hufDecode_of_framed ct m hlen hpad, hwalk]
    exact congrArg Except.ok (List.append_nil x)

theorem bodyOf_hufDec_of_noTable {o : Operands} (h : o.ctValid = false) (x : List Byte) :
    bodyOf .hufDec o x = .error ⟨.missingMetadata, .hufBits⟩ := by
  rw [bodyOf, hufDecBody, h]
  rfl

theorem bodyOf_hufDec_of_table {o : Operands} (h : o.ctValid = true) (x : List Byte) :
    bodyOf .hufDec o x =
      (hufDecode o.ct o.seqMax o.payloadBits.toNat x).map fun out => Result.plain out (emptyFlag out) := by
  rw [bodyOf, hufDecBody, h]
  cases hufDecode o.ct o.seqMax o.payloadBits.toNat x <;> rfl

/-- Settles O42: the outcome of R286 and R287 is the one the body computes. -/
theorem hufDecUnpacksTheCodes : Obligations.HufDecUnpacksTheCodes := by
  rintro s ⟨-, hm⟩ hct
  refine ⟨frameErrors_of_writesDst rfl s, fun hs => ⟨fun hv => ?_, fun hv o ho => ?_⟩⟩
  · exact exec_of_body_error rfl hs (bodyOf_hufDec_of_noTable hv _)
  · have hdec : hufDecode (operandsOf s).ct (operandsOf s).seqMax (operandsOf s).payloadBits.toNat (src s) = o :=
      hufDecode_of_hufDecodes hct ho
    have hbody := bodyOf_hufDec_of_table (o := operandsOf s) hv (src s)
    rw [hdec] at hbody
    cases o with
    | error e => exact exec_of_body_error rfl hs hbody
    | ok out => exact delivers_of_body_ok rfl hm hs hbody trivial

end Sys2Proof.Machine
end

section
/-! PROOFS. The two pipelines of 46_orchestrator.md: COMPRESS (R311) and DECOMPRESS (R316). Each body is a chain of the
units, in which a unit's error ends the chain, and what a unit computes meets the unit's relation. -/

namespace Sys2Proof.Machine

open Sys2Proof.Spec

/-- A stage that succeeds hands its output on. -/
theorem ok_bind {α β : Type} (a : α) (f : α → Except CmdError β) : Except.ok a >>= f = f a := rfl

/-! ## COMPRESS (R311) -/

/-- What COMPRESS delivers for the block `x` with run list `r` and payload `pay`: the table of the run list, then the
payload. -/
def compressResult (x r pay : List Byte) : Result where
  out := serial (buildCodes (freqOf r)) ++ pay
  rot := some (bwtRot x)
  bits := some (codeOf (buildCodes (freqOf r)) r).length
  huf := some (buildCodes (freqOf r), freqOf r)
  empty := emptyFlag x

/-- The body is the chain of the stages, with a check of the run list and one of the payload (R150). -/
theorem bodyOf_compress (s : State) (x : List Byte) :
    bodyOf .compress (operandsOf s) x =
      lim s.cfg.seqMax (rleEncode (mtfEncode (bwtLast x))) .rle >>= fun r =>
        (lim s.cfg.seqMax (packed (codeOf (buildCodes (freqOf r)) r)) .hufBits).map (compressResult x r) := by
  simp only [bodyOf, compressBody, operandsOf, hufEncode_eq_codeOf, pack_eq_packed, serialize_eq_serial]
  obtain e | r := lim s.cfg.seqMax (rleEncode (mtfEncode (bwtLast x))) .rle
  · rfl
  simp only [ok_bind]
  cases lim s.cfg.seqMax (packed (codeOf (buildCodes (freqOf r)) r)) .hufBits <;> rfl

/-- The registers that COMPRESS reports in: the index is at most the length of the block, and SEQ_MAX bounds the run
list and the payload, so that every number is held whole. -/
theorem registers_compressResult {s : State} {r : List Byte} (pay : List Byte) (hcfg : s.cfg.wf = true)
    (hr : r.length ≤ s.cfg.seqMax)
    (hpay : (packed (codeOf (buildCodes (freqOf r)) r)).length ≤ s.cfg.seqMax) :
    let t := commit .compress (compressResult (src s) r pay) s
    t.rotIdx.toNat = (bwtRot (src s)).1 ∧ t.rotValid = (bwtRot (src s)).2 ∧
      t.payloadBits.toNat = (codeOf (buildCodes (freqOf r)) r).length ∧
      Installed t (buildCodes (freqOf r)) (fun b => r.count b) := by
  have hidx : (bwtRot (src s)).1 < 2 ^ 32 := ((bwtRot_fst_le _).trans_eq (length_src s)).trans_lt s.srcLen.isLt
  have hfreq (b : Byte) : entry (freqOf r) b < 2 ^ 32 := by
    have hcount : r.count b ≤ r.length := List.count_le_length
    have hmax := seqMax_le_of_wf hcfg
    rw [entry_freqOf]
    omega
  refine ⟨Nat.mod_eq_of_lt hidx, rfl, Nat.mod_eq_of_lt (length_lt_of_length_packed_le hcfg hpay), ?_⟩
  rw [← funext (entry_freqOf r)]
  exact installed_commit rfl (length_entry_le_of_built (built_buildCodes _)) hfreq

/-- Settles O43: what each unit computes from the stage before meets its relation, and the chain of the body has the
two checks of R150 where the statement has them. -/
theorem compressRunsTheFiveStages : Obligations.CompressRunsTheFiveStages := by
  rintro s ⟨hcfg, hm⟩
  refine ⟨frameErrors_of_writesDst rfl s, fun hs => ?_⟩
  obtain ⟨ps, hruns, hbytes⟩ := exists_runs_rleEncode (mtfEncode (bwtLast (src s)))
  have hbuilt := built_buildCodes (freqOf (pairBytes ps))
  rw [funext (entry_freqOf (pairBytes ps))] at hbuilt
  have hbody := bodyOf_compress s (src s)
  rw [← hbytes] at hbody
  refine ⟨_, _, _, _, ps, _, forward_bwtLast _, mtf_mtfEncode _, hruns, hbuilt, fun hlt => ?_, fun hr hlt => ?_,
    fun hr hpay => ?_⟩
  · rw [lim_of_lt _ hlt] at hbody
    exact exec_of_body_error rfl hs hbody
  · rw [lim_of_le _ hr, ok_bind, lim_of_lt _ hlt] at hbody
    exact exec_of_body_error rfl hs hbody
  · rw [lim_of_le _ hr, ok_bind, lim_of_le _ hpay] at hbody
    rw [← emptyFlag_of_length_eq (length_src s)]
    exact delivers_of_body_ok rfl hm hs hbody (registers_compressResult _ hcfg hr hpay)

/-! ## DECOMPRESS (R316) -/

/-- What DECOMPRESS delivers for the block `t` with the parsed table `ct`. -/
def decompressResult (ct : CodeTable) (t : List Byte) : Result :=
  { Result.plain t (emptyFlag t) with huf := some (ct, noFreq) }

/-- The body is the chain of the mirrored stages. -/
theorem bodyOf_decompress (s : State) (x : List Byte) :
    bodyOf .decompress (operandsOf s) x =
      (parseTable false x).map (fun p => (p.ct, p.rest)) >>= fun q =>
        hufDecode q.1 s.cfg.seqMax s.payloadBits.toNat q.2 >>= fun r =>
          rleDecode s.cfg.seqMax r >>= fun m =>
            (bwtDecode s.rotIdx s.rotValid (mtfDecode m)).map (decompressResult q.1) := by
  simp only [bodyOf, decompressBody, operandsOf]
  obtain e | p := parseTable false x
  · rfl
  simp only [Except.map, ok_bind]
  obtain e | r := hufDecode p.ct s.cfg.seqMax s.payloadBits.toNat p.rest
  · rfl
  simp only [ok_bind]
  obtain e | m := rleDecode s.cfg.seqMax r
  · rfl
  simp only [ok_bind]
  cases bwtDecode s.rotIdx s.rotValid (mtfDecode m) <;> rfl

theorem tableOk_of_parses {exact : Bool} {x pay : List Byte} {ct : CodeTable} (h : Parses exact x (.ok (ct, pay))) :
    TableOk ct := by
  cases h with
  | table _ _ hct _ _ => exact hct

/-- A table of R59 is installed with every frequency 0 (R316). -/
theorem installed_commit_noFreq {i : Instr} {r : Result} {s : State} {ct : CodeTable} (hct : TableOk ct)
    (hr : r.huf = some (ct, noFreq)) : Installed (commit i r s) ct (fun _ => 0) := by
  rw [← funext entry_noFreq]
  exact installed_commit hr hct.1 fun b => by rw [entry_noFreq]; decide

/-- Settles O44: the outcome of each stage is the one its unit computes, so the chain of the body is followed along the
stages that succeed, up to the first that fails. -/
theorem decompressRunsTheMirroredStages : Obligations.DecompressRunsTheMirroredStages := by
  rintro s ⟨-, hwf⟩
  refine ⟨frameErrors_of_writesDst rfl s, fun hs => ?_⟩
  have hbody := bodyOf_decompress s (src s)
  refine ⟨fun e he => ?_, fun ct pay hparse => ?_⟩
  · rw [parseTable_of_parses he] at hbody
    exact exec_of_body_error rfl hs hbody
  have hct := tableOk_of_parses hparse
  simp only [parseTable_of_parses hparse, ok_bind] at hbody
  refine ⟨fun e he => ?_, fun r hr => ?_⟩
  · rw [hufDecode_of_hufDecodes hct he] at hbody
    exact exec_of_body_error rfl hs hbody
  rw [hufDecode_of_hufDecodes hct hr, ok_bind] at hbody
  refine ⟨fun e he => ?_, fun m hm => ?_⟩
  · rw [rleDecode_of_rleDecodes he] at hbody
    exact exec_of_body_error rfl hs hbody
  rw [rleDecode_of_rleDecodes hm, ok_bind] at hbody
  refine ⟨mtfDecode m, mtf_mtfDecode m, fun e he => ?_, fun t ht => ?_⟩
  · rw [bwtDecode_of_bwtDecodes he] at hbody
    exact exec_of_body_error rfl hs hbody
  · rw [bwtDecode_of_bwtDecodes ht] at hbody
    exact delivers_of_body_ok rfl hwf hs hbody (installed_commit_noFreq hct rfl)

end Sys2Proof.Machine
end

section
/-! PROOFS. The decoder of 30_encoding.md: the words that it accepts (R112 to R114). -/

namespace Sys2Proof

/-! ## The two fields of a command word (R110) -/

theorem toNat_opcodeField (w : Word) : (opcodeField w).toNat = w.toNat % 256 := by
  simp [opcodeField, BitVec.extractLsb'_toNat]

theorem toNat_mbzField (w : Word) : (mbzField w).toNat = w.toNat / 256 := by
  have := w.isLt
  rw [mbzField, BitVec.extractLsb'_toNat, Nat.shiftRight_eq_div_pow]
  omega

theorem mbzField_eq_zero_iff (w : Word) : mbzField w = 0#24 ↔ w.toNat < 256 := by
  rw [← BitVec.toNat_inj, toNat_mbzField, BitVec.toNat_ofNat]
  omega

/-! ## The opcode map (R112) -/

theorem opcodeOf_le (i : Instr) : (opcodeOf i).toNat ≤ 0x0C := by cases i <;> decide

theorem toNat_encode (i : Instr) : (encode i).toNat = (opcodeOf i).toNat := by cases i <;> rfl

/-- The map has the opcodes up to 0x0C, each at its command, and no other (R113). -/
theorem map_opcodeOf_instrOfOpcode : ∀ op : Byte,
    (instrOfOpcode op).map opcodeOf = if op.toNat ≤ 0x0C then some op else none := by decide

theorem eq_opcodeOf_of_instrOfOpcode {op : Byte} {i : Instr} (h : instrOfOpcode op = some i) : op = opcodeOf i := by
  have hmap := map_opcodeOf_instrOfOpcode op
  rw [h, Option.map_some] at hmap
  split at hmap
  · exact (Option.some.inj hmap).symm
  · cases hmap

theorem exists_opcodeOf_eq {op : Byte} (h : op.toNat ≤ 0x0C) : ∃ i, opcodeOf i = op := by
  have hmap := map_opcodeOf_instrOfOpcode op
  rw [if_pos h] at hmap
  obtain ⟨i, -, hi⟩ := Option.map_eq_some_iff.mp hmap
  exact ⟨i, hi⟩

/-! ## Decoding and encoding (R114) -/

/-- The decoder inverts the encoder, and accepts nothing else. -/
theorem decode_eq_ok_iff {w : Word} {i : Instr} : decode w = .ok i ↔ w = encode i := by
  constructor
  · intro h
    unfold decode at h
    split_ifs at h with hmbz
    split at h <;> cases h
    next hop =>
      rw [ne_eq, not_not, mbzField_eq_zero_iff] at hmbz
      have hlow := congrArg BitVec.toNat (eq_opcodeOf_of_instrOfOpcode hop)
      rw [toNat_opcodeField, Nat.mod_eq_of_lt hmbz] at hlow
      exact BitVec.eq_of_toNat_eq (hlow.trans (toNat_encode i).symm)
  · rintro rfl
    cases i <;> rfl

/-- The words of the commands are 0x00 to 0x0C (R112). -/
theorem exists_encode_eq_iff (w : Word) : (∃ i, encode i = w) ↔ w.toNat ≤ 0x0C := by
  constructor
  · rintro ⟨i, rfl⟩
    rw [toNat_encode]
    exact opcodeOf_le i
  · intro h
    have hlow : (opcodeField w).toNat = w.toNat := by rw [toNat_opcodeField]; omega
    obtain ⟨i, hi⟩ := exists_opcodeOf_eq (hlow.trans_le h)
    exact ⟨i, BitVec.eq_of_toNat_eq (by rw [toNat_encode, hi, hlow])⟩

/-- Settles O1: the decoder accepts the words of the encoder, which are those up to 0x0C. -/
theorem decodeAcceptsExactlyTheThirteenWords : Obligations.DecodeAcceptsExactlyTheThirteenWords := by
  refine fun w => ⟨fun h => ?_, fun h => ?_, fun i => decode_eq_ok_iff.mp⟩
  · obtain ⟨i, hi⟩ := (exists_encode_eq_iff w).mpr h
    exact ⟨i, decode_eq_ok_iff.mpr hi.symm, hi⟩
  · cases hd : decode w with
    | error x => exact ⟨x, rfl⟩
    | ok i => exact absurd ((exists_encode_eq_iff w).mp ⟨i, (decode_eq_ok_iff.mp hd).symm⟩) (Nat.not_le.mpr h)

/-- Settles O2, by evaluation of the decoder on the ten words. -/
theorem sampleWordsDecode : Obligations.SampleWordsDecode := by
  unfold Obligations.SampleWordsDecode
  decide

end Sys2Proof
end

section
/-! PROOFS. The round trip of the BWT engine (41_bwt.md): the sorted order is unique (R173), LF is a permutation (R176),
and one step of LF leads from a rotation to the one that starts one byte before it (R178). Equal rotations of a periodic
block are told apart only by their starts, which LF does not follow, so the walk is followed on the rotations' words. -/

namespace Sys2Proof.Machine

open Sys2Proof.Spec

/-! ## The sorted order (R173) -/

theorem eq_sortedOrder {t : List Byte} {sa : List Nat} (h : SortedOrder t sa) : sa = sortedOrder t := by
  have hs := sortedOrder_sorted t
  refine (h.1.trans hs.1.symm).eq_of_pairwise (fun i j _ _ hij hji => ?_) h.2 hs.2
  rw [cycLess_iff_rotationKey_lt] at hij hji
  exact absurd hji hij.asymm

/-- Settles O46: the engine's sort is sorted, and a strict order sorts a list in one way only. -/
theorem sortedOrderIsUnique : Obligations.SortedOrderIsUnique := fun t =>
  ⟨sortedOrder_sorted t, fun _ => eq_sortedOrder⟩

/-- The forward transform is the one the engine computes. -/
theorem forward_iff {t l : List Byte} {i : Nat} {v : Bool} :
    Forward t l i v ↔ bwtLast t = l ∧ bwtRot t = (i, v) := by
  constructor
  · rintro (rfl | ⟨sa, ht, hsa⟩)
    · exact ⟨rfl, rfl⟩
    · obtain rfl := eq_sortedOrder hsa
      exact ⟨rfl, if_neg (mt List.length_eq_zero_iff.mp ht)⟩
  · rintro ⟨rfl, hrot⟩
    have h := forward_bwtLast t
    rwa [hrot] at h

/-! ## LF as a rank (R176) -/

/-- What LF ranks the positions of the last column by: the byte, then the position. -/
def lfKey (l : List Byte) (q : Nat) : Nat ×ₗ Nat := toLex ((l.getD q 0).toNat, q)

theorem lfKey_lt_iff {l : List Byte} {q p : Nat} :
    lfKey l q < lfKey l p ↔
      (l.getD q 0).toNat < (l.getD p 0).toNat ∨ (l.getD q 0).toNat = (l.getD p 0).toNat ∧ q < p :=
  Prod.Lex.toLex_lt_toLex

theorem lfKey_injective (l : List Byte) : Function.Injective (lfKey l) :=
  fun _ _ h => congrArg (fun x => (ofLex x).2) h

/-- How many of the `n` positions have a key below that of `p`. -/
def rankBelow {β : Type} [LinearOrder β] (n : Nat) (key : Nat → β) (p : Nat) : Nat :=
  ((Finset.range n).filter fun q => key q < key p).card

theorem rankBelow_lt {β : Type} [LinearOrder β] {n : Nat} (key : Nat → β) {p : Nat} (hp : p < n) :
    rankBelow n key p < n := by
  have h : ((Finset.range n).filter fun q => key q < key p) ⊂ Finset.range n :=
    Finset.filter_ssubset.mpr ⟨p, Finset.mem_range.mpr hp, lt_irrefl _⟩
  exact (Finset.card_lt_card h).trans_eq (Finset.card_range n)

theorem rankBelow_lt_rankBelow {β : Type} [LinearOrder β] {n : Nat} {key : Nat → β} {q p : Nat} (hq : q < n)
    (h : key q < key p) : rankBelow n key q < rankBelow n key p := by
  refine Finset.card_lt_card (Finset.ssubset_iff_of_subset ?_ |>.mpr ⟨q, ?_, ?_⟩)
  · exact Finset.monotone_filter_right _ fun _ _ hx => lt_trans hx h
  · exact Finset.mem_filter.mpr ⟨Finset.mem_range.mpr hq, h⟩
  · simp

/-- LF adds up the positions of smaller bytes and the earlier ones of the same byte. -/
theorem lf_eq_rankBelow {l : List Byte} {p : Nat} (hp : p < l.length) : lf l p = rankBelow l.length (lfKey l) p := by
  have hocc : occ l p = Nat.count (fun q => l.getD q 0 = l.getD p 0) p + 1 := by
    change Nat.count (fun q => l.getD q 0 = l.getD p 0) (p + 1) = _
    rw [Nat.count_succ, if_pos rfl]
  have hsmaller : smaller l (l.getD p 0) =
      Nat.count (fun q => (l.getD q 0).toNat < (l.getD p 0).toNat) l.length := rfl
  have hsplit : (Finset.range l.length).filter (fun q => lfKey l q < lfKey l p) =
      (Finset.range l.length).filter (fun q => (l.getD q 0).toNat < (l.getD p 0).toNat) ∪
        (Finset.range p).filter (fun q => l.getD q 0 = l.getD p 0) := by
    ext q
    simp only [Finset.mem_filter, Finset.mem_union, Finset.mem_range, lfKey_lt_iff, BitVec.toNat_inj]
    constructor
    · rintro ⟨hq, h | ⟨h, hqp⟩⟩
      · exact .inl ⟨hq, h⟩
      · exact .inr ⟨hqp, h⟩
    · rintro (⟨hq, h⟩ | ⟨hqp, h⟩)
      · exact ⟨hq, .inl h⟩
      · exact ⟨hqp.trans hp, .inr ⟨h, hqp⟩⟩
  have hdisj : Disjoint ((Finset.range l.length).filter fun q => (l.getD q 0).toNat < (l.getD p 0).toNat)
      ((Finset.range p).filter fun q => l.getD q 0 = l.getD p 0) := by
    refine Finset.disjoint_left.mpr fun q hlt heq => ?_
    exact Nat.ne_of_lt (Finset.mem_filter.mp hlt).2 (congrArg BitVec.toNat (Finset.mem_filter.mp heq).2)
  rw [lf, hocc, hsmaller, Nat.count_eq_card_filter_range, Nat.count_eq_card_filter_range, rankBelow, hsplit,
    Finset.card_union_of_disjoint hdisj]
  omega

theorem lf_lt {l : List Byte} {p : Nat} (hp : p < l.length) : lf l p < l.length :=
  (lf_eq_rankBelow hp).trans_lt (rankBelow_lt _ hp)

/-- A one-to-one map of 0..n-1 into itself is a permutation. -/
theorem map_range_perm_of_injOn {n : Nat} {f : Nat → Nat} (hlt : ∀ i < n, f i < n)
    (hinj : ∀ i < n, ∀ j < n, f i = f j → i = j) : ((List.range n).map f).Perm (List.range n) := by
  have hnodup : ((List.range n).map f).Nodup :=
    List.nodup_range.map_on fun i hi j hj => hinj i (List.mem_range.mp hi) j (List.mem_range.mp hj)
  refine (List.subperm_of_subset hnodup fun x hx => ?_).perm_of_length_le (by simp)
  obtain ⟨i, hi, rfl⟩ := List.mem_map.mp hx
  exact List.mem_range.mpr (hlt i (List.mem_range.mp hi))

theorem lf_injOn {l : List Byte} {q p : Nat} (hq : q < l.length) (hp : p < l.length) (h : lf l q = lf l p) : q = p := by
  rw [lf_eq_rankBelow hq, lf_eq_rankBelow hp] at h
  refine lfKey_injective l (le_antisymm ?_ ?_)
  · exact not_lt.mp fun hlt => (rankBelow_lt_rankBelow hp hlt).ne' h
  · exact not_lt.mp fun hlt => (rankBelow_lt_rankBelow hq hlt).ne h

/-- Settles O47: LF is the rank in a linear order of the positions, and no two positions have the same rank. -/
theorem lfIsAPermutation : Obligations.LfIsAPermutation := fun _ =>
  ⟨map_range_perm_of_injOn (fun _ => lf_lt) fun _ hi _ hj => lf_injOn hi hj, fun _ => lastToFirst_eq_lf⟩

/-! ## The entry at a rank -/

section
variable {α β : Type} [LinearOrder α] [LinearOrder β] {n : Nat} {a d : Nat → α} {key : Nat → β}

/-- In an ascending list the entries up to `x` come first. -/
theorem le_of_lt_card_filter_le (ha : ∀ i j, i ≤ j → j < n → a i ≤ a j) {x : α} {k : Nat}
    (hk : k < ((Finset.range n).filter fun r => a r ≤ x).card) : a k ≤ x := by
  by_contra hgt
  have hsub : ((Finset.range n).filter fun r => a r ≤ x) ⊆ Finset.range k := fun r hr => by
    obtain ⟨hrn, hle⟩ := Finset.mem_filter.mp hr
    refine Finset.mem_range.mpr (not_le.mp fun hkr => hgt ?_)
    exact (ha k r hkr (Finset.mem_range.mp hrn)).trans hle
  exact hk.not_ge ((Finset.card_le_card hsub).trans_eq (Finset.card_range k))

/-- In an ascending list the entries below `x` come first. -/
theorem le_of_card_filter_lt_le (ha : ∀ i j, i ≤ j → j < n → a i ≤ a j) {x : α} {k : Nat} (hkn : k < n)
    (hk : ((Finset.range n).filter fun r => a r < x).card ≤ k) : x ≤ a k := by
  by_contra hgt
  have hsub : Finset.range (k + 1) ⊆ (Finset.range n).filter fun r => a r < x := fun r hr => by
    have hrk : r ≤ k := Nat.le_of_lt_succ (Finset.mem_range.mp hr)
    exact Finset.mem_filter.mpr
      ⟨Finset.mem_range.mpr (hrk.trans_lt hkn), (ha r k hrk hkn).trans_lt (not_le.mp hgt)⟩
  have hcard := Finset.card_le_card hsub
  rw [Finset.card_range] at hcard
  exact Nat.not_succ_le_self k (hcard.trans hk)

/-- The positions of smaller keys have values up to that of `p`, and so has `p` itself. -/
theorem rankBelow_lt_card_filter_le (hkey : ∀ q < n, ∀ p < n, key q ≤ key p → d q ≤ d p) {p : Nat} (hp : p < n) :
    rankBelow n key p < ((Finset.range n).filter fun q => d q ≤ d p).card := by
  have hsub : insert p ((Finset.range n).filter fun q => key q < key p) ⊆
      (Finset.range n).filter fun q => d q ≤ d p := by
    refine Finset.insert_subset (by simpa using hp) fun q hq => ?_
    obtain ⟨hq, hqp⟩ := Finset.mem_filter.mp hq
    exact Finset.mem_filter.mpr ⟨hq, hkey q (Finset.mem_range.mp hq) p hp hqp.le⟩
  have hcard := Finset.card_le_card hsub
  rwa [Finset.card_insert_of_notMem (by simp)] at hcard

/-- The positions of smaller values have smaller keys. -/
theorem card_filter_lt_le_rankBelow (hkey : ∀ q < n, ∀ p < n, key q ≤ key p → d q ≤ d p) {p : Nat} (hp : p < n) :
    ((Finset.range n).filter fun q => d q < d p).card ≤ rankBelow n key p := by
  refine Finset.card_le_card fun q h => ?_
  obtain ⟨hq, hqp⟩ := Finset.mem_filter.mp h
  exact Finset.mem_filter.mpr ⟨hq, not_le.mp fun hge => (hkey p hp q (Finset.mem_range.mp hq) hge).not_gt hqp⟩

/-- The entry at a rank: `a` lists values in order, `d` lists the same values, and `key` orders the positions of `d` as
their values are ordered, except that it may tell equal values apart. Then the value of `d` at a position stands in `a`
at the position's rank. -/
theorem apply_rankBelow (ha : ∀ i j, i ≤ j → j < n → a i ≤ a j)
    (hperm : ((List.range n).map d).Perm ((List.range n).map a))
    (hkey : ∀ q < n, ∀ p < n, key q ≤ key p → d q ≤ d p) {p : Nat} (hp : p < n) : a (rankBelow n key p) = d p := by
  have hcount (P : α → Prop) [DecidablePred P] :
      ((Finset.range n).filter fun q => P (d q)).card = ((Finset.range n).filter fun r => P (a r)).card := by
    have h := hperm.countP_eq (fun x => decide (P x))
    rw [List.countP_map, List.countP_map] at h
    rw [← Nat.count_eq_card_filter_range, ← Nat.count_eq_card_filter_range]
    exact h
  refine le_antisymm (le_of_lt_card_filter_le ha ?_) (le_of_card_filter_lt_le ha (rankBelow_lt key hp) ?_)
  · rw [← hcount (· ≤ d p)]
    exact rankBelow_lt_card_filter_le hkey hp
  · rw [← hcount (· < d p)]
    exact card_filter_lt_le_rankBelow hkey hp

end

/-! ## The words of the rotations -/

/-- Byte `i` of the block, read around its end, as a number. -/
def cyclicByte (t : List Byte) (i : Nat) : Nat := (t.getD (i % t.length) 0).toNat

/-- The rotation from `i` on as a word, without the tie-break: the first component of `rotationKey`. -/
def rotationWord (t : List Byte) (i : Nat) : Lex (Fin t.length → Nat) := toLex fun k => cyclicByte t (i + k)

theorem rotationWord_le_of_rotationKey_le {t : List Byte} {i j : Nat} (h : rotationKey t i ≤ rotationKey t j) :
    rotationWord t i ≤ rotationWord t j := Prod.Lex.monotone_fst _ _ h

@[simp] theorem cyclicByte_add_length (t : List Byte) (i : Nat) : cyclicByte t (i + t.length) = cyclicByte t i := by
  rw [cyclicByte, Nat.add_mod_right, cyclicByte]

theorem cyclicByte_of_lt {t : List Byte} {i : Nat} (h : i < t.length) : cyclicByte t i = (t.getD i 0).toNat := by
  rw [cyclicByte, Nat.mod_eq_of_lt h]

@[simp] theorem rotationWord_mod (t : List Byte) (i : Nat) : rotationWord t (i % t.length) = rotationWord t i :=
  congrArg toLex (funext fun k => by rw [cyclicByte, Nat.mod_add_mod, cyclicByte])

/-- Two rotations are the same word when they read the same for ever. -/
theorem rotationWord_eq_iff {t : List Byte} (ht : t ≠ []) {i j : Nat} :
    rotationWord t i = rotationWord t j ↔ ∀ k, cyclicByte t (i + k) = cyclicByte t (j + k) := by
  constructor
  · intro h k
    have hk := congrFun (toLex_inj.mp h) ⟨k % t.length, Nat.mod_lt _ (List.length_pos_iff.mpr ht)⟩
    simpa [cyclicByte] using hk
  · exact fun h => congrArg toLex (funext fun k => h k)

@[simp] theorem rotationWord_add_length (t : List Byte) (i : Nat) :
    rotationWord t (i + t.length) = rotationWord t i :=
  congrArg toLex (funext fun k => by rw [Nat.add_right_comm, cyclicByte_add_length])

/-- Rotations that are the same word are so too from the same number of bytes later on. -/
theorem rotationWord_add_congr {t : List Byte} (ht : t ≠ []) {i j : Nat} (h : rotationWord t i = rotationWord t j)
    (m : Nat) : rotationWord t (i + m) = rotationWord t (j + m) := by
  rw [rotationWord_eq_iff ht] at h ⊢
  exact fun k => by rw [Nat.add_assoc, h, Nat.add_assoc]

theorem rotationWord_lt_iff {t : List Byte} {i j : Nat} :
    rotationWord t i < rotationWord t j ↔ ∃ k < t.length,
      (∀ k' < k, cyclicByte t (i + k') = cyclicByte t (j + k')) ∧ cyclicByte t (i + k) < cyclicByte t (j + k) :=
  toLex_fin_lt_iff (fun k => cyclicByte t (i + k)) (fun k => cyclicByte t (j + k))

/-- What decides between two rotations is their first byte, or the rotations from the next byte on. -/
theorem rotationWord_lt_cases {t : List Byte} {i j : Nat} (h : rotationWord t i < rotationWord t j) :
    cyclicByte t i < cyclicByte t j ∨
      cyclicByte t i = cyclicByte t j ∧ rotationWord t (i + 1) < rotationWord t (j + 1) := by
  rw [rotationWord_lt_iff] at h ⊢
  obtain ⟨k, hk, heq, hlt⟩ := h
  cases k with
  | zero => exact .inl hlt
  | succ k =>
    refine .inr ⟨heq 0 (Nat.succ_pos k), k, by omega, fun k' hk' => ?_, ?_⟩
    · simpa only [Nat.add_assoc, Nat.add_comm 1] using heq (k' + 1) (Nat.succ_lt_succ hk')
    · simpa only [Nat.add_assoc, Nat.add_comm 1] using hlt

/-! ## One step of LF -/

/-- The rotation in row `q` of the sorted order. -/
def rowStart (t : List Byte) (q : Nat) : Nat := (sortedOrder t).getD q 0

theorem length_sortedOrder (t : List Byte) : (sortedOrder t).length = t.length := by
  rw [(sortedOrder_perm t).length_eq, List.length_range]

theorem map_rowStart_range (t : List Byte) : (List.range t.length).map (rowStart t) = sortedOrder t := by
  refine List.ext_getElem (by simp [length_sortedOrder]) fun q hq hq' => ?_
  rw [List.getElem_map, List.getElem_range, rowStart, List.getD_eq_getElem _ _ hq']

/-- The rows are in the order of the words. -/
theorem rotationWord_rowStart_mono {t : List Byte} {q p : Nat} (hqp : q ≤ p) (hp : p < t.length) :
    rotationWord t (rowStart t q) ≤ rotationWord t (rowStart t p) := by
  rw [← length_sortedOrder] at hp
  obtain rfl | hlt := Nat.eq_or_lt_of_le hqp
  · exact le_rfl
  · have h := List.pairwise_iff_getElem.mp (sortedOrder_sorted t).2 q p (hlt.trans hp) hp hlt
    rw [cycLess_iff_rotationKey_lt] at h
    rw [rowStart, rowStart, List.getD_eq_getElem _ _ (hlt.trans hp), List.getD_eq_getElem _ _ hp]
    exact rotationWord_le_of_rotationKey_le h.le

/-- The last column has the byte before the start of each row (R174). -/
theorem toNat_getD_bwtLast {t : List Byte} {q : Nat} (hq : q < t.length) :
    ((bwtLast t).getD q 0).toNat = cyclicByte t (rowStart t q + (t.length - 1)) := by
  have hq' := hq
  rw [← length_sortedOrder] at hq'
  rw [bwtLast, List.getD_eq_getElem _ _ (by rwa [List.length_map]), List.getElem_map, cyclicByte, rowStart,
    List.getD_eq_getElem _ _ hq', Nat.add_sub_assoc (Nat.one_le_of_lt hq)]

/-- The keys of LF order the rows as the rotations that start one byte before them are ordered. -/
theorem rotationWord_pred_mono {t : List Byte} {q p : Nat} (hq : q < t.length) (hp : p < t.length)
    (h : lfKey (bwtLast t) q ≤ lfKey (bwtLast t) p) :
    rotationWord t (rowStart t q + (t.length - 1)) ≤ rotationWord t (rowStart t p + (t.length - 1)) := by
  have hnext (i : Nat) : rotationWord t (i + (t.length - 1) + 1) = rotationWord t i := by
    rw [Nat.add_assoc, Nat.sub_add_cancel (Nat.one_le_of_lt hq), rotationWord_add_length]
  refine not_lt.mp fun hlt => h.not_gt (lfKey_lt_iff.mpr ?_)
  rw [toNat_getD_bwtLast hq, toNat_getD_bwtLast hp]
  refine (rotationWord_lt_cases hlt).imp_right fun ⟨heq, hlt⟩ => ⟨heq, not_le.mp fun hqp => ?_⟩
  rw [hnext, hnext] at hlt
  exact (rotationWord_rowStart_mono hqp hp).not_gt hlt

/-- The rotations that start one byte before the rows are all rotations. -/
theorem map_pred_perm (t : List Byte) :
    ((List.range t.length).map fun q => rotationWord t (rowStart t q + (t.length - 1))).Perm
      ((List.range t.length).map fun q => rotationWord t (rowStart t q)) := by
  have hpred : ((List.range t.length).map fun i => (i + (t.length - 1)) % t.length).Perm (List.range t.length) := by
    refine map_range_perm_of_injOn (fun i hi => Nat.mod_lt _ (by omega)) fun i hi j hj h => ?_
    exact Nat.ModEq.eq_of_lt_of_lt (Nat.ModEq.add_right_cancel' _ h) hi hj
  have hrows (f : Nat → Lex (Fin t.length → Nat)) :
      ((List.range t.length).map fun q => f (rowStart t q)).Perm ((List.range t.length).map f) := by
    have h := (sortedOrder_perm t).map f
    rwa [← map_rowStart_range, List.map_map] at h
  have hshift := hpred.map (rotationWord t)
  simp only [List.map_map, Function.comp_def, rotationWord_mod] at hshift
  exact ((hrows fun i => rotationWord t (i + (t.length - 1))).trans hshift).trans (hrows (rotationWord t)).symm

/-- One step of LF leads from a row to that of the rotation one byte before it. -/
theorem rotationWord_rowStart_lf {t : List Byte} {p : Nat} (hp : p < t.length) :
    rotationWord t (rowStart t (lf (bwtLast t) p)) = rotationWord t (rowStart t p + (t.length - 1)) := by
  have hp' := hp
  rw [← length_bwtLast] at hp'
  rw [lf_eq_rankBelow hp', length_bwtLast]
  exact apply_rankBelow (fun _ _ => rotationWord_rowStart_mono) (map_pred_perm t)
    (fun q hq p hp => rotationWord_pred_mono hq hp) hp

/-! ## The walk (R177, R178) -/

theorem rowStart_idxOf_zero {t : List Byte} (ht : t ≠ []) :
    (sortedOrder t).idxOf 0 < t.length ∧ rowStart t ((sortedOrder t).idxOf 0) = 0 := by
  have hmem : 0 ∈ sortedOrder t :=
    (sortedOrder_perm t).mem_iff.mpr (List.mem_range.mpr (List.length_pos_iff.mpr ht))
  have hlt := List.idxOf_lt_length_of_mem hmem
  refine ⟨hlt.trans_eq (length_sortedOrder t), ?_⟩
  rw [rowStart, List.getD_eq_getElem _ _ hlt, List.getElem_idxOf]

/-- After `k` steps from the row of the block itself the walk stands in a row that reads as the rotation `k` bytes
before the end of the block. -/
theorem rotationWord_rowStart_iterate {t : List Byte} (ht : t ≠ []) {i k : Nat} (hi : i < t.length)
    (hzero : rowStart t i = 0) (hk : k ≤ t.length) :
    (lf (bwtLast t))^[k] i < t.length ∧
      rotationWord t (rowStart t ((lf (bwtLast t))^[k] i)) = rotationWord t (t.length - k) := by
  induction k with
  | zero =>
    refine ⟨hi, ?_⟩
    rw [Function.iterate_zero_apply, hzero, Nat.sub_zero, ← rotationWord_add_length, Nat.zero_add]
  | succ k ih =>
    obtain ⟨hlt, hword⟩ := ih (Nat.le_of_succ_le hk)
    rw [Function.iterate_succ_apply']
    constructor
    · have hlt' := hlt
      rw [← length_bwtLast] at hlt' ⊢
      exact lf_lt hlt'
    · rw [rotationWord_rowStart_lf hlt, rotationWord_add_congr ht hword,
        ← rotationWord_add_length t (t.length - (k + 1))]
      congr 1
      omega

theorem walk_bwtLast {t : List Byte} (ht : t ≠ []) : Walk (bwtLast t) ((sortedOrder t).idxOf 0) t := by
  obtain ⟨hi, hzero⟩ := rowStart_idxOf_zero ht
  refine ⟨(length_bwtLast t).symm, fun k => (lf (bwtLast t))^[k] ((sortedOrder t).idxOf 0), rfl,
    fun k _ => Function.iterate_succ_apply' _ _ _, fun k hk => ?_⟩
  rw [length_bwtLast] at hk ⊢
  obtain ⟨hlt, hword⟩ := rotationWord_rowStart_iterate ht hi hzero hk.le
  rw [← BitVec.toNat_inj, toNat_getD_bwtLast hlt, (rotationWord_eq_iff ht).mp hword, ← cyclicByte_of_lt (by omega),
    ← cyclicByte_add_length]
  congr 1
  omega

theorem bwtDecodes_bwtLast (t : List Byte) : BwtDecodes (bwtRot t).1 (bwtRot t).2 (bwtLast t) (.ok t) := by
  by_cases ht : t = []
  · subst ht
    exact .empty rfl rfl
  · have hne : bwtLast t ≠ [] := by rwa [← List.length_pos_iff, length_bwtLast, List.length_pos_iff]
    rw [bwtRot, if_neg (mt List.length_eq_zero_iff.mp ht)]
    exact .walk t hne rfl ((rowStart_idxOf_zero ht).1.trans_eq (length_bwtLast t).symm) (walk_bwtLast ht)

/-- The decoder on the engine's own transform and index, which a register holds whole. -/
theorem bwtDecode_bwtLast {t : List Byte} {i : Word} (hi : i.toNat = (bwtRot t).1) :
    bwtDecode i (bwtRot t).2 (bwtLast t) = .ok t :=
  bwtDecode_of_bwtDecodes (hi ▸ bwtDecodes_bwtLast t)

/-- Settles O48: the forward transform is the engine's, and the walk over it reads the block backwards. -/
theorem bwtRoundTrips : Obligations.BwtRoundTrips := by
  refine ⟨fun t l i v h => ?_, fun t l i v => forward_iff, fun t ht => ?_⟩
  · obtain ⟨rfl, hrot⟩ := forward_iff.mp h
    have h := bwtDecodes_bwtLast t
    rwa [hrot] at h
  · exact bwtDecode_bwtLast (Nat.mod_eq_of_lt ((bwtRot_fst_le t).trans_lt ht))

end Sys2Proof.Machine
end

section
/-! PROOFS. The recency list and the MTF transducer (R202 to R207): the steps of the two directions are one relation,
and either side of it determines the other. -/

namespace Sys2Proof.Machine

open Sys2Proof.Spec

/-! ## The recency list (R207) -/

theorem nodup_of_perm_ascending {r : List Byte} (h : r.Perm ascending) : r.Nodup :=
  h.nodup_iff.mpr (allBytes_ascending.imp fun hlt heq => Nat.ne_of_lt hlt (congrArg BitVec.toNat heq))

/-- The one position of a byte is its index. -/
theorem getElem?_eq_some_iff_of_perm_ascending {r : List Byte} (h : r.Perm ascending) {c : Byte} {j : Nat} :
    r[j]? = some c ↔ j = r.idxOf c := by
  constructor
  · intro hj
    obtain ⟨hlt, rfl⟩ := List.getElem?_eq_some_iff.mp hj
    exact ((nodup_of_perm_ascending h).idxOf_getElem j hlt).symm
  · rintro rfl
    exact List.getElem?_idxOf (mem_of_perm_ascending h c)

/-- Settles O49: a move to the front permutes the list, and a permutation of the byte values has each of them once. -/
theorem recencyListStaysAPermutation : Obligations.RecencyListStaysAPermutation := by
  refine fun r hr => ⟨fun j hj => front_perm_ascending hr hj, fun c => ⟨r.idxOf c, ?_, fun j => ?_⟩⟩
  · exact (getElem?_eq_some_iff_of_perm_ascending hr).mpr rfl
  · exact (getElem?_eq_some_iff_of_perm_ascending hr).mp

/-! ## Both sides of the steps (R203, R204) -/

/-- A step moves the byte that stands at its index to the front. -/
theorem mtfRun_cons_iff {r : List Byte} {c j : Byte} {rest : List (Byte × Byte)} :
    MtfRun r ((c, j) :: rest) ↔ r[j.toNat]? = some c ∧ MtfRun (front r j.toNat) rest := by
  constructor
  · rintro ⟨⟩
    next hc hrest => exact ⟨hc, front_eq_cons_eraseIdx hc ▸ hrest⟩
  · rintro ⟨hc, hrest⟩
    exact mtfRun_cons_of_front hc hrest

/-- The steps determine the indices from the bytes. -/
theorem eq_mtfEncodeFrom_of_mtfRun {r : List Byte} (hr : r.Perm ascending) {a b : List Byte}
    (hlen : a.length = b.length) (h : MtfRun r (a.zip b)) : mtfEncodeFrom r a = b := by
  induction a generalizing r b with
  | nil => exact (List.eq_nil_of_length_eq_zero hlen.symm).symm
  | cons c a ih =>
    obtain ⟨j, b, rfl⟩ := List.exists_cons_of_length_eq_add_one hlen.symm
    obtain ⟨hc, hrest⟩ := mtfRun_cons_iff.mp h
    have hj := (getElem?_eq_some_iff_of_perm_ascending hr).mp hc
    rw [mtfEncodeFrom, ← hj, ih (front_perm_ascending hr j.isLt) (Nat.succ.inj hlen) hrest, BitVec.ofNat_toNat,
      BitVec.setWidth_eq]

/-- The steps determine the bytes from the indices. -/
theorem eq_mtfDecodeFrom_of_mtfRun {r a b : List Byte} (hlen : a.length = b.length) (h : MtfRun r (a.zip b)) :
    mtfDecodeFrom r b = a := by
  induction b generalizing r a with
  | nil => exact (List.eq_nil_of_length_eq_zero hlen).symm
  | cons j b ih =>
    obtain ⟨c, a, rfl⟩ := List.exists_cons_of_length_eq_add_one hlen
    obtain ⟨hc, hrest⟩ := mtfRun_cons_iff.mp h
    rw [mtfDecodeFrom, ih (Nat.succ.inj hlen) hrest, List.getD_eq_getElem?_getD, hc, Option.getD_some]

theorem mtf_iff_mtfEncode {a b : List Byte} : Mtf a b ↔ mtfEncode a = b := by
  constructor
  · rintro ⟨hlen, h⟩
    exact eq_mtfEncodeFrom_of_mtfRun (.refl ascending) hlen h
  · rintro rfl
    exact mtf_mtfEncode a

theorem mtf_iff_mtfDecode {a b : List Byte} : Mtf a b ↔ mtfDecode b = a := by
  constructor
  · rintro ⟨hlen, h⟩
    exact eq_mtfDecodeFrom_of_mtfRun hlen h
  · rintro rfl
    exact mtf_mtfDecode b

/-- Settles O50: the relation is the graph of the encoder and of the decoder. -/
theorem mtfRoundTrips : Obligations.MtfRoundTrips := fun _ _ => ⟨mtf_iff_mtfEncode, mtf_iff_mtfDecode⟩

theorem mtfDecode_mtfEncode (x : List Byte) : mtfDecode (mtfEncode x) = x :=
  mtf_iff_mtfDecode.mp (mtf_mtfEncode x)

end Sys2Proof.Machine
end

section
/-! PROOFS. The run lists of 43_rle.md: every byte sequence has exactly one (R224), and every input of the decoder has
an outcome by R223. -/

namespace Sys2Proof.Machine

open Sys2Proof.Spec

/-! ## The run list is unique (R224) -/

theorem length_le_length_expand {ps : List (Nat × Byte)} (h : CountsOk ps) : ps.length ≤ (expand ps).length := by
  induction ps with
  | nil => exact Nat.le_refl 0
  | cons p ps ih =>
    obtain ⟨k, c⟩ := p
    obtain ⟨⟨hk, -⟩, hps⟩ := countsOk_cons.mp h
    have := ih hps
    rw [expand_cons, List.length_append, List.length_replicate, List.length_cons]
    omega

theorem expand_eq_nil_iff {ps : List (Nat × Byte)} (h : CountsOk ps) : expand ps = [] ↔ ps = [] := by
  constructor
  · intro hnil
    have hle := length_le_length_expand h
    rw [hnil] at hle
    exact List.eq_nil_of_length_eq_zero (Nat.le_zero.mp hle)
  · rintro rfl
    rfl

/-- The first pair of a list of pairs is the first byte of the bytes it stands for. -/
theorem head?_expand_cons {k : Nat} (hk : 1 ≤ k) (c : Byte) (ps : List (Nat × Byte)) :
    (expand ((k, c) :: ps)).head? = some c := by
  obtain ⟨k, rfl⟩ := Nat.exists_eq_add_of_le' hk
  rfl

/-- A run that is cut short of 255 bytes is followed by another byte value. -/
theorem head?_expand_ne_of_runs {k : Nat} {c : Byte} {ps : List (Nat × Byte)} {t : List Byte}
    (h : Runs t ((k, c) :: ps)) (hk : k < 255) : (expand ps).head? ≠ some c := by
  obtain ⟨hcounts, hmax, -⟩ := h
  cases ps with
  | nil => exact nofun
  | cons q ps =>
    obtain ⟨j, x⟩ := q
    obtain ⟨-, hcounts⟩ := countsOk_cons.mp hcounts
    rw [head?_expand_cons (countsOk_cons.mp hcounts).1.1]
    intro hx
    exact Nat.ne_of_lt hk (hmax.rel (Option.some.inj hx).symm)

/-- No run list has a longer first run than another. -/
theorem count_le_of_runs {k j : Nat} {c : Byte} {ps qs : List (Nat × Byte)} {t : List Byte}
    (hp : Runs t ((k, c) :: ps)) (hq : Runs t ((j, c) :: qs)) : j ≤ k := by
  by_contra hlt
  rw [Nat.not_le] at hlt
  have hj := (countsOk_cons.mp hq.1).1.2
  refine head?_expand_ne_of_runs hp (hlt.trans_le hj) ?_
  have h := hp.2.2.trans hq.2.2.symm
  obtain ⟨d, rfl⟩ := Nat.exists_eq_add_of_lt hlt
  rw [expand_cons, expand_cons, Nat.add_assoc, List.replicate_add, List.append_assoc] at h
  rw [List.append_cancel_left h]
  rfl

theorem runs_unique {ps qs : List (Nat × Byte)} {t : List Byte} (hp : Runs t ps) (hq : Runs t qs) : ps = qs := by
  induction ps generalizing qs t with
  | nil => exact ((expand_eq_nil_iff hq.1).mp (hq.2.2.trans hp.2.2.symm)).symm
  | cons p ps ih =>
    cases qs with
    | nil => exact (expand_eq_nil_iff hp.1).mp (hp.2.2.trans hq.2.2.symm)
    | cons q qs =>
      obtain ⟨k, c⟩ := p
      obtain ⟨j, x⟩ := q
      obtain ⟨hk, hps⟩ := countsOk_cons.mp hp.1
      obtain ⟨hj, hqs⟩ := countsOk_cons.mp hq.1
      have h := hp.2.2.trans hq.2.2.symm
      have hhead := congrArg List.head? h
      rw [head?_expand_cons hk.1, head?_expand_cons hj.1] at hhead
      obtain rfl := Option.some.inj hhead
      obtain rfl := Nat.le_antisymm (count_le_of_runs hq hp) (count_le_of_runs hp hq)
      rw [expand_cons, expand_cons] at h
      rw [ih ⟨hps, hp.2.1.tail, rfl⟩ ⟨hqs, hq.2.1.tail, (List.append_cancel_left h).symm⟩]

/-- The encoder's output is the serialised run list. -/
theorem pairBytes_of_runs {ps : List (Nat × Byte)} {t : List Byte} (h : Runs t ps) : pairBytes ps = rleEncode t := by
  obtain ⟨qs, hqs, hbytes⟩ := exists_runs_rleEncode t
  rw [runs_unique h hqs, hbytes]

theorem rleDecodes_rleEncode {t : List Byte} {lim : Nat} (h : t.length ≤ lim) :
    RleDecodes lim (rleEncode t) (.ok t) := by
  obtain ⟨ps, ⟨hcounts, -, rfl⟩, hbytes⟩ := exists_runs_rleEncode t
  exact .done ps hcounts hbytes.symm h

theorem rleDecode_rleEncode {t : List Byte} {lim : Nat} (h : t.length ≤ lim) : rleDecode lim (rleEncode t) = .ok t :=
  rleDecode_of_rleDecodes (rleDecodes_rleEncode h)

theorem length_rleEncode_le (t : List Byte) : (rleEncode t).length ≤ 2 * t.length := by
  obtain ⟨ps, ⟨hcounts, -, rfl⟩, hbytes⟩ := exists_runs_rleEncode t
  rw [← hbytes, length_pairBytes]
  exact Nat.mul_le_mul_left 2 (length_le_length_expand hcounts)

/-- Settles O51: the encoder emits the one run list, and the decoder expands it. -/
theorem rleRoundTrips : Obligations.RleRoundTrips := by
  refine fun t lim h => ⟨rleDecodes_rleEncode h, rleDecode_rleEncode h, ?_, fun ps => pairBytes_of_runs,
    length_rleEncode_le t⟩
  obtain ⟨ps, hps, -⟩ := exists_runs_rleEncode t
  exact ⟨ps, hps⟩

/-! ## Every input of the decoder has an outcome (R223) -/

theorem pairBytes_snoc (ps : List (Nat × Byte)) (k c : Byte) (t : List Byte) :
    pairBytes (ps ++ [(k.toNat, c)]) ++ t = pairBytes ps ++ k :: c :: t := by
  simp [pairBytes_append]

theorem expand_snoc (ps : List (Nat × Byte)) (k : Nat) (c : Byte) :
    expand (ps ++ [(k, c)]) = expand ps ++ List.replicate k c := by
  simp [expand]

theorem countsOk_snoc {ps : List (Nat × Byte)} (hps : CountsOk ps) {k : Byte} (hk : k ≠ 0) (c : Byte) :
    CountsOk (ps ++ [(k.toNat, c)]) := by
  have hne : k.toNat ≠ 0 := fun h => hk (BitVec.eq_of_toNat_eq h)
  have hlt := k.isLt
  exact List.forall_mem_append.mpr ⟨hps, List.forall_mem_singleton.mpr (by omega)⟩

/-- After pairs that pass the decoder's checks, what its loop finds in the rest is the outcome of R223. -/
theorem rleDecodes_of_rleExpand {lim len : Nat} {t : List Byte} {ps : List (Nat × Byte)} (hps : CountsOk ps)
    (hlen : (expand ps).length = len) (hlim : len ≤ lim) (heven : t.length % 2 = 0) :
    RleDecodes lim (pairBytes ps ++ t) ((rleExpand lim len t).map (expand ps ++ ·)) := by
  have htotal (t : List Byte) (h : t.length % 2 = 0) (qs : List (Nat × Byte)) : (pairBytes qs ++ t).length % 2 = 0 := by
    rw [List.length_append, length_pairBytes, Nat.mul_add_mod, h]
  fun_induction rleExpand lim len t generalizing ps with
  | case1 len c t => exact .zeroCount ps c t (htotal _ heven ps) hps rfl (hlen.trans_le hlim)
  | case2 len k c t hk hlong =>
    refine .tooLong ps k.toNat c t (htotal _ heven ps) (countsOk_snoc hps hk c) (pairBytes_snoc ps k c t).symm
      (hlen.trans_le hlim) ?_
    rw [hlen]
    exact hlong
  | case3 len k c t hk hshort e hrec ih | case4 len k c t hk hshort out hrec ih =>
    have hlen' : (expand (ps ++ [(k.toNat, c)])).length = len + k.toNat := by
      rw [expand_snoc, List.length_append, hlen, List.length_replicate]
    have heven' : t.length % 2 = 0 := (Nat.add_mod_right _ 2).symm.trans heven
    have h := ih (countsOk_snoc hps hk c) hlen' (Nat.le_of_not_lt hshort) heven'
    rw [hrec, pairBytes_snoc, expand_snoc] at h
    simpa only [Except.map, List.append_assoc] using h
  | case5 t len hno =>
    have hnil : t = [] := by
      match t, heven with
      | [], _ => rfl
      | k :: c :: t, _ => exact (hno k c t rfl).elim
    subst hnil
    simpa only [Except.map, List.append_nil] using RleDecodes.done ps hps (List.append_nil _) (hlen.trans_le hlim)

theorem rleDecodes_rleDecode (lim : Nat) (t : List Byte) : RleDecodes lim t (rleDecode lim t) := by
  rcases Nat.mod_two_eq_zero_or_one t.length with heven | hodd
  · have h := rleDecodes_of_rleExpand (ps := []) (List.forall_mem_nil _) rfl (Nat.zero_le lim) heven
    have hmap : (rleExpand lim 0 t).map (expand [] ++ ·) = rleExpand lim 0 t := by
      cases rleExpand lim 0 t <;> rfl
    rw [rleDecode, if_neg (by omega), ← hmap]
    exact h
  · rw [rleDecode_of_odd hodd]
    exact .odd hodd

/-- The outcome of R223 is the one the unit's decoder computes, for every input. -/
theorem rleDecodes_iff {lim : Nat} {t : List Byte} {o : Except CmdError (List Byte)} :
    RleDecodes lim t o ↔ rleDecode lim t = o :=
  ⟨rleDecode_of_rleDecodes, fun h => h ▸ rleDecodes_rleDecode lim t⟩

end Sys2Proof.Machine
end

section
/-! PROOFS. The built table of 44_huffman_tree.md: its codes are those of the leaves of one tree (R245), so none begins
another (R246), and the merges of R243 leave no choice (R247). -/

namespace Sys2Proof.Machine

open Sys2Proof.Spec

/-! ## The codes of a tree (R245) -/

theorem mem_treeLeaves_of_codeIn {t : HufTree} {b : Byte} {u : BitString} (h : CodeIn t b u) : b ∈ treeLeaves t := by
  induction h with
  | leaf b => exact List.mem_singleton_self b
  | left l r b u _ ih => exact List.mem_append_left _ ih
  | right l r b u _ ih => exact List.mem_append_right _ ih

/-- The code of a leaf begins no code but its own. -/
theorem eq_of_codeIn_prefix {t : HufTree} {b c : Byte} {u w : BitString} (hb : CodeIn t b u) (hc : CodeIn t c w)
    (h : u <+: w) : b = c := by
  induction hb generalizing w with
  | leaf b => cases hc; rfl
  | left l r b u _ ih =>
    cases hc with
    | left _ _ _ w hc => exact ih hc (List.cons_prefix_cons.mp h).2
    | right _ _ _ w hc => cases (List.cons_prefix_cons.mp h).1
  | right l r b u _ ih =>
    cases hc with
    | left _ _ _ w hc => cases (List.cons_prefix_cons.mp h).1
    | right _ _ _ w hc => exact ih hc (List.cons_prefix_cons.mp h).2

/-- In a tree with each byte at most once a byte has one code. -/
theorem codeIn_unique {t : HufTree} (ht : (treeLeaves t).Nodup) {b : Byte} {u w : BitString} (hu : CodeIn t b u)
    (hw : CodeIn t b w) : u = w := by
  induction hu generalizing w with
  | leaf b => cases hw; rfl
  | left l r b u hb ih =>
    obtain ⟨hl, -, hdisj⟩ := List.nodup_append'.mp ht
    cases hw with
    | left _ _ _ w hw => rw [ih hl hw]
    | right _ _ _ w hw => exact (hdisj (mem_treeLeaves_of_codeIn hb) (mem_treeLeaves_of_codeIn hw)).elim
  | right l r b u hb ih =>
    obtain ⟨-, hr, hdisj⟩ := List.nodup_append'.mp ht
    cases hw with
    | left _ _ _ w hw => exact (hdisj (mem_treeLeaves_of_codeIn hw) (mem_treeLeaves_of_codeIn hb)).elim
    | right _ _ _ w hw => rw [ih hr hw]

/-! ## The leaves of a frequency function (R242) -/

theorem leaf_mem_leaves_iff {f : Byte → Nat} {b : Byte} :
    (⟨f b, b.toNat, .leaf b⟩ : PoolNode) ∈ leaves f ↔ f b > 0 := by
  simp only [leaves, List.mem_map, mem_filter_ascending_iff, PoolNode.mk.injEq, HufTree.leaf.injEq]
  exact ⟨fun ⟨c, hc, _, _, hcb⟩ => hcb ▸ hc, fun h => ⟨b, h, rfl, rfl, rfl⟩⟩

theorem eq_of_leaves_singleton {f : Byte → Nat} {n : PoolNode} (h : leaves f = [n]) {b c : Byte} (hb : f b > 0)
    (hc : f c > 0) : b = c := by
  rw [← leaf_mem_leaves_iff, h, List.mem_singleton] at hb hc
  exact HufTree.leaf.inj (congrArg PoolNode.tree (hb.trans hc.symm))

theorem nodup_treeLeaves_of_merges_leaves {f : Byte → Nat} {k : Nat} {root : HufTree} (h : Merges k (leaves f) root) :
    (treeLeaves root).Nodup :=
  (treeLeaves_of_merges_leaves h).nodup_iff.mpr ((nodup_of_perm_ascending (.refl ascending)).filter _)

/-! ## No code of a built table begins another (R246) -/

theorem entry_ne_nil_iff_of_built {f : Byte → Nat} {ct : CodeTable} (h : Built f ct) (b : Byte) :
    entry ct b ≠ [] ↔ f b > 0 := by
  cases h with
  | empty hleaves hct =>
    rw [← leaf_mem_leaves_iff, hleaves]
    simp [hct]
  | single n _ hct =>
    rw [hct]
    split <;> simp [*]
  | tree root hlen hmerges hzero hpos =>
    refine ⟨fun hne => Nat.pos_of_ne_zero fun h0 => hne (hzero b h0), fun hb hnil => ?_⟩
    have hcode := hpos b hb
    rw [hnil] at hcode
    have hroot := (treeLeaves_of_merges_leaves hmerges).length_eq
    rw [leaves, List.length_map, ← hroot] at hlen
    cases hcode
    exact (by decide : ¬ 2 ≤ 1) hlen

/-- No code of a built table begins the code of another byte. -/
theorem eq_of_prefix_of_built {f : Byte → Nat} {ct : CodeTable} (h : Built f ct) {b c : Byte} (hb : f b > 0)
    (hc : f c > 0) (hpre : entry ct b <+: entry ct c) : b = c := by
  cases h with
  | empty hleaves _ =>
    rw [← leaf_mem_leaves_iff, hleaves] at hb
    cases hb
  | single n hleaves _ => exact eq_of_leaves_singleton hleaves hb hc
  | tree root _ _ _ hpos => exact eq_of_codeIn_prefix (hpos b hb) (hpos c hc) hpre

theorem tableOk_of_built {f : Byte → Nat} {ct : CodeTable} (h : Built f ct) : TableOk ct := by
  refine ⟨length_entry_le_of_built h, fun b c hne hb hpre => hne ?_⟩
  have hc : entry ct c ≠ [] := fun hnil => hb (List.prefix_nil.mp (hnil ▸ hpre))
  exact eq_of_prefix_of_built h ((entry_ne_nil_iff_of_built h b).mp hb) ((entry_ne_nil_iff_of_built h c).mp hc) hpre

theorem tableOk_buildCodes (f : Vector Nat 256) : TableOk (buildCodes f) := tableOk_of_built (built_buildCodes f)

theorem entry_buildCodes_ne_nil_iff (f : Vector Nat 256) (b : Byte) : entry (buildCodes f) b ≠ [] ↔ entry f b > 0 :=
  entry_ne_nil_iff_of_built (built_buildCodes f) b

/-- Settles O52: the codes of a built table are those of one tree, or the degenerate one, and the engine's table is
built. -/
theorem builtTableIsPrefixFree : Obligations.BuiltTableIsPrefixFree :=
  ⟨fun _ _ h => ⟨tableOk_of_built h, entry_ne_nil_iff_of_built h⟩,
    fun f => ⟨tableOk_buildCodes f, entry_buildCodes_ne_nil_iff f⟩⟩

/-! ## The merges leave no choice (R243, R247) -/

theorem nodeBefore_asymm {x y : PoolNode} (h : NodeBefore x y) : ¬ NodeBefore y x := by
  unfold NodeBefore at *
  omega

/-- The node that is before all others of a pool is one and the same however the pool is listed. -/
theorem eq_of_perm_of_nodeBefore {a b : PoolNode} {as bs : List PoolNode} (hperm : (a :: as).Perm (b :: bs))
    (ha : ∀ x ∈ as, NodeBefore a x) (hb : ∀ x ∈ bs, NodeBefore b x) : a = b ∧ as.Perm bs := by
  have hab : a = b := by
    by_contra hne
    have hb' : b ∈ as := List.mem_of_ne_of_mem (Ne.symm hne) (hperm.mem_iff.mpr List.mem_cons_self)
    have ha' : a ∈ bs := List.mem_of_ne_of_mem hne (hperm.mem_iff.mp List.mem_cons_self)
    exact nodeBefore_asymm (ha b hb') (hb a ha')
  subst hab
  exact ⟨rfl, hperm.cons_inv⟩

theorem merges_unique {k : Nat} {pool pool' : List PoolNode} {root root' : HufTree} (h : Merges k pool root)
    (h' : Merges k pool' root') (hperm : pool.Perm pool') : root = root' := by
  induction h generalizing pool' root' with
  | root k n =>
    obtain rfl := List.perm_singleton.mp hperm.symm
    cases h' with
    | root => rfl
    | merge _ _ a c rest _ hp => exact absurd hp.length_eq (by simp)
  | merge k pool a c rest root hp ha hc _ ih =>
    cases h' with
    | root _ n => exact absurd (hp.symm.trans hperm).length_eq (by simp)
    | merge _ _ a' c' rest' _ hp' ha' hc' hrest' =>
      obtain ⟨rfl, hperm'⟩ := eq_of_perm_of_nodeBefore ((hp.symm.trans hperm).trans hp') ha ha'
      obtain ⟨rfl, hperm''⟩ := eq_of_perm_of_nodeBefore hperm' hc hc'
      exact ih hrest' (hperm''.cons _)

theorem entry_of_built_single {f : Byte → Nat} {ct : CodeTable} {n : PoolNode} (h : Built f ct)
    (hleaves : leaves f = [n]) {b : Byte} (hb : f b > 0) : entry ct b = [false] := by
  cases h with
  | empty hnil _ => rw [hnil] at hleaves; cases hleaves
  | single _ _ hct => rw [hct, if_pos hb]
  | tree root hlen _ _ _ => rw [hleaves] at hlen; exact absurd hlen (by decide : ¬ 2 ≤ 1)

theorem codeIn_of_built {f : Byte → Nat} {ct : CodeTable} (h : Built f ct) (hlen : 2 ≤ (leaves f).length) :
    ∃ root, Merges 0 (leaves f) root ∧ ∀ b, f b > 0 → CodeIn root b (entry ct b) := by
  cases h with
  | empty hnil _ => rw [hnil] at hlen; exact absurd hlen (by decide : ¬ 2 ≤ 0)
  | single n hone _ => rw [hone] at hlen; exact absurd hlen (by decide : ¬ 2 ≤ 1)
  | tree root _ hmerges _ hpos => exact ⟨root, hmerges, hpos⟩

theorem built_unique {f : Byte → Nat} {ct ct' : CodeTable} (h : Built f ct) (h' : Built f ct') : ct = ct' := by
  refine table_ext fun b => ?_
  obtain hb | hb := Nat.eq_zero_or_pos (f b)
  · have hnil {ct : CodeTable} (h : Built f ct) : entry ct b = [] :=
      not_not.mp fun hne => Nat.ne_of_gt ((entry_ne_nil_iff_of_built h b).mp hne) hb
    rw [hnil h, hnil h']
  · have hmem := leaf_mem_leaves_iff.mpr hb
    obtain hone | htwo := Nat.eq_or_lt_of_le (List.length_pos_of_mem hmem)
    · obtain ⟨n, hn⟩ := List.length_eq_one_iff.mp hone.symm
      rw [entry_of_built_single h hn hb, entry_of_built_single h' hn hb]
    · obtain ⟨root, hmerges, hcode⟩ := codeIn_of_built h htwo
      obtain ⟨root', hmerges', hcode'⟩ := codeIn_of_built h' htwo
      obtain rfl := merges_unique hmerges hmerges' (.refl _)
      exact codeIn_unique (nodup_treeLeaves_of_merges_leaves hmerges) (hcode b hb) (hcode' b hb)

theorem built_iff {f : Vector Nat 256} {ct : CodeTable} : Built (fun b => entry f b) ct ↔ buildCodes f = ct :=
  ⟨built_unique (built_buildCodes f), fun h => h ▸ built_buildCodes f⟩

/-- Settles O53: the engine builds the one table of a frequency array, and every frequency function is an array. -/
theorem builtTableIsDetermined : Obligations.BuiltTableIsDetermined := by
  refine ⟨fun f => ⟨buildCodes (tabulate f), ?_, fun ct h => ?_⟩, fun f ct => built_iff⟩
  · have h := built_buildCodes (tabulate f)
    rwa [funext (entry_tabulate f)] at h
  · refine (built_iff.mp ?_).symm
    rwa [funext (entry_tabulate f)]

/-! ## The serialised table (R250, R253) -/

theorem length_serializeEntry_le {q : Byte × BitString} (h : q.2.length ≤ 255) : (serializeEntry q).length ≤ 34 := by
  rw [serializeEntry, List.length_cons, List.length_cons, length_pack, ceil8]
  omega

theorem length_serial (ct : CodeTable) : (serial ct).length = 2 + ((codeEntries ct).flatMap serializeEntry).length := by
  rw [← serialize_eq_serial, serialize, List.length_append, length_bytesOf]

/-- 256 entries of at most 34 bytes each. -/
theorem length_serial_le {ct : CodeTable} (h : ∀ b, (entry ct b).length ≤ 255) : (serial ct).length ≤ 8706 := by
  have hentries : ((codeEntries ct).flatMap serializeEntry).length ≤ (codeEntries ct).length * 34 := by
    rw [List.length_flatMap]
    refine (List.sum_le_card_nsmul _ 34 fun n hn => ?_).trans_eq (by rw [List.length_map, smul_eq_mul])
    obtain ⟨q, hq, rfl⟩ := List.mem_map.mp hn
    exact length_serializeEntry_le ((entriesFrom_codeEntries h).2 q hq).2.2
  have hcount := length_coded_le ct
  rw [length_codeEntries] at hentries
  rw [length_serial]
  omega

/-- The parser's outcome tells the table and the rest, so no bytes begin with the serialisations of two tables. -/
theorem serial_append_inj {ct ct' : CodeTable} {rest rest' : List Byte} (hct : TableOk ct) (hct' : TableOk ct')
    (h : serial ct ++ rest = serial ct' ++ rest') : ct = ct' ∧ rest = rest' := by
  have hexact {r : List Byte} : false = true → r = [] := fun h => absurd h Bool.false_ne_true
  have hp := parseTable_serial_append hct (rest := rest) hexact
  rw [h, parseTable_serial_append hct' hexact] at hp
  cases hp
  exact ⟨rfl, rfl⟩

/-- Settles O54: the parser reads a serialised table back, and the size counts its entries. -/
theorem serialisedTableParsesBack : Obligations.SerialisedTableParsesBack := by
  refine fun ct hct => ⟨serialize_eq_serial ct, fun exact rest hrest => ?_, fun rest ct' rest' hct' => ?_, ?_,
    length_serial_le hct.1⟩
  · rw [serialize_eq_serial]
    exact parseTable_serial_append hct hrest
  · exact serial_append_inj hct hct'
  · rw [length_serial]
    exact Nat.le_add_right 2 _

end Sys2Proof.Machine
end

section
/-! PROOFS. Packed bit strings and the Huffman decoder (45_huffman_bits.md): packing and unpacking (R281, R282), the
round trip of a code (R288), and that every input of the decoders and of the parser has exactly one outcome. -/

namespace Sys2Proof.Machine

open Sys2Proof.Spec

/-! ## Packing (R281, R282) -/

theorem length_packed (w : BitString) : (packed w).length = (w.length + 7) / 8 := by
  rw [← pack_eq_packed, length_pack, ceil8]

theorem take_bitsOf_packed (w : BitString) : (bitsOf (packed w)).take w.length = w := by
  rw [← pack_eq_packed, ← unpack_eq_bitsOf, take_unpack_pack]

theorem bitAt_of_le {p : List Byte} {i : Nat} (h : 8 * p.length ≤ i) : bitAt p i = false := by
  rw [bitAt, List.getD_eq_default _ _ (by omega)]
  exact BitVec.getLsbD_zero

/-- Every bit after the packed ones is 0: in the last byte by padding, and past the end. -/
theorem bitAt_packed_of_le {w : BitString} {i : Nat} (h : w.length ≤ i) : bitAt (packed w) i = false := by
  obtain hi | hi := Nat.lt_or_ge i (8 * (packed w).length)
  · by_contra hb
    rw [Bool.not_eq_false] at hb
    have hany := (any_drop_unpack_iff (packed w) w.length).mpr ⟨i, h, hi, hb⟩
    rw [← pack_eq_packed, List.any_eq_true] at hany
    obtain ⟨x, hx, htrue⟩ := hany
    exact Bool.false_ne_true ((drop_unpack_pack w x hx).symm.trans htrue)
  · exact bitAt_of_le hi

/-- Settles O55: the engine's two functions are the rules' equations, and the bits that packing adds are 0. -/
theorem unpackInvertsPack : Obligations.UnpackInvertsPack :=
  ⟨pack_eq_packed, unpack_eq_bitsOf, take_unpack_pack, drop_unpack_pack,
    fun w => ⟨length_packed w, take_bitsOf_packed w, fun _ => bitAt_packed_of_le⟩⟩

/-! ## The round trip of a code (R288) -/

theorem hufDecodes_packed_codeOf {ct : CodeTable} {x : List Byte} {lim : Nat} (hx : Coded ct x)
    (hlen : x.length ≤ lim) :
    HufDecodes ct lim (codeOf ct x).length (packed (codeOf ct x)) (.ok x) :=
  .done x (length_packed _) (fun _ hi _ => bitAt_packed_of_le hi) hx hlen (take_bitsOf_packed _)

/-- Settles O56: the packed codes are framed as the decoder wants them, and its loop reads them back. -/
theorem huffmanCodeRoundTrips : Obligations.HuffmanCodeRoundTrips := by
  intro ct x lim hct hx hlen
  have h := hufDecodes_packed_codeOf hx hlen
  refine ⟨h, ?_⟩
  rw [hufEncode_eq_codeOf, pack_eq_packed]
  exact hufDecode_of_hufDecodes hct h

/-! ## The outcome of the Huffman decoder (R286, R287) -/

/-- Any bits are codes followed by bits that no code begins. -/
theorem exists_codeOf_append (ct : CodeTable) (w : BitString) :
    ∃ x rest, Coded ct x ∧ w = codeOf ct x ++ rest ∧ ∀ b, entry ct b ≠ [] → ¬ entry ct b <+: rest := by
  induction hn : w.length using Nat.strong_induction_on generalizing w with
  | _ n ih =>
    by_cases hb : ∃ b, entry ct b ≠ [] ∧ entry ct b <+: w
    · obtain ⟨b, hne, w, rfl⟩ := hb
      have hlt : w.length < n := by
        have := List.length_pos_iff.mpr hne
        rw [← hn, List.length_append]
        omega
      obtain ⟨x, rest, hx, rfl, hno⟩ := ih w.length hlt w rfl
      exact ⟨b :: x, rest, List.forall_mem_cons.mpr ⟨hne, hx⟩, by rw [codeOf_cons, List.append_assoc], hno⟩
    · exact ⟨[], w, List.forall_mem_nil _, rfl, fun b hne hpre => hb ⟨b, hne, hpre⟩⟩

theorem codeOf_append (ct : CodeTable) (x y : List Byte) : codeOf ct (x ++ y) = codeOf ct x ++ codeOf ct y :=
  List.flatMap_append

/-- A framed payload has an outcome: the codes it begins with fit in the limit, and then end it or are followed by
something else, or one of them is too many. -/
theorem exists_hufDecodes_of_framed (ct : CodeTable) (lim : Nat) {n : Nat} {p : List Byte}
    (hlen : p.length = (n + 7) / 8) (hpad : ∀ i, n ≤ i → i < 8 * p.length → bitAt p i = false) :
    ∃ o, HufDecodes ct lim n p o := by
  obtain ⟨x, rest, hx, hbits, hno⟩ := exists_codeOf_append ct ((bitsOf p).take n)
  obtain hle | hlt := le_or_gt x.length lim
  · by_cases hrest : rest = []
    · rw [hrest, List.append_nil] at hbits
      exact ⟨_, .done x hlen hpad hx hle hbits⟩
    · exact ⟨_, .broken x rest hlen hpad hx hle hbits hrest hno⟩
  · have hsplit : x = x.take lim ++ [x[lim]] ++ x.drop (lim + 1) := by
      rw [List.append_assoc, List.singleton_append, ← List.drop_eq_getElem_cons hlt, List.take_append_drop]
    have hx' : Coded ct (x.take lim ++ [x[lim]]) := fun b hb => hx b (by rw [hsplit]; exact List.mem_append_left _ hb)
    rw [hsplit, codeOf_append, List.append_assoc] at hbits
    exact ⟨_, .tooLong _ _ _ hlen hpad hx' (List.length_take_of_le hlt.le) hbits⟩

theorem exists_hufDecodes (ct : CodeTable) (lim n : Nat) (p : List Byte) : ∃ o, HufDecodes ct lim n p o := by
  by_cases hlen : p.length = (n + 7) / 8
  · by_cases hpad : ∃ i, n ≤ i ∧ i < 8 * p.length ∧ bitAt p i = true
    · obtain ⟨i, hn, hi, hb⟩ := hpad
      exact ⟨_, .badPadding i hlen hn hi hb⟩
    · exact exists_hufDecodes_of_framed ct lim hlen fun i hn hi => Bool.eq_false_iff.mpr fun hb => hpad ⟨i, hn, hi, hb⟩
  · exact ⟨_, .badLength hlen⟩

theorem hufDecodes_iff {ct : CodeTable} (h : TableOk ct) {lim n : Nat} {p : List Byte}
    {o : Except CmdError (List Byte)} : HufDecodes ct lim n p o ↔ hufDecode ct lim n p = o := by
  refine ⟨hufDecode_of_hufDecodes h, ?_⟩
  rintro rfl
  obtain ⟨o, ho⟩ := exists_hufDecodes ct lim n p
  rwa [hufDecode_of_hufDecodes h ho]

/-! ## The outcome of the parser (R252) -/

theorem parses_iff {exact : Bool} {t : List Byte} {o : Except CmdError (CodeTable × List Byte)} :
    Parses exact t o ↔ (parseTable exact t).map (fun p => (p.ct, p.rest)) = o := by
  refine ⟨parseTable_of_parses, ?_⟩
  rintro rfl
  obtain hshort | hlen := Nat.lt_or_ge t.length 2
  · rw [parseTable, if_pos hshort]
    exact .short hshort
  · cases hp : parseTable exact t with
    | ok p =>
      obtain ⟨hct, ht, hrest, -⟩ := eq_serial_of_parseTable hp
      exact .table p.ct p.rest hct ht hrest
    | error e =>
      rw [parseTable_error_of_le hlen hp]
      refine .bad hlen fun ct rest hct ht hrest => ?_
      rw [ht, parseTable_serial_append hct hrest] at hp
      cases hp

/-! ## The outcome of the inverse transform (R181) -/

/-- The walk of R177 can be taken from every position, along the iterates of LF. -/
theorem exists_walk (l : List Byte) (i : Nat) : ∃ out, Walk l i out := by
  refine ⟨(List.range l.length).map fun m => l.getD ((lf l)^[l.length - 1 - m] i) 0, by simp, fun k => (lf l)^[k] i,
    rfl, fun k _ => Function.iterate_succ_apply' _ _ _, fun k hk => ?_⟩
  rw [List.getD_eq_getElem _ _ (by simp; omega), List.getElem_map, List.getElem_range]
  congr 2
  omega

/-- The decoder of R181 with an index of any size: the model's decoder takes it from a register. -/
def bwtOutcome (i : Nat) (v : Bool) (l : List Byte) : Except CmdError (List Byte) :=
  if l = [] then (if v then .error ⟨.invalidIndex, .bwt⟩ else .ok [])
  else if v = false then .error ⟨.missingMetadata, .bwt⟩
  else if l.length ≤ i then .error ⟨.invalidIndex, .bwt⟩
  else .ok (bwtInverse l i)

theorem bwtDecode_eq_bwtOutcome (i : Word) (v : Bool) (l : List Byte) : bwtDecode i v l = bwtOutcome i.toNat v l := by
  simp only [bwtDecode, bwtOutcome, List.length_eq_zero_iff, Bool.not_eq_true', ge_iff_le, raise]

theorem bwtDecodes_iff_bwtOutcome {i : Nat} {v : Bool} {l : List Byte} {o : Except CmdError (List Byte)} :
    BwtDecodes i v l o ↔ bwtOutcome i v l = o := by
  constructor
  · intro h
    cases h with
    | unused hl hv => rw [bwtOutcome, if_pos hl, if_pos hv]
    | missing hl hv => rw [bwtOutcome, if_neg hl, if_pos hv]
    | range hl hv hi => simp [bwtOutcome, hl, hv, hi]
    | empty hl hv => simp [bwtOutcome, hl, hv]
    | walk out hl hv hi hw => simp [bwtOutcome, hl, hv, Nat.not_le.mpr hi, bwtInverse_of_walk hi hw]
  · rintro rfl
    unfold bwtOutcome
    split_ifs with hl hv hv hi
    · exact .unused hl hv
    · exact .empty hl (Bool.eq_false_iff.mpr hv)
    · exact .missing hl hv
    · exact .range hl (Bool.not_eq_false _ ▸ hv) hi
    · obtain ⟨out, hw⟩ := exists_walk l i
      rw [bwtInverse_of_walk (Nat.not_le.mp hi) hw]
      exact .walk out hl (Bool.not_eq_false _ ▸ hv) (Nat.not_le.mp hi) hw

theorem bwtDecodes_iff {i : Word} {v : Bool} {l : List Byte} {o : Except CmdError (List Byte)} :
    BwtDecodes i.toNat v l o ↔ bwtDecode i v l = o := by
  rw [bwtDecodes_iff_bwtOutcome, bwtDecode_eq_bwtOutcome]

/-! ## Every outcome is unique -/

/-- A relation that is the graph of a function has one outcome. -/
theorem existsUnique_of_iff {α : Type} {P : α → Prop} {a : α} (h : ∀ o, P o ↔ a = o) : ∃! o, P o :=
  ⟨a, (h a).mpr rfl, fun o ho => ((h o).mp ho).symm⟩

/-- Settles O57: each relation is the graph of what the unit computes. -/
theorem decoderOutcomesAreUnique : Obligations.DecoderOutcomesAreUnique :=
  ⟨fun _ _ _ => existsUnique_of_iff fun _ => bwtDecodes_iff_bwtOutcome, fun _ _ _ _ => bwtDecodes_iff,
    fun _ _ => existsUnique_of_iff fun _ => rleDecodes_iff, fun _ _ _ => rleDecodes_iff,
    fun _ _ _ _ h => existsUnique_of_iff fun _ => hufDecodes_iff h, fun _ _ _ _ _ h => hufDecodes_iff h,
    fun _ _ => existsUnique_of_iff fun _ => parses_iff, fun _ _ _ => parses_iff⟩

end Sys2Proof.Machine
end

section
/-! PROOFS. The round trip of the whole block (46_orchestrator.md R317): each stage of DECOMPRESS gives back what the
mirrored stage of COMPRESS was given. -/

namespace Sys2Proof.Machine

open Sys2Proof.Spec

/-- The run list of a block: what COMPRESS builds its table from. -/
def runListOf (x : List Byte) : List Byte := rleEncode (mtfEncode (bwtLast x))

/-- The code table of a block. -/
def blockTable (x : List Byte) : CodeTable := buildCodes (freqOf (runListOf x))

/-- The payload bits of a block. -/
def blockBits (x : List Byte) : BitString := codeOf (blockTable x) (runListOf x)

/-- What a successful body of COMPRESS gives: the blob of the block, whose run list and payload are within SEQ_MAX. -/
theorem bodyOf_compress_ok {s : State} {x : List Byte} {r : Result} (h : bodyOf .compress (operandsOf s) x = .ok r) :
    (runListOf x).length ≤ s.cfg.seqMax ∧ (packed (blockBits x)).length ≤ s.cfg.seqMax ∧
      r = compressResult x (runListOf x) (packed (blockBits x)) := by
  rw [bodyOf_compress, ← runListOf] at h
  obtain hlt | hrun := lt_or_ge s.cfg.seqMax (runListOf x).length
  · rw [lim_of_lt _ hlt] at h
    cases h
  · rw [lim_of_le _ hrun, ok_bind, ← blockTable, ← blockBits] at h
    obtain hlt | hpay := lt_or_ge s.cfg.seqMax (packed (blockBits x)).length
    · rw [lim_of_lt _ hlt] at h
      cases h
    · rw [lim_of_le _ hpay] at h
      cases h
      exact ⟨hrun, hpay, rfl⟩

/-- Every byte of the run list occurs in it, so the table has a code for it. -/
theorem coded_blockTable (x : List Byte) : Coded (blockTable x) (runListOf x) := fun b hb => by
  rw [blockTable, entry_buildCodes_ne_nil_iff, entry_freqOf]
  exact List.count_pos_iff.mpr hb

theorem length_mtfEncode_bwtLast (x : List Byte) : (mtfEncode (bwtLast x)).length = x.length :=
  (length_mtfEncodeFrom _ _).trans (length_bwtLast x)

/-- The body of DECOMPRESS on the blob of a block, with the registers that COMPRESS reported, gives the block. -/
theorem bodyOf_decompress_blob {u : State} {x : List Byte} (hx : x.length ≤ u.cfg.seqMax)
    (hrun : (runListOf x).length ≤ u.cfg.seqMax) (hidx : u.rotIdx.toNat = (bwtRot x).1)
    (hvalid : u.rotValid = (bwtRot x).2) (hbits : u.payloadBits.toNat = (blockBits x).length) :
    bodyOf .decompress (operandsOf u) (serial (blockTable x) ++ packed (blockBits x)) =
      .ok (decompressResult (blockTable x) x) := by
  have hct : TableOk (blockTable x) := tableOk_buildCodes _
  have hparse := parseTable_serial_append hct (rest := packed (blockBits x)) (fun h => absurd h Bool.false_ne_true)
  have hhuf := hufDecode_of_hufDecodes hct (hufDecodes_packed_codeOf (coded_blockTable x) hrun)
  have hrle := rleDecode_rleEncode (t := mtfEncode (bwtLast x)) ((length_mtfEncode_bwtLast x).trans_le hx)
  rw [← runListOf] at hrle
  rw [bodyOf_decompress, hparse, Except.map, ok_bind, hbits, blockBits, hhuf, ok_bind, hrle, ok_bind,
    mtfDecode_mtfEncode, hvalid, bwtDecode_bwtLast hidx]
  rfl

/-- Settles O58: the second run reads the blob that the first one wrote and the registers that it reported. -/
theorem decompressInvertsCompress : Obligations.DecompressInvertsCompress := by
  rintro s t u ⟨hcfg, hm⟩ hs ht hk ⟨-, hmu⟩ hcu - hsrc hidx hvalid hbits hsf hdf hsl hcap
  obtain ⟨r, hf, rfl⟩ := exec_succeeded ht hk
  obtain ⟨-, hout, hbody⟩ := frame_ok hf
  rw [sourceOf_eq_src (i := .compress) s nofun] at hbody
  obtain ⟨hrun, hpay, rfl⟩ := bodyOf_compress_ok hbody
  obtain ⟨hri, hrv, hrb, -⟩ := registers_compressResult (packed (blockBits (src s))) hcfg hrun hpay
  have hwrote := wrote_commit (i := .compress) rfl hm (hout rfl).2
  rw [hwrote.dstLen, hwrote.bytes] at hsrc
  have hlen : (src s).length ≤ u.cfg.seqMax := by
    rw [hcu, length_src]
    exact hs.2.2
  have hdec := bodyOf_decompress_blob hlen (hcu ▸ hrun) (hidx ▸ hri) (hvalid.trans hrv) (hbits ▸ hrb)
  have hblob : src u = serial (blockTable (src s)) ++ packed (blockBits (src s)) := hsrc
  rw [← hblob] at hdec
  have hdelivers := delivers_of_body_ok (i := .decompress) (more := fun _ => True) rfl hmu ⟨hsf, hdf, hsl⟩ hdec trivial
  obtain ⟨v, hv, hsucc, hw, -⟩ := hdelivers.2 ((length_src s).trans_le hcap)
  exact ⟨v, hv, emptyFlag_of_length_eq (length_src s) ▸ hsucc, hw⟩

end Sys2Proof.Machine
end

section
/-! PROOFS. The frame every command runs in (40_command_common.md): what it reads (R143) and what a completion writes
(R86, R152 to R158), by the shape of each body's result. -/

namespace Sys2Proof.Machine

open Sys2Proof.Spec

/-! ## The checks before the body, and the errors -/

/-- Settles O23: the length check comes after the region checks, and a source in bounds is no longer than the memory. -/
theorem sourceLengthIsChecked : Obligations.SourceLengthIsChecked := by
  refine fun i s hi hs hd => ⟨fun hl => ?_, fun hmem => ?_⟩
  · exact exec_aborts_of_frame_error (frame_of_not_srcShort _ hi hs hd hl)
  · exact ((Nat.le_add_left _ _).trans hs).trans hmem

/-- What the frame reads of a state a failed command leaves alone (R152). -/
theorem frame_raiseError (i : Instr) (body : Body) (e : CmdError) (s : State) :
    frame i body (raiseError e s) = frame i body s := rfl

/-- Settles O25: the frame reads nothing that the abort wrote, and a second abort writes the same again. -/
theorem retryGivesTheSameError : Obligations.RetryGivesTheSameError := by
  intro i s t h hk
  obtain ⟨e, hf, rfl⟩ := exec_failed h hk
  exact exec_of_frame_error ((frame_raiseError i _ e s).trans hf)

/-- Settles O26: a command ends with a commit or with an abort. -/
theorem everyCommandCompletes : Obligations.EveryCommandCompletes := by
  intro i s
  obtain ⟨r, -, h⟩ | ⟨e, -, h⟩ := exec_cases i s
  · exact ⟨_, h, rfl, rfl⟩
  · exact ⟨_, h, rfl, rfl⟩

/-- The stage of an error is one that the command goes through (R318). -/
theorem stage_mem_stagesOf {i : Instr} : ∀ p ∈ errorsOf i, p.2 ∈ stagesOf i := by
  cases i <;> decide

/-- Settles O30: the error is one of the frame's, which are all in the command's list. -/
theorem errorsAreTheCommandsOwn : Obligations.ErrorsAreTheCommandsOwn := by
  intro i s t h hk
  obtain ⟨e, hf, rfl⟩ := exec_failed h hk
  have hmem := frame_error_mem hf
  exact ⟨hmem, stage_mem_stagesOf _ hmem, rfl⟩

/-! ## The result of a body -/

/-- What the result of a command's body has and has not (R156): the registers it reports in, a table of R59 where it
installs one, and no output where it writes no destination. -/
structure ResultShape (i : Instr) (r : Result) : Prop where
  rot : i ≠ .bwtEnc → i ≠ .compress → r.rot = none
  bits : i ≠ .hufEnc → i ≠ .compress → r.bits = none
  noHuf : i ≠ .hufBuild → i ≠ .hufLoad → i ≠ .compress → i ≠ .decompress → r.huf = none
  huf : i = .hufBuild ∨ i = .hufLoad ∨ i = .compress ∨ i = .decompress → ∃ h, r.huf = some h
  table : ∀ h, r.huf = some h → TableOk h.1
  out : writesDst i = true ∨ r.out = []

theorem exists_of_map_eq_ok {α β : Type} {f : α → β} {x : Except CmdError α} {b : β} (h : x.map f = .ok b) :
    ∃ a, x = .ok a ∧ f a = b := by
  cases x with
  | error e => cases h
  | ok a => exact ⟨a, rfl, Except.ok.inj h⟩

theorem exists_of_bind_eq_ok {α β : Type} {f : α → Except CmdError β} {x : Except CmdError α} {b : β}
    (h : x >>= f = .ok b) : ∃ a, x = .ok a ∧ f a = .ok b := by
  cases x with
  | error e => cases h
  | ok a => exact ⟨a, rfl, h⟩

theorem resultShape_plain {i : Instr} (hi : ¬ (i = .hufBuild ∨ i = .hufLoad ∨ i = .compress ∨ i = .decompress))
    {out : List Byte} (hout : writesDst i = true ∨ out = []) (empty : Bool) :
    ResultShape i (Result.plain out empty) :=
  ⟨fun _ _ => rfl, fun _ _ => rfl, fun _ _ _ _ => rfl, fun h => absurd h hi, nofun, hout⟩

/-- A command that installs a table and reports in no other register. -/
theorem resultShape_table {i : Instr} {ct : CodeTable} (hct : TableOk ct) (f : Vector Nat 256)
    (hi : i = .hufBuild ∨ i = .hufLoad ∨ i = .compress ∨ i = .decompress) {out : List Byte}
    (hout : writesDst i = true ∨ out = []) (empty : Bool) :
    ResultShape i { Result.plain out empty with huf := some (ct, f) } :=
  ⟨fun _ _ => rfl, fun _ _ => rfl, fun h1 h2 h3 h4 => by simp [h1, h2, h3, h4] at hi, fun _ => ⟨_, rfl⟩,
    fun _ h => Option.some.inj h ▸ hct, hout⟩

theorem bodyOf_shape {i : Instr} {s : State} {x : List Byte} {r : Result} (h : bodyOf i (operandsOf s) x = .ok r) :
    ResultShape i r := by
  cases i with
  | nop =>
    cases h
    exact resultShape_plain (by decide) (.inr rfl) _
  | bwtEnc =>
    cases h
    exact ⟨fun h => absurd rfl h, fun _ _ => rfl, fun _ _ _ _ => rfl, nofun, nofun, .inl rfl⟩
  | bwtDec =>
    rw [bodyOf_bwtDec] at h
    obtain ⟨out, -, rfl⟩ := exists_of_map_eq_ok h
    exact resultShape_plain (by decide) (.inl rfl) _
  | mtfEnc | mtfDec =>
    cases h
    exact resultShape_plain (by decide) (.inl rfl) _
  | rleEnc =>
    rw [bodyOf_rleEnc] at h
    obtain ⟨out, -, rfl⟩ := exists_of_map_eq_ok h
    exact resultShape_plain (by decide) (.inl rfl) _
  | rleDec =>
    rw [bodyOf_rleDec] at h
    obtain ⟨out, -, rfl⟩ := exists_of_map_eq_ok h
    exact resultShape_plain (by decide) (.inl rfl) _
  | hufBuild =>
    cases h
    exact resultShape_table (tableOk_buildCodes _) _ (by decide) (.inl rfl) _
  | hufLoad =>
    rw [bodyOf_hufLoad] at h
    obtain ⟨p, hp, rfl⟩ := exists_of_map_eq_ok h
    exact resultShape_table (eq_serial_of_parseTable hp).1 _ (by decide) (.inr rfl) _
  | hufEnc =>
    simp only [bodyOf, hufEncBody, raise] at h
    split_ifs at h
    split at h <;> cases h
    exact ⟨fun _ _ => rfl, fun h => absurd rfl h, fun _ _ _ _ => rfl, nofun, nofun, .inl rfl⟩
  | hufDec =>
    simp only [bodyOf, hufDecBody, raise] at h
    split_ifs at h
    split at h <;> cases h
    exact resultShape_plain (by decide) (.inl rfl) _
  | compress =>
    rw [bodyOf_compress] at h
    obtain ⟨run, -, h⟩ := exists_of_bind_eq_ok h
    obtain ⟨pay, -, rfl⟩ := exists_of_map_eq_ok h
    exact ⟨fun _ h => absurd rfl h, fun _ h => absurd rfl h, fun _ _ h => absurd rfl h, fun _ => ⟨_, rfl⟩,
      fun _ h => Option.some.inj h ▸ tableOk_buildCodes _, .inl rfl⟩
  | decompress =>
    rw [bodyOf_decompress] at h
    obtain ⟨q, hq, h⟩ := exists_of_bind_eq_ok h
    obtain ⟨run, -, h⟩ := exists_of_bind_eq_ok h
    obtain ⟨m, -, h⟩ := exists_of_bind_eq_ok h
    obtain ⟨t, -, rfl⟩ := exists_of_map_eq_ok h
    obtain ⟨p, hp, rfl⟩ := exists_of_map_eq_ok hq
    exact resultShape_table (eq_serial_of_parseTable hp).1 _ (by decide) (.inl rfl) _

/-- What a success of the frame says of its result: its shape, and that an output of a command that writes the
destination is within DST_CAP and DST_CAP within the memory (R148, R151). -/
theorem frame_ok_result {i : Instr} {s : State} {r : Result} (h : frame i (bodyOf i) s = .ok r) :
    ResultShape i r ∧ (writesDst i = true → DstFits s ∧ r.out.length ≤ s.dstCap.toNat) := by
  obtain ⟨-, hdst, hb⟩ := frame_ok h
  refine ⟨bodyOf_shape hb, fun hw => ?_⟩
  rw [← dstInBounds_iff]
  exact hdst hw

/-- An output is within DST_CAP, so DST_LEN holds its length whole; a command without a destination has none. -/
theorem toNat_dstLen_commit {i : Instr} {s : State} {r : Result} (h : frame i (bodyOf i) s = .ok r) :
    (commit i r s).dstLen.toNat = r.out.length := by
  obtain ⟨hshape, hdst⟩ := frame_ok_result h
  have hle : r.out.length ≤ s.dstCap.toNat := by
    obtain hw | hnil := hshape.out
    · exact (hdst hw).2
    · rw [hnil]
      exact Nat.zero_le _
  exact Nat.mod_eq_of_lt (hle.trans_lt s.dstCap.isLt)

/-! ## The frame of a completion (R86, R156, R158) -/

/-- Settles O27: an abort writes no memory, and a commit writes the output at DST_ADDR, when the command has one. -/
theorem commandWritesOnlyItsOutput : Obligations.CommandWritesOnlyItsOutput := by
  intro i s t h
  obtain ⟨r, hf, hr⟩ | ⟨e, hf, he⟩ := exec_cases i s
  · cases hr.symm.trans h
    have hlen := toNat_dstLen_commit hf
    refine ⟨fun hk => absurd rfl hk, fun hi => ?_, fun _ => ?_, fun _ a ha => ?_⟩
    · have hw : ¬ writesDst i = true := by
        rw [writesDst_iff, not_and_or, not_not, not_not]
        exact hi
      rw [commit_dm, if_neg hw]
    · rw [hlen]
      by_cases hi : i = .nop ∨ i = .hufLoad
      · exact .inr hi
      · exact .inl ((frame_ok_result hf).2 ((writesDst_iff i).mpr (not_or.mp hi))).2
    · rw [hlen] at ha
      exact read_commit_outside i r s a ha
  · cases he.symm.trans h
    have hk := kind_ne_none_of_mem_errorsOf (frame_error_mem hf)
    exact ⟨fun _ => rfl, fun _ => rfl, fun h => absurd h hk, fun h => absurd h hk⟩

/-- Settles O28: an abort writes no register, and a commit writes those of the result's shape. -/
theorem commandWritesOnlyItsResultRegisters : Obligations.CommandWritesOnlyItsResultRegisters := by
  intro i s t h
  obtain ⟨r, hf, hr⟩ | ⟨e, -, he⟩ := exec_cases i s
  · cases hr.symm.trans h
    obtain ⟨hshape, -⟩ := frame_ok_result hf
    refine ⟨⟨rfl, rfl, rfl, rfl, rfl, rfl, rfl, rfl, rfl, rfl, rfl, rfl⟩, fun h1 h2 => ?_, fun h1 h2 => ?_,
      fun h1 h2 h3 h4 => ?_⟩
    · rw [commit_rotIdx, commit_rotValid, hshape.rot h1 h2]
      exact ⟨rfl, rfl⟩
    · rw [commit_payloadBits, hshape.bits h1 h2]
    · rw [commit_ct, commit_ctValid, commit_freq, hshape.noHuf h1 h2 h3 h4]
      exact ⟨rfl, rfl, rfl⟩
  · cases he.symm.trans h
    exact ⟨⟨rfl, rfl, rfl, rfl, rfl, rfl, rfl, rfl, rfl, rfl, rfl, rfl⟩, fun _ _ => ⟨rfl, rfl⟩, fun _ _ => rfl,
      fun _ _ _ _ => ⟨rfl, rfl, rfl⟩⟩

/-! ## The inputs of a command (R143) -/

/-- The frame reads the parameters, the region registers, the body's operands and the source bytes. -/
theorem frame_congr (i : Instr) (body : Body) {s s' : State} (hcfg : s.cfg = s'.cfg) (hsa : s.srcAddr = s'.srcAddr)
    (hsl : s.srcLen = s'.srcLen) (hda : s.dstAddr = s'.dstAddr) (hdc : s.dstCap = s'.dstCap)
    (hops : operandsOf s = operandsOf s') (hsrc : src s = src s') : frame i body s = frame i body s' := by
  have hsource : sourceOf i s = sourceOf i s' := by
    by_cases hi : i = .nop
    · rw [hi]
      rfl
    · rw [sourceOf_eq_src s hi, sourceOf_eq_src s' hi, hsrc]
  have hsrcIn : srcInBounds s = srcInBounds s' := by rw [srcInBounds, srcInBounds, hcfg, hsa, hsl]
  have hdstIn : dstInBounds s = dstInBounds s' := by rw [dstInBounds, dstInBounds, hcfg, hda, hdc]
  have hcap : capacityCheck i s = capacityCheck i s' := funext fun r => by rw [capacityCheck, capacityCheck, hdc]
  rw [frame, frame, hsrcIn, hdstIn, hcap, hcfg, hsl, hops, hsource]

/-- Settles O29: the two states give the frame the same result or the same error, and a commit of a result writes the
same registers in both, and the same output. -/
theorem outcomeDependsOnlyOnTheInputs : Obligations.OutcomeDependsOnlyOnTheInputs := by
  intro i s s' hm hm' hcfg hsa hsl hda hdc hri hrv hpb hct hcv hsrc
  have hops : operandsOf s = operandsOf s' := by simp only [operandsOf, hri, hrv, hpb, hct, hcv, hcfg]
  have hframe := frame_congr i (bodyOf i) hcfg hsa hsl hda hdc hops hsrc
  cases hf : frame i (bodyOf i) s with
  | error e =>
    rw [hf] at hframe
    have hk := kind_ne_none_of_mem_errorsOf (frame_error_mem hf)
    exact ⟨_, _, exec_of_frame_error hf, exec_of_frame_error hframe.symm, rfl, rfl, rfl, hri, hrv, hpb, hct, hcv,
      fun h => absurd h hk, fun h => absurd h hk⟩
  | ok r =>
    rw [hf] at hframe
    obtain ⟨hshape, -⟩ := frame_ok_result hf
    refine ⟨_, _, exec_of_frame_ok hf, exec_of_frame_ok hframe.symm, rfl, rfl, rfl, ?_, ?_, ?_, ?_, ?_,
      fun _ hi => ?_, fun _ => ⟨rfl, fun hi hl => ?_⟩⟩
    · rw [commit_rotIdx, commit_rotIdx, hri]
    · rw [commit_rotValid, commit_rotValid, hrv]
    · rw [commit_payloadBits, commit_payloadBits, hpb]
    · rw [commit_ct, commit_ct, hct]
    · rw [commit_ctValid, commit_ctValid, hcv]
    · obtain ⟨p, hp⟩ := hshape.huf hi
      rw [commit_freq, commit_freq, hp]
    · have hw := (writesDst_iff i).mpr ⟨hi, hl⟩
      rw [toNat_dstLen_commit hf, bytesAt_eq_readBytes, bytesAt_eq_readBytes, readBytes_commit r hw hm, hda,
        readBytes_commit r hw hm']

end Sys2Proof.Machine
end

section
/-! PROOFS. One step of the machine: the engine's completion (R113, R142, R380), and the host's events while IDLE and
while BUSY: accesses to the register window (R31 to R56, R84, R157, R381), waits (R116, R117) and resets (R370,
R372). -/

namespace Sys2Proof.Machine

open Sys2Proof.Spec

/-! ## The engine's step (R142) -/

theorem completesNow_of_engineFirst {s : State} (h : EngineFirst s) : completesNow s = true := by
  obtain hnil | (⟨w, a, v, rest, hh⟩ | ⟨w, a, rest, hh⟩) | ⟨rest, hh⟩ | hd := h
  · exact completesNow_nil hnil
  · rw [completesNow_cons hh, held, Bool.or_true]
  · rw [completesNow_cons hh, held, Bool.or_true]
  · rw [completesNow_cons hh, held, Bool.or_true]
  · exact completesNow_of_delay hd

theorem step_of_engineFirst {s : State} (hc : s.ctl = .busy) (h : EngineFirst s) : step s = complete s :=
  step_engine hc (completesNow_of_engineFirst h)

theorem complete_of_decode_ok {s : State} {i : Instr} (h : decode s.cmd = .ok i) : complete s = exec i s := by
  rw [complete, h]

theorem complete_of_decode_error {s : State} {x : Illegal} (h : decode s.cmd = .error x) :
    complete s = .next (aborted .illegalCommand .ctrl s) := by
  rw [complete, h]
  rfl

/-- Settles O3: with the completion next the step is the engine's. -/
theorem stepRunsTheDecodedCommand : Obligations.StepRunsTheDecodedCommand := fun _ _ hc h hd =>
  (step_of_engineFirst hc h).trans (complete_of_decode_ok hd)

/-- Settles O4: with the completion next the step is the engine's, which aborts. -/
theorem illegalWordReportsIllegalCommand : Obligations.IllegalWordReportsIllegalCommand := fun _ _ hc h hd =>
  (step_of_engineFirst hc h).trans (complete_of_decode_error hd)

/-- A completion ends IDLE with DONE set, and it leaves the host's side alone. -/
theorem exists_complete (s : State) :
    ∃ t, complete s = .next t ∧ t.ctl = .idle ∧ t.done = true ∧ t.host = s.host ∧ t.resp = s.resp := by
  obtain ⟨i, -, hi⟩ | ⟨x, -, hx⟩ := complete_cases s
  · obtain ⟨r, -, hr⟩ | ⟨e, -, he⟩ := exec_cases i s
    · exact ⟨_, hi.trans hr, rfl, rfl, rfl, rfl⟩
    · exact ⟨_, hi.trans he, rfl, rfl, rfl, rfl⟩
  · exact ⟨_, hx, rfl, rfl, rfl, rfl⟩

/-- Settles O5: an access that is held lets the completion go first, which does not touch it. -/
theorem dataPortAccessIsHeldWhileBusy : Obligations.DataPortAccessIsHeldWhileBusy := by
  intro s hc h
  rw [step_of_engineFirst hc (.inr (.inl h))]
  exact exists_complete s

/-! ## The host's step -/

/-- The latency counts the host's events down while a command runs. -/
def counted (s : State) : State := { s with delay := if s.ctl = .busy then s.delay - 1 else s.delay }

theorem counted_of_idle {s : State} (hc : s.ctl = .idle) : counted s = s := by
  rw [counted, if_neg (by rw [hc]; decide)]

theorem counted_of_busy {s : State} (hc : s.ctl = .busy) : counted s = countDown s := by
  rw [counted, if_pos hc, countDown]

/-- An event that is not held is the next step while IDLE, and while BUSY as long as the latency is not over. -/
theorem step_event {s : State} {e : HostEvent} {rest : List HostEvent} (hh : s.host = e :: rest)
    (he : held e = false) (hd : s.ctl = .busy → s.delay ≠ 0) : step s = .next (hostStep (counted s)) := by
  cases hc : s.ctl with
  | idle => rw [step_idle hc, counted_of_idle hc]
  | busy =>
    have hn : completesNow s = false := by
      rw [completesNow_cons hh, he, Bool.or_false, beq_eq_false_iff_ne]
      exact hd hc
    rw [step_host hc hn, counted_of_busy hc]

theorem answered_eq {s : State} {e : HostEvent} {rest : List HostEvent} (hh : s.host = e :: rest) (r : Response) :
    answered r s = { s with resp := r, host := rest } := by
  rw [answered, hh, List.tail_cons]

/-- A register write that goes before the completion sets WBUSY and does nothing else (R42). -/
theorem step_regWrite_busy {s : State} {off : Nat} {v : Word} {rest : List HostEvent} (hc : s.ctl = .busy)
    (hd : s.delay ≠ 0) (hh : s.host = .regWrite 4 off v :: rest) (ho : regAccessOk 4 off = true) :
    step s = .next { acked s with wbusy := true, delay := s.delay - 1 } := by
  rw [step_event hh rfl fun _ => hd, counted_of_busy hc, hostStep_regWrite_busy (s := countDown s) hc hh ho]
  rfl

/-- Settles O6: the port takes the access, and BUSY keeps it from the register. -/
theorem registerWriteWhileBusyIsLost : Obligations.RegisterWriteWhileBusyIsLost := fun _ off _ _ hc hd hh ha hlt =>
  step_regWrite_busy hc hd hh ((regAccessOk_iff 4 off).mpr ⟨rfl, ha, hlt⟩)

/-! ## CTRL and STATUS (R35, R36) -/

theorem step_writeCtrl_idle {s : State} {v : Word} {rest : List HostEvent} (hc : s.ctl = .idle)
    (hh : s.host = .regWrite 4 0x010 v :: rest) : step s = .next (answered .ok (writeCtrl v s)) := by
  rw [step_regWrite_idle hc hh (regAccessOk_offset .ctrl), writeOffset_ctrl]

/-- Settles O7: while IDLE the write stores IRQ_EN and starts the command. -/
theorem startBeginsTheCommand : Obligations.StartBeginsTheCommand := by
  refine fun s v rest hh h0 h1 => ⟨fun hc => ?_, fun hc hd => ?_⟩
  · rw [step_writeCtrl_idle hc hh, writeCtrl_start s h1 h0]
    rfl
  · exact step_regWrite_busy hc hd hh (regAccessOk_offset .ctrl)

theorem readOffset_ctrl (s : State) : readOffset 0x010 s = if s.irqEn then 4 else 0 :=
  readOffset_of_offset (r := .ctrl) s rfl

theorem getLsbD_four : ∀ k < 32, (4 : Word).getLsbD k = (k == 2) := by decide

/-- Settles O8: the write stores one bit, and the number 4 has one bit. -/
theorem ctrlWriteStoresIrqEnable : Obligations.CtrlWriteStoresIrqEnable := by
  refine ⟨fun s v rest hc hh h0 h1 => ?_, fun s k hk => ?_⟩
  · rw [step_writeCtrl_idle hc hh, writeCtrl_store s h1 h0]
    rfl
  · rw [readOffset_ctrl]
    cases s.irqEn with
    | false => rw [if_neg Bool.false_ne_true, Bool.and_false]; exact BitVec.getLsbD_zero
    | true => rw [if_pos rfl, getLsbD_four k hk, Bool.and_true]

/-- Settles O12: the two bits of the write act on two fields, by the equation of `writeStatus`. -/
theorem statusWriteClearsDoneAndWbusy : Obligations.StatusWriteClearsDoneAndWbusy := by
  intro s v rest hc hh
  rw [step_regWrite_idle hc hh (regAccessOk_offset .status), writeOffset_status, writeStatus_eq]
  rfl

/-! ## The resets (R370, R372) -/

/-- Settles O9: SOFT_RESET wins over the other bits of the write. -/
theorem softResetClearsAllButMemory : Obligations.SoftResetClearsAllButMemory := by
  refine fun s v rest hh h1 => ⟨fun hc => ?_, fun hc hd => ?_⟩
  · refine ⟨_, step_writeCtrl_idle hc hh, ?_⟩
    rw [writeCtrl_softReset s h1]
    exact ⟨registersReset_resetRegisters s, rfl, rfl, congrArg List.tail hh⟩
  · exact step_regWrite_busy hc hd hh (regAccessOk_offset .ctrl)

theorem hardReset_idle {s : State} (hc : s.ctl = .idle) : hardReset s = resetRegisters s := by
  rw [hardReset, hc]

/-- The abandoned command leaves free values in no more bytes than DST_CAP. -/
theorem read_hardReset_outside {s : State} {a : Nat}
    (ha : a < s.dstAddr.toNat ∨ s.dstAddr.toNat + s.dstCap.toNat ≤ a) : (hardReset s).dm.read a = s.dm.read a := by
  cases hc : s.ctl with
  | idle => rw [hardReset_idle hc, resetRegisters_dm]
  | busy =>
    have hle : dstBytes s ≤ s.dstCap.toNat := Nat.min_le_left _ _
    rw [hardReset, hc]
    exact read_scramble_outside _ _ _ _ _ (by omega)

theorem hardReset_cfg (s : State) : (hardReset s).cfg = s.cfg := by
  unfold hardReset
  cases s.ctl <;> rfl

/-- The hardware reset of a pending event, BUSY or not. -/
theorem hostStep_hardReset {s : State} {rest : List HostEvent} (hh : s.host = .hardReset :: rest) :
    hostStep s = { hardReset s with host := rest } := by
  rw [hostStep, hh]

/-- Settles O10: the reset of a running command changes memory in the destination region only. -/
theorem hardwareResetKeepsMemoryOutsideTheDestination :
    Obligations.HardwareResetKeepsMemoryOutsideTheDestination := by
  refine fun s rest hh => ⟨fun hc => ?_, fun hc hd => ?_⟩
  · refine ⟨_, step_hardReset_idle hc hh, ?_⟩
    rw [hardReset_idle hc]
    exact ⟨registersReset_resetRegisters s, rfl, rfl, rfl⟩
  · have hh' : (counted s).host = .hardReset :: rest := hh
    refine ⟨_, step_event hh rfl fun _ => hd, ?_⟩
    rw [hostStep_hardReset hh']
    exact ⟨registersReset_hardReset (counted s), hardReset_cfg (counted s), rfl, fun a ha =>
      read_hardReset_outside (s := counted s) ha⟩

/-! ## Writes to the other registers (R56, R157) -/

/-- The registers that a plain write stores in, META among them. -/
def plainRegs : List Reg := [.cmd, .srcAddr, .srcLen, .dstAddr, .dstCap, .rotIdx, .payloadBits, .rotMeta]

theorem exists_plainReg {off : Nat} (h : off ∈ plainRw ∨ off = 0x038) : ∃ r ∈ plainRegs, r.offset = off := by
  have hoffs : plainRegs.map Reg.offset = plainRw ++ [0x038] := rfl
  rw [← List.mem_singleton, ← List.mem_append, ← hoffs] at h
  exact List.mem_map.mp h

theorem ite_getLsbD_zero_eq_and_one (v : Word) : (if v.getLsbD 0 then 1 else 0) = v &&& 1 := by
  have h := BitVec.and_one_eq_setWidth_ofBool_getLsbD (x := v)
  cases hb : v.getLsbD 0 <;> rw [hb] at h <;> exact h.symm

/-- The register reads back what was stored, META its one bit. -/
theorem readReg_writeReg_same {r : Reg} (hr : r ∈ plainRegs) (v : Word) (s : State) :
    readReg r (writeReg r v s) = if r.offset = 0x038 then v &&& 1 else v := by
  simp only [plainRegs, List.mem_cons, List.not_mem_nil, or_false] at hr
  obtain rfl | rfl | rfl | rfl | rfl | rfl | rfl | rfl := hr
  on_goal 8 => exact ite_getLsbD_zero_eq_and_one v
  all_goals rfl

/-- A plain write changes what no other register reads. -/
theorem readReg_writeReg_other {r r' : Reg} (hr : r ∈ plainRegs) (hne : r' ≠ r) (v : Word) (s : State) :
    readReg r' (writeReg r v s) = readReg r' s := by
  simp only [plainRegs, List.mem_cons, List.not_mem_nil, or_false] at hr
  cases r' with
  | id | capMem | capSeq | ctrl | status | dstLen | freq | codeLen =>
    obtain rfl | rfl | rfl | rfl | rfl | rfl | rfl | rfl := hr <;> rfl
  | cmd | srcAddr | srcLen | dstAddr | dstCap | rotIdx | payloadBits =>
    obtain rfl | rfl | rfl | rfl | rfl | rfl | rfl | rfl := hr <;> simp [readReg, writeReg] at hne ⊢
  | rotMeta =>
    obtain rfl | rfl | rfl | rfl | rfl | rfl | rfl | rfl := hr
    on_goal 8 => exact absurd rfl hne
    all_goals rfl

/-- A plain write leaves the rest of the block and the host's side alone. -/
theorem writeReg_frame {r : Reg} (hr : r ∈ plainRegs) (v : Word) (s : State) :
    let t := writeReg r v s
    t.host = s.host ∧ t.ctl = s.ctl ∧ t.dm = s.dm ∧ t.ct = s.ct ∧ t.cfg = s.cfg := by
  simp only [plainRegs, List.mem_cons, List.not_mem_nil, or_false] at hr
  obtain rfl | rfl | rfl | rfl | rfl | rfl | rfl | rfl := hr
  all_goals exact ⟨rfl, rfl, rfl, rfl, rfl⟩

@[simp] theorem readOffset_answered (off : Nat) (r : Response) (s : State) :
    readOffset off (answered r s) = readOffset off s := rfl

/-- A plain write changes what no other aligned offset reads: another register stands there, or none. -/
theorem readOffset_writeReg_other {r : Reg} (hr : r ∈ plainRegs) (v : Word) (s : State) {off : Nat}
    (ha : off % 4 = 0) (hne : off ≠ r.offset) : readOffset off (writeReg r v s) = readOffset off s := by
  rw [readOffset, readOffset]
  cases h : regAt off with
  | none => rfl
  | some r' =>
    refine readReg_writeReg_other hr ?_ v s
    rintro rfl
    exact hne (offset_of_regAt ha h).symm

/-- Settles O14: the offset is that of one register, in which the write stores. -/
theorem registerWriteIsStored : Obligations.RegisterWriteIsStored := by
  intro s off v rest hc hh hoff
  obtain ⟨r, hr, rfl⟩ := exists_plainReg hoff
  obtain ⟨hhost, hctl, hdm, hct, hcfg⟩ := writeReg_frame hr v s
  refine ⟨_, step_regWrite_idle hc hh (regAccessOk_offset r), ?_⟩
  rw [writeOffset_offset]
  refine ⟨?_, rfl, hctl.trans hc, hdm, hct, hcfg, ?_, fun off ha _ hne => ?_⟩
  · rw [answered_host, hhost, hh, List.tail_cons]
  · rw [readOffset_answered, readOffset_offset]
    exact readReg_writeReg_same hr v s
  · rw [readOffset_answered]
    exact readOffset_writeReg_other hr v s ha hne

/-- A write at an ignored offset finds a read-only register or none. -/
theorem writeOffset_of_ignored {off : Nat} (ha : off % 4 = 0) (h : Ignored off) (v : Word) (s : State) :
    writeOffset off v s = s := by
  rw [writeOffset]
  cases hr : regAt off with
  | none => rfl
  | some r =>
    obtain rfl := offset_of_regAt ha hr
    cases r with
    | id | capMem | capSeq | dstLen | freq | codeLen => rfl
    | _ => exact absurd h (by unfold Ignored Reg.offset; decide)

theorem readOffset_of_reserved {off : Nat} (h : Reserved off) (s : State) : readOffset off s = 0 := by
  rw [readOffset, regAt_reserved h]

/-- Settles O15: no register there stores a write, and a reserved offset has no register. -/
theorem readOnlyAndReservedIgnoreWrites : Obligations.ReadOnlyAndReservedIgnoreWrites := by
  refine ⟨fun s off v rest hh ha hlt hi => ?_, fun s off h => readOffset_of_reserved h s⟩
  have ho := (regAccessOk_iff 4 off).mpr ⟨rfl, ha, hlt⟩
  refine ⟨fun hc => ?_, fun hc hd => step_regWrite_busy hc hd hh ho⟩
  rw [step_regWrite_idle hc hh ho, writeOffset_of_ignored ha hi]
  rfl

/-! ## Reads of the register window (R31, R84) -/

theorem toNat_ofNat_of_le_cap {n : Nat} (h : n ≤ 2 ^ 24) : (BitVec.ofNat 32 n).toNat = n :=
  Nat.mod_eq_of_lt (by omega)

theorem memBytes_le_of_wf {cfg : Config} (h : cfg.wf = true) : cfg.memBytes ≤ 2 ^ 24 := by
  simp only [Config.wf, Bool.and_eq_true, decide_eq_true_eq] at h
  omega

/-- CODE_LEN has a byte and no more (R55). -/
theorem extractLsb'_readReg_codeLen (b : Byte) (s : State) : (readReg (.codeLen b) s).extractLsb' 8 24 = 0 := by
  refine BitVec.eq_of_toNat_eq ?_
  rw [readReg, BitVec.extractLsb'_toNat, BitVec.toNat_setWidth, Nat.shiftRight_eq_div_pow]
  have hlt := (BitVec.ofNat 8 (entry s.ct b).length).isLt
  have hzero : (0 : BitVec 24).toNat = 0 := rfl
  omega

theorem windowReads (s : State) : WindowReads s where
  id := readOffset_of_offset (r := .id) s rfl
  capMem h := (congrArg BitVec.toNat (readOffset_of_offset (r := .capMem) s rfl)).trans
    (toNat_ofNat_of_le_cap (memBytes_le_of_wf h))
  capSeq h := (congrArg BitVec.toNat (readOffset_of_offset (r := .capSeq) s rfl)).trans
    (toNat_ofNat_of_le_cap (seqMax_le_of_wf h))
  cmd := readOffset_of_offset (r := .cmd) s rfl
  srcAddr := readOffset_of_offset (r := .srcAddr) s rfl
  srcLen := readOffset_of_offset (r := .srcLen) s rfl
  dstAddr := readOffset_of_offset (r := .dstAddr) s rfl
  dstCap := readOffset_of_offset (r := .dstCap) s rfl
  dstLen := readOffset_dstLen s
  rotIdx := readOffset_of_offset (r := .rotIdx) s rfl
  rotMeta := readOffset_of_offset (r := .rotMeta) s rfl
  payloadBits := readOffset_of_offset (r := .payloadBits) s rfl
  freq b := readOffset_freq b s
  codeLen _ h := toNat_readOffset_codeLen h
  codeLenHigh b := by
    rw [readOffset_of_offset s (Reg.offset_codeLen b)]
    exact extractLsb'_readReg_codeLen b s
  reserved _ h := readOffset_of_reserved h s

theorem regAccessOk_eq_false {w off : Nat} (h : ¬ (w = 4 ∧ off % 4 = 0 ∧ off < 4096)) : regAccessOk w off = false := by
  rwa [← Bool.not_eq_true, regAccessOk_iff]

theorem hostStep_regRead_bad {s : State} {w off : Nat} {rest : List HostEvent} (hh : s.host = .regRead w off :: rest)
    (ho : regAccessOk w off = false) : hostStep s = answered .busError s := by
  simp [hostStep, hh, regReadPort, ho, answerRead]

theorem hostStep_regWrite_bad {s : State} {w off : Nat} {v : Word} {rest : List HostEvent}
    (hh : s.host = .regWrite w off v :: rest) (ho : regAccessOk w off = false) :
    hostStep s = answered .busError s := by
  simp [hostStep, hh, regWritePort, ho, answerWrite]

/-- Settles O16: the window is read through the register map, and a bad access is answered before any register. -/
theorem registerAccessAnswers : Obligations.RegisterAccessAnswers := by
  refine ⟨windowReads, fun s w off rest hd => ⟨fun hh => ⟨?_, fun hbad => ?_⟩, fun v hh hbad => ?_⟩⟩
  · rintro ⟨rfl, ha, hlt⟩
    have hh' : (counted s).host = .regRead 4 off :: rest := hh
    rw [step_event hh rfl hd, hostStep_regRead hh' ((regAccessOk_iff 4 off).mpr ⟨rfl, ha, hlt⟩), answered_eq hh']
    rfl
  · have hh' : (counted s).host = .regRead w off :: rest := hh
    rw [step_event hh rfl hd, hostStep_regRead_bad hh' (regAccessOk_eq_false hbad), answered_eq hh']
    rfl
  · have hh' : (counted s).host = .regWrite w off v :: rest := hh
    rw [step_event hh rfl hd, hostStep_regWrite_bad hh' (regAccessOk_eq_false hbad), answered_eq hh']
    rfl

/-! ## The waits (R116, R117) -/

/-- Settles O17: a wait reads STATUS, or looks at IRQ, and changes nothing of the block. -/
theorem hostWaitsForIdleOrIrq : Obligations.HostWaitsForIdleOrIrq := by
  refine ⟨fun s rest hh => ?_, fun s rest hh hc => ?_⟩
  · rw [readOffset_status]
    refine ⟨fun hc => ?_, fun hc hd => ?_⟩
    · rw [step_idle hc, (hostStep_waitIdle hh).1 hc]
    · have hh' : (counted s).host = .waitIdle :: rest := hh
      rw [step_event hh rfl fun _ => hd, (hostStep_waitIdle hh').2 hc, counted_of_busy hc]
      rfl
  · obtain ⟨hon, hoff⟩ := hostStep_waitIrq hh
    rw [step_idle hc]
    refine ⟨fun hen hdone => ?_, fun h => ?_⟩
    · rw [hon (by rw [irq, hen, hdone]; rfl)]
    · rw [hoff (by rw [irq, Bool.and_eq_false_iff]; exact h)]

end Sys2Proof.Machine
end

section
/-! PROOFS. The data port of 20_memory.md (R82 to R85): reads and writes in little-endian order, and bad accesses. -/

namespace Sys2Proof.Machine

open Sys2Proof.Spec

/-! ## Little-endian order (R85) -/

theorem littleEndian_lt (v : List Byte) : littleEndian v < 256 ^ v.length := by
  induction v with
  | nil => exact Nat.one_pos
  | cons b v ih =>
    have hb : b.toNat < 256 := b.isLt
    rw [littleEndian, List.length_cons, Nat.pow_succ]
    omega

/-- The number read from a run of memory is the sum over its bytes. -/
theorem littleEndian_readBytes (m : Memory) (a w : Nat) :
    littleEndian (m.readBytes a w) = ((List.range w).map fun k => 2 ^ (8 * k) * (m.read (a + k)).toNat).sum := by
  induction w generalizing a with
  | zero => rfl
  | succ w ih =>
    have hshift (k : Nat) : 2 ^ (8 * (k + 1)) * (m.read (a + (k + 1))).toNat =
        256 * (2 ^ (8 * k) * (m.read (a + 1 + k)).toNat) := by
      rw [Nat.mul_succ, Nat.pow_add, Nat.add_assoc a 1 k, Nat.add_comm 1 k]
      ring
    rw [Memory.readBytes, littleEndian, ih, List.range_succ_eq_map, List.map_cons, List.map_map, List.sum_cons,
      ← List.sum_map_mul_left]
    simp only [Function.comp_def, Nat.succ_eq_add_one, hshift, Nat.mul_zero, Nat.pow_zero, Nat.one_mul, Nat.add_zero]

/-- Byte `k` of a number. -/
theorem getElem?_bytesOf {w k : Nat} (h : k < w) (v : Nat) :
    (bytesOf w v)[k]? = some (BitVec.ofNat 8 (v / 2 ^ (8 * k))) := by
  induction w generalizing v k with
  | zero => omega
  | succ w ih =>
    cases k with
    | zero => rw [bytesOf, List.getElem?_cons_zero, Nat.mul_zero, Nat.pow_zero, Nat.div_one]
    | succ k =>
      rw [bytesOf, List.getElem?_cons_succ, ih (by omega), Nat.div_div_eq_div_mul, Nat.mul_succ, Nat.pow_add,
        Nat.mul_comm (2 ^ (8 * k))]

theorem extractLsb'_eq_ofNat_div (v : Word) (k : Nat) :
    v.extractLsb' (8 * k) 8 = BitVec.ofNat 8 (v.toNat / 2 ^ (8 * k)) := by
  rw [BitVec.extractLsb', Nat.shiftRight_eq_div_pow]

/-- A data access has at most 4 bytes, so a word holds what it reads (R82). -/
theorem littleEndian_readBytes_lt (m : Memory) (a : Nat) {w : Nat} (hw : w = 1 ∨ w = 2 ∨ w = 4) :
    littleEndian (m.readBytes a w) < 2 ^ 32 := by
  have hlt := littleEndian_lt (m.readBytes a w)
  rw [Memory.length_readBytes] at hlt
  refine hlt.trans_le ?_
  obtain rfl | rfl | rfl := hw <;> decide

/-! ## The accesses (R82, R83) -/

/-- Settles O18: the port reads the run of bytes, and the word holds its number whole. -/
theorem dataPortReadIsLittleEndian : Obligations.DataPortReadIsLittleEndian := by
  intro s w a rest hc hh hw ha hle
  refine ⟨BitVec.ofNat 32 (littleEndian (s.dm.readBytes a w)), ?_, ?_⟩
  · rw [step_idle hc, hostStep_memRead hh ((dataAccessOk_iff s.cfg w a).mpr ⟨hw, ha, hle⟩), answered_eq hh]
  · rw [← littleEndian_readBytes]
    exact Nat.mod_eq_of_lt (littleEndian_readBytes_lt s.dm a hw)

/-- A byte of a run that was just written. -/
theorem read_writeBytes {m : Memory} (hm : Memory.wf m = true) (a : Nat) {v : List Byte} {k : Nat} {b : Byte}
    (h : v[k]? = some b) : (m.writeBytes a v).read (a + k) = b := by
  have hk : k < v.length := (List.getElem?_eq_some_iff.mp h).1
  have hread := Memory.getElem?_readBytes (m.writeBytes a v) a v.length k hk
  rw [Memory.readBytes_writeBytes m a v hm, h] at hread
  exact (Option.some.inj hread).symm

/-- Settles O19: the port writes the run of the value's bytes. -/
theorem dataPortWriteChangesExactlyItsBytes : Obligations.DataPortWriteChangesExactlyItsBytes := by
  intro s w a v rest hm hc hh hw ha hle
  refine ⟨s.dm.writeBytes a (bytesOf w v.toNat), ?_, Memory.wf_writeBytes _ _ _ hm, fun k hk => ?_, fun b hb => ?_⟩
  · rw [step_idle hc, hostStep_memWrite hh ((dataAccessOk_iff s.cfg w a).mpr ⟨hw, ha, hle⟩)]
    rfl
  · rw [extractLsb'_eq_ofNat_div]
    exact read_writeBytes hm a (getElem?_bytesOf hk v.toNat)
  · exact Memory.read_writeBytes_outside _ _ _ _ (by rwa [length_bytesOf])

theorem hostStep_memRead_bad {s : State} {w a : Nat} {rest : List HostEvent} (hh : s.host = .memRead w a :: rest)
    (ho : dataAccessOk s.cfg w a = false) : hostStep s = answered .busError s := by
  simp [hostStep, hh, dataReadPort, ho, answerRead]

theorem hostStep_memWrite_bad {s : State} {w a : Nat} {v : Word} {rest : List HostEvent}
    (hh : s.host = .memWrite w a v :: rest) (ho : dataAccessOk s.cfg w a = false) :
    hostStep s = answered .busError s := by
  simp [hostStep, hh, dataWritePort, ho, answerWrite]

/-- Settles O20: the port answers a bad access before it reads or writes a byte. -/
theorem badDataPortAccessGetsABusError : Obligations.BadDataPortAccessGetsABusError := by
  intro s w a v rest hc hh hbad
  have ho : dataAccessOk s.cfg w a = false := by rwa [← Bool.not_eq_true, dataAccessOk_iff]
  obtain hh | hh := hh
  · rw [step_idle hc, hostStep_memRead_bad hh ho, answered_eq hh]
  · rw [step_idle hc, hostStep_memWrite_bad hh ho, answered_eq hh]

end Sys2Proof.Machine
end

section
/-! PROOFS. The invariant of Safety.lean (R41, R57 to R59, R64, R80, R86, R141, R341): the power-on states have it, and
a completion, a reset and every host event keep it. -/

namespace Sys2Proof.Machine

open Sys2Proof.Spec

/-! ## The resets (R64, R370, R372) -/

/-- With the registers at their reset values only the parameters and the data memory are left to be sound. -/
theorem invariant_of_registersReset {t : State} (ht : RegistersReset t) (hcfg : t.cfg.wf = true)
    (hwf : Memory.wf t.dm = true) (hb : MemoryBounded t.cfg t.dm) : Invariant t := by
  obtain ⟨-, -, hempty, -, -, hkind, hstage, -, -, -, -, -, hlen, -, -, -, hfreq, hct, hctl, -⟩ := ht
  exact {
    cfgOk := hcfg
    memWf := hwf
    memBounded := hb
    tableOk := ⟨fun b => by rw [hct]; exact Nat.zero_le _, fun b _ _ hne => absurd (hct b) hne⟩
    noTable := fun _ b => ⟨hct b, hfreq b⟩
    busyClear := fun h => by rw [hctl] at h; cases h
    recordPair := iff_of_true hkind hstage
    emptyOnSuccess := fun _ => hkind
    stageReported := fun _ h => absurd hkind h
    dstLenOk := by rw [hlen]; exact Nat.zero_le _ }

theorem invariant_powerOn {cfg : Config} {dm : Memory} (hcfg : cfg.wf = true) (hwf : Memory.wf dm = true)
    (hb : MemoryBounded cfg dm) : Invariant (State.powerOn cfg dm) :=
  invariant_of_registersReset (registersReset_powerOn cfg dm) hcfg hwf hb

/-- Settles O59: the reset state is the power-on state with the suggested parameters and nothing listed. -/
theorem resetStateIsSound : Obligations.ResetStateIsSound :=
  ⟨invariant_powerOn (cfg := Config.suggested) (dm := []) (by decide) rfl (List.forall_mem_nil _),
    fun _ _ => invariant_powerOn⟩

theorem Invariant.resetRegisters {s : State} (h : Invariant s) : Invariant (resetRegisters s) :=
  invariant_of_registersReset (registersReset_resetRegisters s) h.cfgOk h.memWf h.memBounded

/-- The free values of an abandoned command stay inside the memory (R370). -/
theorem Invariant.memory_hardReset {s : State} (h : Invariant s) :
    Memory.wf (hardReset s).dm = true ∧ MemoryBounded s.cfg (hardReset s).dm := by
  cases hc : s.ctl with
  | idle =>
    rw [hardReset_idle hc]
    exact ⟨h.memWf, h.memBounded⟩
  | busy =>
    rw [Machine.hardReset, hc]
    refine ⟨wf_scramble _ _ _ _ h.memWf, fun c hmem => ?_⟩
    obtain hmem | ⟨hlo, hhi⟩ := mem_scramble hmem
    · exact h.memBounded c hmem
    · have hbytes : dstBytes s ≤ s.cfg.memBytes - s.dstAddr.toNat := Nat.min_le_right _ _
      omega

theorem Invariant.hardReset {s : State} (h : Invariant s) : Invariant (hardReset s) := by
  obtain ⟨hwf, hb⟩ := h.memory_hardReset
  rw [← hardReset_cfg s] at hb
  refine invariant_of_registersReset (registersReset_hardReset s) ?_ hwf hb
  rw [hardReset_cfg]
  exact h.cfgOk

/-! ## The completion (R142) -/

/-- A commit writes inside the destination region, installs only tables of R59, and records a success. -/
theorem Invariant.commit {i : Instr} {s : State} {r : Result} (h : Invariant s)
    (hf : frame i (bodyOf i) s = .ok r) : Invariant (commit i r s) := by
  obtain ⟨hshape, hdst⟩ := frame_ok_result hf
  refine {
    cfgOk := h.cfgOk
    memWf := wf_commit i r h.memWf
    memBounded := fun c hc => ?_
    tableOk := ?_
    noTable := ?_
    busyClear := nofun
    recordPair := iff_of_true rfl rfl
    emptyOnSuccess := fun _ => rfl
    stageReported := fun _ hk => absurd rfl hk
    dstLenOk := ?_ }
  · rw [commit_dm] at hc
    split at hc
    · next hw =>
      obtain ⟨hfits, hlen⟩ := hdst hw
      obtain hc | ⟨-, hlt⟩ := Memory.mem_writeBytes hc
      · exact h.memBounded c hc
      · exact hlt.trans_le ((Nat.add_le_add_left hlen _).trans hfits)
    · exact h.memBounded c hc
  · rw [commit_ct]
    cases hh : r.huf with
    | none => exact h.tableOk
    | some p => exact hshape.table p hh
  · rw [commit_ctValid, commit_ct, commit_freq]
    cases r.huf with
    | none => exact h.noTable
    | some p => exact nofun
  · rw [toNat_dstLen_commit hf, commit_cfg]
    obtain hw | hnil := hshape.out
    · obtain ⟨hfits, hlen⟩ := hdst hw
      exact hlen.trans ((Nat.le_add_left _ _).trans hfits)
    · rw [hnil]
      exact Nat.zero_le _

/-- An abort with a kind and a stage records both. -/
theorem Invariant.raiseError {s : State} (h : Invariant s) {e : CmdError} (hk : e.kind ≠ .none)
    (hg : e.stage ≠ .none) : Invariant (raiseError e s) :=
  { h with
    busyClear := nofun
    recordPair := iff_of_false hk hg
    emptyOnSuccess := nofun
    stageReported := fun _ _ => rfl }

theorem stage_ne_none_of_mem_errorsOf {i : Instr} : ∀ p ∈ errorsOf i, p.2 ≠ .none := by
  cases i <;> decide

theorem Invariant.exec {s : State} (h : Invariant s) (i : Instr) : ∃ t, exec i s = .next t ∧ Invariant t := by
  obtain ⟨r, hf, hr⟩ | ⟨e, hf, he⟩ := exec_cases i s
  · exact ⟨_, hr, h.commit hf⟩
  · have hmem := frame_error_mem hf
    exact ⟨_, he, h.raiseError (kind_ne_none_of_mem_errorsOf hmem) (stage_ne_none_of_mem_errorsOf _ hmem)⟩

theorem Invariant.complete {s : State} (h : Invariant s) : ∃ t, complete s = .next t ∧ Invariant t := by
  obtain ⟨i, -, hi⟩ | ⟨x, -, hx⟩ := complete_cases s
  · rw [hi]
    exact h.exec i
  · exact ⟨_, hx, h.raiseError (by decide) (by decide)⟩

/-! ## The host's events -/

theorem Invariant.answered {s : State} (h : Invariant s) (r : Response) : Invariant (answered r s) := { h with }

theorem Invariant.countDown {s : State} (h : Invariant s) : Invariant (countDown s) := { h with }

theorem Invariant.startCommand {s : State} (h : Invariant s) : Invariant (startCommand s) :=
  { h with
    busyClear := fun _ => ⟨rfl, rfl, rfl, rfl, rfl⟩
    recordPair := iff_of_true rfl rfl
    emptyOnSuccess := nofun
    stageReported := nofun }

theorem Invariant.writeCtrl {s : State} (h : Invariant s) (v : Word) : Invariant (writeCtrl v s) := by
  have hen : Invariant { s with irqEn := v.getLsbD 2 } := { h with }
  cases h1 : v.getLsbD 1 with
  | true =>
    rw [writeCtrl_softReset s h1]
    exact h.resetRegisters
  | false =>
    cases h0 : v.getLsbD 0 with
    | true =>
      rw [writeCtrl_start s h1 h0]
      exact hen.startCommand
    | false =>
      rw [writeCtrl_store s h1 h0]
      exact hen

theorem Invariant.writeStatus {s : State} (h : Invariant s) (v : Word) : Invariant (writeStatus v s) := by
  rw [writeStatus_eq]
  refine { h with busyClear := fun hc => ?_ }
  obtain ⟨hdone, hrest⟩ := h.busyClear hc
  exact ⟨by rw [hdone, Bool.false_and], hrest⟩

theorem Invariant.writeOffset {s : State} (h : Invariant s) (off : Nat) (v : Word) :
    Invariant (writeOffset off v s) := by
  rw [Machine.writeOffset]
  cases regAt off with
  | none => exact h
  | some r =>
    cases r with
    | ctrl => exact h.writeCtrl v
    | status => exact h.writeStatus v
    | _ => exact { h with }

/-- A data access that the port takes lists no address past the memory (R82). -/
theorem Invariant.dataWrite {s : State} (h : Invariant s) {w a : Nat} (ho : dataAccessOk s.cfg w a = true) (v : Word) :
    Invariant { s with dm := s.dm.writeBytes a (bytesOf w v.toNat) } := by
  refine { h with memWf := Memory.wf_writeBytes _ _ _ h.memWf, memBounded := fun c hc => ?_ }
  obtain hc | ⟨-, hlt⟩ := Memory.mem_writeBytes hc
  · exact h.memBounded c hc
  · rw [length_bytesOf] at hlt
    exact hlt.trans_le (dataAccessOk_bound ho)

theorem Invariant.answerRead {s : State} (h : Invariant s) (x : Except Fault Word) : Invariant (answerRead x s) := by
  cases x with
  | ok v => exact h.answered (.data v)
  | error e => exact h.answered .busError

theorem Invariant.pollStatus {s : State} (h : Invariant s) : Invariant (pollStatus s) := by
  unfold Machine.pollStatus
  split
  · exact { h with }
  · exact h.answered _

theorem Invariant.pollIrq {s : State} (h : Invariant s) : Invariant (pollIrq s) := by
  unfold Machine.pollIrq
  split
  · exact { h with }
  · exact h

theorem Invariant.hostStep {s : State} (h : Invariant s) : Invariant (hostStep s) := by
  unfold Machine.hostStep
  split
  · exact h
  · next width off v rest hh =>
    obtain ⟨-, hp⟩ | ⟨-, -, hp⟩ | ⟨-, -, hp⟩ := regWritePort_cases width off v s
    · rw [hp]
      exact h.answered .busError
    · rw [hp]
      exact { h with }
    · rw [hp]
      exact (h.writeOffset off v).answered .ok
  · exact h.answerRead _
  · next width addr v rest hh =>
    obtain ⟨-, hp⟩ | ⟨ho, hp⟩ := dataWritePort_cases width addr v s
    · rw [hp]
      exact h.answered .busError
    · rw [hp]
      exact (h.dataWrite ho v).answered .ok
  · exact h.answerRead _
  · exact h.pollStatus
  · exact h.pollIrq
  · exact { h.hardReset with }

/-- Settles O60: a step is a completion or a host event. -/
theorem everyStepKeepsTheInvariant : Obligations.EveryStepKeepsTheInvariant := by
  intro s h
  obtain ⟨-, hs⟩ | ⟨-, -, hs⟩ | ⟨-, -, hs⟩ := step_cases s
  · exact ⟨_, hs, h.hostStep⟩
  · rw [SafeStep, hs]
    exact h.complete
  · exact ⟨_, hs, h.countDown.hostStep⟩

end Sys2Proof.Machine
end
